-- ==== Sys2Proof/Word.lean ====
section
/-!
DEFINITION. Word.lean: the word types of the machine.
Registers, the program counter and addresses being computed are 64 bits (10_state R30, R31, R49); an
instruction word is 32 bits (30_encoding R80).
-/

namespace Sys2Proof

/-- One byte of memory or of a register. -/
abbrev Byte := BitVec 8

/-- The contents of a GPR or an FPR, an address, the program counter (10_state R30, R49). -/
abbrev Word := BitVec 64

/-- One 32-bit instruction word: a whole unprefixed instruction, the first word `w0` or the
suffix `w1` of a 64-bit one (30_encoding R80). -/
abbrev IWord := BitVec 32

end Sys2Proof
end

