-- ==== Sys2Proof/Config.lean ====
section
/-!
DEFINITION. Config.lean: what an implementation fixes (00_scope R9), at the value the spec takes, and the
open values that have no default. What an instruction of BASE does, another of these, stands with the state it
works on, in Machine/Base.lean.
-/

namespace Sys2Proof

/-- `NREGS`: entries of each of the GPR, FPR and CR-field files. DESIGN CHOICE of the spec (92 D2): the
Upper Compliancy Level. Unsafe for hardware of a lower level (log 27). -/
abbrev Config.nregs : Nat := 128

/-- `XLEN`, `REGBITS`: the width of a register and of a 64-bit scalar operand (00_scope R9; log 27). -/
abbrev Config.xlen : Nat := 64

/-- `VLMAX`: the largest value VL can hold. DESIGN CHOICE of the spec (92 D4); safe (log 27). -/
abbrev Config.vlMax : Nat := 127

/-- `PRED_OFFS`: the CR field of element 0 of a CR predicate (41_predication R140). -/
abbrev Config.predOffs : Nat := 32

/-- `IFETCH_LE`: instruction words are little-endian in memory. The spec's default of a parameter of BASE
(92 D6). Unsafe for a BASE that fetches big-endian (log 8). -/
def Config.ifetchLE : Bool := true

/-- `BASE_HAS_V31`: whether BASE executes the v3.1 prefixed formats. The spec's default (92 D7). Unsafe
for a BASE that has them (log 9). -/
def Config.baseHasV31 : Bool := false

/-- Whether a 32-bit word is an instruction of BASE. BASE is a parameter that must be supplied (00_scope R7,
92 D1) and its opcode map is in no source, so this is a constant without a value (log 11). -/
opaque Config.baseHas : IWord → Bool

/-- How many ticks BASE's timers advance in step number `n`: "an unspecified amount" (60_exceptions R231), so a
constant without a value (log 39). -/
opaque Config.ticks : Nat → Nat

/-- `RC1_CR_START`: the CR field at which vectorised Rc = 1 results start. The source says "CR8 (TBD)" and
the spec gives it no default (93 U6), so it is a free value; nothing reads it while Rc = 1 is refused
(43_vector_loop R198; log 28). -/
opaque Config.rc1CrStart : Fin 128

end Sys2Proof
end

