-- ==== Sys2Proof/Syntax.lean ====
section
/-!
DEFINITION. Syntax.lean: instructions as data, one constructor for each row of spec/opcode_table.json.
-/

namespace Sys2Proof

/-- MASKMODE, `RM[0]`: the kind of predicate (41_predication R131). -/
inductive MaskMode
  /-- 0: integer predication. -/
  | int
  /-- 1: CR-based predication. -/
  | cr
  deriving DecidableEq, Repr

/-- The Remapped Encoding `RM[0:23]`, by the fields of 30_encoding R91 and R92. `extra` is `RM[10:18]`,
whose split depends on the suffix (R90). -/
structure Rm where
  /-- MASKMODE, `RM[0]`. -/
  maskmode : MaskMode
  /-- MASK, `RM[1:3]`. -/
  mask : BitVec 3
  /-- ELWIDTH, `RM[4:5]`. -/
  elwidth : BitVec 2
  /-- ELWIDTH_SRC, `RM[6:7]`. -/
  elwidthSrc : BitVec 2
  /-- SUBVL, `RM[8:9]`. -/
  subvl : BitVec 2
  /-- EXTRA, `RM[10:18]`. -/
  extra : BitVec 9
  /-- MODE, `RM[19:23]`. -/
  mode : BitVec 5
  deriving DecidableEq, Repr

/-- The instructions. Every word with EXT01 in bits 0:5 begins a 64-bit instruction (30_encoding R82), so
every constructor but `add` carries its second word; `low` is the part of the first word the cell leaves
free. -/
inductive Instr
  /-- Row `sv.<suffix>`: an SVP64 prefix and any suffix word but the plain `add` of row `sv.add`. -/
  | svSuffix (rm : Rm) (suffix : IWord)
  /-- Row `8LS`, cell 000xxx (R95). -/
  | v31_8ls (low : BitVec 23) (suffix : IWord)
  /-- Row `MLS`, cell 100xxx (R95). -/
  | v31_mls (low : BitVec 23) (suffix : IWord)
  /-- Row `8RR`, cell 010000 (R95). -/
  | v31_8rr (low : BitVec 20) (suffix : IWord)
  /-- Row `MRR`, cell 110000 (R95). -/
  | v31_mrr (low : BitVec 20) (suffix : IWord)
  /-- Row `MMIRR`, cell 111001 (R95). -/
  | v31_mmirr (low : BitVec 20) (suffix : IWord)
  /-- Empty cell 001xxx (R94). -/
  | cell001xxx (low : BitVec 23) (suffix : IWord)
  /-- Empty cell 101xxx (R94). -/
  | cell101xxx (low : BitVec 23) (suffix : IWord)
  /-- Empty cell 0110xx (R94). -/
  | cell0110xx (low : BitVec 22) (suffix : IWord)
  /-- Empty cell 010001 (R94). -/
  | cell010001 (low : BitVec 20) (suffix : IWord)
  /-- Empty cell 010010 (R94). -/
  | cell010010 (low : BitVec 20) (suffix : IWord)
  /-- Empty cell 010011 (R94). -/
  | cell010011 (low : BitVec 20) (suffix : IWord)
  /-- Empty cell 110001 (R94). -/
  | cell110001 (low : BitVec 20) (suffix : IWord)
  /-- Empty cell 110010 (R94). -/
  | cell110010 (low : BitVec 20) (suffix : IWord)
  /-- Empty cell 110011 (R94). -/
  | cell110011 (low : BitVec 20) (suffix : IWord)
  /-- Empty cell 111000 (R94). -/
  | cell111000 (low : BitVec 20) (suffix : IWord)
  /-- Empty cell 111010 (R94). -/
  | cell111010 (low : BitVec 20) (suffix : IWord)
  /-- Empty cell 111011 (R94). -/
  | cell111011 (low : BitVec 20) (suffix : IWord)
  /-- Row `sv.add`: an SVP64 prefix and the suffix `add RT,RA,RB`, OE = 0, Rc = 0 (43_vector_loop R208). -/
  | svAdd (rm : Rm) (rt ra rb : BitVec 5)
  /-- Row `add`: unprefixed `add RT,RA,RB`, OE = 0, Rc = 0 (43_vector_loop R210). -/
  | add (rt ra rb : BitVec 5)
  deriving DecidableEq, Repr

end Sys2Proof
end

