-- ==== Sys2Proof/Decode.lean ====
section
/-!
DEFINITION. Decode.lean: bytes to words, words to instructions, and the encoder. Bit numbers are MSB0
(00_scope R13, R17) unless a name says otherwise.
-/

namespace Sys2Proof

/-! ## Bit fields -/

/-- MSB0 bits `start .. start + len - 1` of `w`: the slice `w[start : start + len - 1]` of
00_scope R13 and R17, with its length in place of its last bit. -/
def field {n : Nat} (w : BitVec n) (start len : Nat) : BitVec len :=
  w.extractLsb' (n - start - len) len

/-- The word is `add RT,RA,RB` with OE = 0 and Rc = 0: bits 0:5 are 31 and bits 21:31 are
OE = 0, XO = 266, Rc = 0 (43_vector_loop R207, R208, R210). -/
def isPlainAdd (w : IWord) : Bool := field w 0 6 == 31 && field w 21 11 == 532

/-! ## Words in memory -/

/-- The word whose four bytes, in ascending address order, are `b0 b1 b2 b3`, in little-endian or
big-endian order (20_memory R62). -/
def wordOfBytes (le : Bool) (b0 b1 b2 b3 : Byte) : IWord :=
  if le then b3 ++ b2 ++ b1 ++ b0 else b0 ++ b1 ++ b2 ++ b3

/-- The four bytes of a word in ascending address order: the inverse of `wordOfBytes`. -/
def bytesOfWord (le : Bool) (w : IWord) : List Byte :=
  let b (k : Nat) : Byte := w.extractLsb' (8 * k) 8
  if le then [b 0, b 1, b 2, b 3] else [b 3, b 2, b 1, b 0]

/-! ## The prefix word -/

/-- Bits 0:5 equal `0b000001` (EXT01): the instruction is 64 bits long (30_encoding R82). -/
def isExt01 (w : IWord) : Bool := field w 0 6 == 1

/-- The first word is an SVP64 one: EXT01, bit 7 and bit 9 set (30_encoding R85). -/
def isSvp64 (w : IWord) : Bool := isExt01 w && field w 7 1 == 1 && field w 9 1 == 1

/-- `RM <- w0[6] ‖ w0[8] ‖ w0[10:31]` (30_encoding R87). -/
def rmBits (w0 : IWord) : BitVec 24 := field w0 6 1 ++ field w0 8 1 ++ field w0 10 22

/-- The inverse of `rmBits`: the SVP64 first word that carries `rm` (30_encoding R86, R87). -/
def svp64Word (rm : BitVec 24) : IWord :=
  1#6 ++ field rm 0 1 ++ 1#1 ++ field rm 1 1 ++ 1#1 ++ field rm 2 22

/-- The fields of the 24-bit Remapped Encoding (30_encoding R91, R92). -/
def Rm.ofBits (r : BitVec 24) : Rm where
  maskmode := if field r 0 1 == 1 then .cr else .int
  mask := field r 1 3
  elwidth := field r 4 2
  elwidthSrc := field r 6 2
  subvl := field r 8 2
  extra := field r 10 9
  mode := field r 19 5

/-- MASKMODE as a bit (41_predication R131). -/
def MaskMode.toBit : MaskMode → BitVec 1
  | .int => 0
  | .cr => 1

/-- The Remapped Encoding as one 24-bit value: the inverse of `Rm.ofBits`. -/
def Rm.toBits (rm : Rm) : BitVec 24 :=
  rm.maskmode.toBit ++ rm.mask ++ rm.elwidth ++ rm.elwidthSrc ++ rm.subvl ++ rm.extra ++ rm.mode

/-- The SVP64 first word of `rm`. -/
def Rm.toWord (rm : Rm) : IWord := svp64Word rm.toBits

/-! ## Decoding -/

/-- What the decoder rejects, by name. -/
inductive DecodeError
  /-- Fewer bytes than the instruction's length. -/
  | truncated
  /-- An unprefixed word other than `add`: BASE's instruction (30_encoding R97). -/
  | baseInstruction (w : IWord)
  deriving DecidableEq, Repr

/-- The 64-bit instruction of first word `w0` (which has EXT01) and second word `w1`, in the order of
30_encoding R84. The last line is the one cell left, 111011: SVP64 has taken every cell whose bits 7 and
9 are set. -/
def decodePair (w0 w1 : IWord) : Instr :=
  if isSvp64 w0 then
    if isPlainAdd w1 then
      .svAdd (Rm.ofBits (rmBits w0)) (field w1 6 5) (field w1 11 5) (field w1 16 5)
    else .svSuffix (Rm.ofBits (rmBits w0)) w1
  else if field w0 6 3 == 0b000 then .v31_8ls (field w0 9 23) w1
  else if field w0 6 3 == 0b100 then .v31_mls (field w0 9 23) w1
  else if field w0 6 6 == 0b010000 then .v31_8rr (field w0 12 20) w1
  else if field w0 6 6 == 0b110000 then .v31_mrr (field w0 12 20) w1
  else if field w0 6 6 == 0b111001 then .v31_mmirr (field w0 12 20) w1
  else if field w0 6 3 == 0b001 then .cell001xxx (field w0 9 23) w1
  else if field w0 6 3 == 0b101 then .cell101xxx (field w0 9 23) w1
  else if field w0 6 4 == 0b0110 then .cell0110xx (field w0 10 22) w1
  else if field w0 6 6 == 0b010001 then .cell010001 (field w0 12 20) w1
  else if field w0 6 6 == 0b010010 then .cell010010 (field w0 12 20) w1
  else if field w0 6 6 == 0b010011 then .cell010011 (field w0 12 20) w1
  else if field w0 6 6 == 0b110001 then .cell110001 (field w0 12 20) w1
  else if field w0 6 6 == 0b110010 then .cell110010 (field w0 12 20) w1
  else if field w0 6 6 == 0b110011 then .cell110011 (field w0 12 20) w1
  else if field w0 6 6 == 0b111000 then .cell111000 (field w0 12 20) w1
  else if field w0 6 6 == 0b111010 then .cell111010 (field w0 12 20) w1
  else .cell111011 (field w0 12 20) w1

/-- The unprefixed instruction of word `w` (which has no EXT01): `add`, or BASE's (30_encoding R97). -/
def decodeScalar (w : IWord) : Except DecodeError Instr :=
  if isPlainAdd w then .ok (.add (field w 6 5) (field w 11 5) (field w 16 5))
  else .error (.baseInstruction w)

/-- Decode the instruction at the head of `bytes`, with the bytes left over. Total: the length is 8 bytes
when the first word has EXT01 and 4 otherwise (30_encoding R80, R82). -/
def decode (bytes : List Byte) : Except DecodeError (Instr × List Byte) :=
  match bytes with
  | b0 :: b1 :: b2 :: b3 :: rest =>
    let w0 := wordOfBytes Config.ifetchLE b0 b1 b2 b3
    if isExt01 w0 then
      match rest with
      | c0 :: c1 :: c2 :: c3 :: rest' =>
        .ok (decodePair w0 (wordOfBytes Config.ifetchLE c0 c1 c2 c3), rest')
      | _ => .error .truncated
    else
      match decodeScalar w0 with
      | .ok i => .ok (i, rest)
      | .error e => .error e
  | _ => .error .truncated

/-! ## Encoding -/

/-- The suffix word `add RT,RA,RB` with the given OE and Rc bits (43_vector_loop R207): primary opcode 31,
extended opcode 266. -/
def addWord (rt ra rb : BitVec 5) (oe rc : BitVec 1) : IWord :=
  31#6 ++ rt ++ ra ++ rb ++ oe ++ 266#9 ++ rc

/-- The words of an instruction, the first at the lower address. -/
def encode : Instr → List IWord
  | .svSuffix rm w1 => [rm.toWord, w1]
  | .v31_8ls low w1 => [0b000001000#9 ++ low, w1]
  | .v31_mls low w1 => [0b000001100#9 ++ low, w1]
  | .v31_8rr low w1 => [0b000001010000#12 ++ low, w1]
  | .v31_mrr low w1 => [0b000001110000#12 ++ low, w1]
  | .v31_mmirr low w1 => [0b000001111001#12 ++ low, w1]
  | .cell001xxx low w1 => [0b000001001#9 ++ low, w1]
  | .cell101xxx low w1 => [0b000001101#9 ++ low, w1]
  | .cell0110xx low w1 => [0b0000010110#10 ++ low, w1]
  | .cell010001 low w1 => [0b000001010001#12 ++ low, w1]
  | .cell010010 low w1 => [0b000001010010#12 ++ low, w1]
  | .cell010011 low w1 => [0b000001010011#12 ++ low, w1]
  | .cell110001 low w1 => [0b000001110001#12 ++ low, w1]
  | .cell110010 low w1 => [0b000001110010#12 ++ low, w1]
  | .cell110011 low w1 => [0b000001110011#12 ++ low, w1]
  | .cell111000 low w1 => [0b000001111000#12 ++ low, w1]
  | .cell111010 low w1 => [0b000001111010#12 ++ low, w1]
  | .cell111011 low w1 => [0b000001111011#12 ++ low, w1]
  | .svAdd rm rt ra rb => [rm.toWord, addWord rt ra rb 0#1 0#1]
  | .add rt ra rb => [addWord rt ra rb 0#1 0#1]

/-- The bytes of words laid out at ascending addresses, each in the byte order of instruction fetch. -/
def bytesOfWords (ws : List IWord) : List Byte := ws.flatMap (bytesOfWord Config.ifetchLE)

/-- The bytes of an instruction as instruction fetch meets them. -/
def encodeBytes (i : Instr) : List Byte := bytesOfWords (encode i)

/-! ## The opcode table's words -/

/-- The two words, first word first, of an instruction whose bits the opcode table numbers as `w`: bit 0 is
the least significant bit of the first word and a later word's bits count on from it; bits above `nbits`
are 0. The one 64-bit row of the table (`sv.add`) says that its match and mask "put w0 in the upper 32
bits"; an instruction longer than 32 bits has EXT01 in its first word (30_encoding R82), so when only
the upper half has it the upper half is the first word. DESIGN CHOICE (log 19); safe, since no
instruction's meaning uses it. -/
def tableWords (nbits w : Nat) : IWord × IWord :=
  let bits := w % 2 ^ nbits
  let lower : IWord := BitVec.ofNat 32 bits
  let upper : IWord := BitVec.ofNat 32 (bits / 2 ^ 32)
  if !isExt01 lower && isExt01 upper then (upper, lower) else (lower, upper)

/-- The bytes of the opcode table's word `w`, laid out as the hardware stores them. -/
def tableBytes (nbits w : Nat) : List Byte :=
  bytesOfWords [(tableWords nbits w).1, (tableWords nbits w).2]

/-- The instruction the decoder reads from the opcode table's word `w` of `nbits` bits. -/
def decodeTableWord (nbits w : Nat) : Option Instr :=
  match decode (tableBytes nbits w) with
  | .ok (i, _) => some i
  | .error _ => none

end Sys2Proof
end

