-- ==== Sys2Proof/Machine/State.lean ====
section
/-!
DEFINITION. Machine/State.lean: the state of the machine (10_state), the reasons a step stops, and reset.
-/

namespace Sys2Proof.Machine

/-- One CR field: four bits (10_state R32). -/
structure CrField where
  /-- LT. -/
  lt : Bool
  /-- GT. -/
  gt : Bool
  /-- EQ. -/
  eq : Bool
  /-- FU, also written so/un. -/
  fu : Bool
  deriving DecidableEq, Repr, Inhabited

/-- A register file of 128 registers of 64 bits: the GPRs or the FPRs (10_state R30, R31, R33). -/
abbrev RegFile := Vector Word 128

/-- The CR file: 128 fields of 4 bits (10_state R32). -/
abbrev CrFile := Vector CrField 128

/-- SVSTATE: of its fields the spec uses VL alone (10_state R42, R43). -/
structure Svstate where
  /-- The vector length, 0 to VLMAX. -/
  vl : Fin (Config.vlMax + 1)
  deriving DecidableEq, Repr, Inhabited

/-- BASE's machine state register: the spec names its bit LE alone (10_state R44); its other bits are part of
`BaseState` (log 24). -/
structure Msr where
  /-- MSR.LE: the byte order of data accesses to memory (10_state R38). -/
  le : Bool
  deriving DecidableEq, Repr, Inhabited

/-- "BASE's own state" (00_scope section 5): what BASE holds besides the state this spec names, as the link
and count registers, XER, FPSCR and its other special-purpose registers (10_state head), but for the ticks of its
timers (`State.time`). No source gives
its shape, so it is one number that stands for all of it and that BASE alone reads and writes
(log 24). -/
abbrev BaseState := Nat

/-- Memory: the bytes that have been written, in strictly rising order of address. An address that is
not listed has no value (log 7). -/
abbrev Memory := List Host.Cell

/-- The canonical form of memory: addresses strictly rise and lie below 2^64. -/
abbrev Memory.wf (m : Memory) : Prop :=
  m.Pairwise (fun x y => x.1 < y.1) ∧ ∀ c ∈ m, c.1 < 2 ^ 64

/-- The exceptions of the spec: there is one (60_exceptions R220). -/
inductive Exception
  /-- The illegal instruction trap. -/
  | illegalInstruction
  deriving DecidableEq, Repr

/-- A trap that was raised: the exception, the address of the instruction's first word, and its words,
carried "so that an emulator can be modelled" (60_exceptions R220, R222). -/
structure Trap where
  /-- Which exception. -/
  kind : Exception
  /-- The address of the first word. -/
  pc : Word
  /-- The first word. -/
  w0 : IWord
  /-- The second word, where the instruction has one. -/
  w1 : Option IWord
  deriving DecidableEq, Repr

/-- Whether the hart runs or has stopped in the outcome `Trapped(IllegalInstruction, pc)` that
60_exceptions R223 gives a model without BASE's trap entry. DESIGN CHOICE: the outcome is held as
state, so that the trap is a next state of the instruction that raises it (log 1). -/
inductive Hart
  /-- Executing instructions. -/
  | running
  /-- Stopped by a trap. -/
  | trapped (t : Trap)
  deriving DecidableEq, Repr

/-- The state of the machine. -/
structure State where
  /-- The integer registers r0 to r127 (10_state R30). -/
  gpr : RegFile
  /-- The floating-point registers fp0 to fp127 (10_state R31). -/
  fpr : RegFile
  /-- The CR fields CR0 to CR127 (10_state R32). -/
  crf : CrFile
  /-- SVSTATE (10_state R42). -/
  svstate : Svstate
  /-- MSR (10_state R44). -/
  msr : Msr
  /-- The program counter: the address of the first word of the instruction (10_state R49). -/
  pc : Word
  /-- BASE's memory (20_memory R65). -/
  mem : Memory
  /-- Running, or stopped by a trap (60_exceptions R223). -/
  hart : Hart
  /-- BASE's own state (00_scope R7). -/
  base : BaseState
  /-- The model's own: the number of instructions completed, from which the ticks of BASE's timers follow
  (60_exceptions R231; log 39). -/
  steps : Nat
  deriving DecidableEq, Repr

/-- Why a step faults. -/
inductive Fault
  /-- Raised by `step` on a hart that a trap has stopped: trap entry is the open parameter TrapEntry and
  by default the hart stops (60_exceptions R223). Safe: nothing after a trap is modelled (log 1). -/
  | trapped (t : Trap)
  /-- Raised by instruction fetch at a byte nothing has written (60_exceptions R225: fetch faults are
  BASE's). Safe (log 7). -/
  | fetchUnwritten (addr : Nat)
  /-- Raised by instruction fetch when pc is no multiple of 4 (20_memory R63). Safe (log 13). -/
  | pcMisaligned
  /-- Raised by a prefixed instruction with MASKMODE = 1 whose element operations write one of its own
  predicate fields: UNDEFINED (41_predication R145). Safe. -/
  | crPredicateOverwritten
  deriving DecidableEq, Repr

/-- Why the model gives no meaning: every constructor but the first is a `refuse` of the spec. All safe: the
model stops where hardware goes on. -/
inductive Refusal
  /-- Raised by `exec` for an instruction that has no meaning yet. -/
  | notModelled (mnemonic : String)
  /-- Raised by a prefixed instruction at pc mod 64 = 60 (20_memory R63). -/
  | crosses64
  /-- MODE is not zero (40_rm_width_subvl_mode R111). -/
  | mode
  /-- SUBVL is not zero (40_rm_width_subvl_mode R125). -/
  | subvl
  /-- ELWIDTH differs from ELWIDTH_SRC (40_rm_width_subvl_mode R121). -/
  | mixedElwidth
  /-- An FP operand at a width other than DEFAULT (40_rm_width_subvl_mode R119). -/
  | fpElwidth
  /-- A CR-only suffix with RM[4:7] not zero (40_rm_width_subvl_mode R120). -/
  | crOpElwidthBits
  /-- A twin-predicated layout (43_vector_loop R197). -/
  | twinPredication
  /-- A prefixed record form, Rc = 1 (43_vector_loop R198). -/
  | rc1
  /-- A prefixed overflow form, OE = 1 (43_vector_loop R207). -/
  | oe1
  /-- The suffix is an instruction of BASE without an element operation in SuffixTable (43_vector_loop R202,
  R212, R213, R214). -/
  | suffixNotInstantiated
  /-- An integer mask and VL above 64 (41_predication R136). -/
  | intPredicateBeyondBit63
  /-- A CR mask and VL above 96 (41_predication R142). -/
  | crPredicateBeyondCr127
  /-- An element operation reads or writes past the end of a register file (10_state R40). -/
  | elementPastEnd
  deriving DecidableEq, Repr

/-- What a meaning answers. -/
abbrev Out := Host.Outcome State Fault Refusal

/-- The machine right after reset. The spec gives no reset value at all (10_state R51, 70 R240), so each
is a DESIGN CHOICE and unsafe: GPRs and FPRs (log 2), CR fields (log 3), VL (log 4), MSR.LE
(log 5), pc (log 6), the hart running (log 1), BASE's own state (log 24). Memory has nothing listed (log 7). The count of steps starts at 0 (log 39). -/
def State.reset : State where
  gpr := Vector.replicate 128 0
  fpr := Vector.replicate 128 0
  crf := Vector.replicate 128 ⟨false, false, false, false⟩
  svstate := ⟨0⟩
  msr := ⟨true⟩
  pc := 0
  mem := []
  hart := .running
  base := 0
  steps := 0

end Sys2Proof.Machine
end

