-- ==== Sys2Proof/Machine/Ops.lean ====
section
/-!
DEFINITION. Machine/Ops.lean: the named operations over the state: one update per field, memory, the program
counter, raising the trap and resuming after it.
-/

namespace Sys2Proof.Machine

/-! ## One update per field -/

/-- Replace the GPR file. -/
def State.setGpr (s : State) (v : RegFile) : State := { s with gpr := v }
/-- Replace the FPR file. -/
def State.setFpr (s : State) (v : RegFile) : State := { s with fpr := v }
/-- Replace the CR file. -/
def State.setCrf (s : State) (v : CrFile) : State := { s with crf := v }
/-- Replace SVSTATE. -/
def State.setSvstate (s : State) (v : Svstate) : State := { s with svstate := v }
/-- Replace MSR. -/
def State.setMsr (s : State) (v : Msr) : State := { s with msr := v }
/-- Replace the program counter. -/
def State.setPc (s : State) (v : Word) : State := { s with pc := v }
/-- Replace memory. -/
def State.setMem (s : State) (v : Memory) : State := { s with mem := v }
/-- Replace the hart's condition. -/
def State.setHart (s : State) (v : Hart) : State := { s with hart := v }
/-- Replace BASE's own state. -/
def State.setBase (s : State) (v : BaseState) : State := { s with base := v }

/-- One more instruction has completed: BASE's timers advance by an unspecified amount (60_exceptions R231). -/
def State.tick (s : State) : State := { s with steps := s.steps + 1 }

/-- An instruction completes: `pc <- pc + n`, modulo 2^64 (10_state R49), and time passes (60_exceptions
R231). -/
def State.advance (s : State) (n : Nat) : State := (s.setPc (s.pc + BitVec.ofNat 64 n)).tick

/-- The ticks of the first `n` steps. -/
def elapsed : Nat → Nat
  | 0 => 0
  | n + 1 => elapsed n + Config.ticks n

/-- The ticks of BASE's timers, each step's an unspecified amount (60_exceptions R231; log 39). -/
def State.time (s : State) : Nat := elapsed s.steps

/-! ## Whole registers -/

/-- `GPR[n]` for a 5-bit field of an unprefixed instruction: r0 to r31 (43_vector_loop R210). -/
def State.gpr5 (s : State) (n : BitVec 5) : Word := s.gpr[n.toNat]

/-- `GPR[n] <- v` for a 5-bit field. -/
def State.setGpr5 (s : State) (n : BitVec 5) (v : Word) : State := s.setGpr (s.gpr.set n.toNat v)

/-! ## Memory -/

/-- The byte at address `a`; none where nothing has been written (log 7). -/
def Memory.read (m : Memory) (a : Nat) : Option Byte :=
  match m with
  | [] => none
  | c :: rest => if c.1 = a then some c.2 else Memory.read rest a

/-- Write the byte at address `a`, keeping the list in rising order of address. -/
def Memory.write (m : Memory) (a : Nat) (b : Byte) : Memory :=
  match m with
  | [] => [(a, b)]
  | c :: rest =>
    if a < c.1 then (a, b) :: c :: rest
    else if a = c.1 then (a, b) :: rest
    else c :: Memory.write rest a b

/-- The `n` bytes at `a`, in ascending address order; addresses wrap modulo 2^64 (log 15). -/
def Memory.readBytes (m : Memory) (a : Word) : Nat → Option (List Byte)
  | 0 => some []
  | n + 1 =>
    match m.read a.toNat, Memory.readBytes m (a + 1) n with
    | some b, some bs => some (b :: bs)
    | _, _ => none

/-- Store bytes at `a` upwards. -/
def Memory.writeBytes (m : Memory) (a : Word) : List Byte → Memory
  | [] => m
  | b :: bs => Memory.writeBytes (m.write a.toNat b) (a + 1) bs

/-- Store single bytes, in order. -/
def Memory.store (m : Memory) : List (Word × Byte) → Memory
  | [] => m
  | c :: cs => Memory.store (m.write c.1.toNat c.2) cs

/-- The number whose bytes, least significant first, are `bs`. -/
def natOfBytes : List Byte → Nat
  | [] => 0
  | b :: bs => b.toNat + 256 * natOfBytes bs

/-- The `n` low bytes of `v`, least significant first. -/
def bytesOfNat : Nat → Nat → List Byte
  | 0, _ => []
  | n + 1, v => BitVec.ofNat 8 v :: bytesOfNat n (v / 256)

/-- BASE's primitive `MemRead(addr, n)` (00_scope R18): the byte order is that of MSR.LE (20_memory R60,
R61). Any address will do: a misaligned access is BASE's and of unstated effect (20_memory R63), and the
model completes it byte by byte (DESIGN CHOICE, unsafe: log 35). No instantiated instruction calls it
(43_vector_loop R214). -/
def State.memRead (s : State) (a : Word) (n : Nat) : Option Nat :=
  (s.mem.readBytes a n).map fun bs => natOfBytes (if s.msr.le then bs else bs.reverse)

/-- BASE's primitive `MemWrite(addr, n, v)` (00_scope R18), in the byte order of MSR.LE, at any address as
`memRead` is (log 35). -/
def State.memWrite (s : State) (a : Word) (n v : Nat) : State :=
  let bs := bytesOfNat n v
  s.setMem (s.mem.writeBytes a (if s.msr.le then bs else bs.reverse))

/-! ## The trap -/

/-- `raise IllegalInstruction(w0, w1)` (60_exceptions R220, R222, R223): the hart stops in
`Trapped(IllegalInstruction, pc)` with the words of the instruction. No register, CR field, memory byte
or field of SVSTATE changes and pc still addresses the first word. What BASE's trap entry would do next
is the open parameter TrapEntry (log 1). -/
def State.trap (s : State) (w0 : IWord) (w1 : Option IWord) : State :=
  s.setHart (.trapped ⟨.illegalInstruction, s.pc, w0, w1⟩)

/-- The answer of a meaning that raises the illegal instruction trap. -/
def raiseIllegal (w0 : IWord) (w1 : Option IWord) (s : State) : Out := .next (s.trap w0 w1)

/-- The trap raised by a 64-bit instruction, with the two words of its encoding. -/
def raiseIllegalOf (i : Instr) (s : State) : Out :=
  raiseIllegal ((encode i).headD 0) (encode i)[1]? s

/-- The return from the trap (60_exceptions R227): a handler that has emulated the 64-bit instruction
resumes past both its words, at the trapped pc + 8. Where the trapped instruction has one word (`writeVl`) the
spec names no address; the model resumes past that word, at pc + 4 (DESIGN CHOICE, unsafe: log 36).
The handler and its return instruction are BASE's; no step calls this (log 29). -/
def State.resumeAfterEmulation (s : State) : State :=
  match s.hart with
  | .running => s
  | .trapped t => (s.setHart .running).setPc (t.pc + if t.w1.isSome then 8 else 4)

/-! ## SVSTATE -/

/-- Read `SVSTATE.VL` (10_state R42). -/
def State.readVl (s : State) : Nat := s.svstate.vl.val

/-- Write `SVSTATE.VL` on behalf of an instruction of BASE (10_state R46, 93 U8): a value the machine does not
support, one above VLMAX, raises the illegal instruction trap before the instruction changes anything
(60_exceptions R221 no. 9, R222). `rest` is the instruction's other effects, which are BASE's. -/
def State.writeVl (s : State) (w0 : IWord) (w1 : Option IWord) (v : Nat) (rest : State → State) : Out :=
  if h : v < Config.vlMax + 1 then .next (rest (s.setSvstate ⟨⟨v, h⟩⟩)) else raiseIllegal w0 w1 s

end Sys2Proof.Machine
end

