-- ==== Sys2Proof/Machine/Base.lean ====
section
/-!
DEFINITION. Machine/Base.lean: BASE, the scalar machine under the prefix. It is a parameter of the spec (00_scope R7,
92 D1): its step is a constant without a value over the state BASE reaches, but for the one instruction the
spec instantiates, `add` (43_vector_loop R210).
-/

namespace Sys2Proof.Machine

/-! ## The state BASE reaches -/

/-- What an instruction of BASE reads: r0 to r31, fp0 to fp31, CR0 to CR7 (10_state R30, R31, R32), SVSTATE,
MSR, pc, memory, BASE's own state and the ticks of its timers. -/
structure BaseView where
  /-- r0 to r31. -/
  gpr : Vector Word 32
  /-- fp0 to fp31. -/
  fpr : Vector Word 32
  /-- CR0 to CR7. -/
  cr : Vector CrField 8
  /-- SVSTATE: the instructions that manage VL and the SPRs are BASE's (10_state R46). -/
  svstate : Svstate
  /-- MSR. -/
  msr : Msr
  /-- The address of the instruction. -/
  pc : Word
  /-- Memory. -/
  mem : Memory
  /-- BASE's own state. -/
  own : BaseState
  /-- The ticks of its timers. -/
  time : Nat
  deriving DecidableEq, Repr

/-- What an instruction of BASE leaves: new values of what it may write, the word it goes on at, and the bytes
it stores. pc is a multiple of 4 (10_state R49), so it is given without its two low bits. -/
structure BaseResult where
  /-- r0 to r31. -/
  gpr : Vector Word 32
  /-- fp0 to fp31. -/
  fpr : Vector Word 32
  /-- CR0 to CR7. -/
  cr : Vector CrField 8
  /-- The value written to SVSTATE.VL, where the instruction writes it (10_state R46). -/
  vl : Option Nat
  /-- MSR. -/
  msr : Msr
  /-- The next pc, divided by 4. -/
  pcWord : BitVec 62
  /-- The bytes stored, in order. -/
  stores : List (Word × Byte)
  /-- BASE's own state. -/
  own : BaseState
  deriving DecidableEq, Repr, Inhabited

/-- The first `n` registers of a file. -/
def lowPart {α : Type} (n : Nat) (h : n ≤ 128) (f : Vector α 128) : Vector α n :=
  Vector.ofFn fun i => f[i.val]

/-- The file with its first `n` registers replaced. -/
def replaceLow {α : Type} {n : Nat} (f : Vector α 128) (low : Vector α n) : Vector α 128 :=
  Vector.ofFn fun i => if h : i.val < n then low[i.val] else f[i.val]

/-- The part of the state that BASE reaches. -/
def State.baseView (s : State) : BaseView where
  gpr := lowPart 32 (by decide) s.gpr
  fpr := lowPart 32 (by decide) s.fpr
  cr := lowPart 8 (by decide) s.crf
  svstate := s.svstate
  msr := s.msr
  pc := s.pc
  mem := s.mem
  own := s.base
  time := s.time

/-- The state an instruction of BASE leaves, but for SVSTATE: registers from r32, fp32 and CR8 upwards, and the
hart, as they were, and time has passed (log 39). -/
def State.withBase (s : State) (r : BaseResult) : State where
  gpr := replaceLow s.gpr r.gpr
  fpr := replaceLow s.fpr r.fpr
  crf := replaceLow s.crf r.cr
  svstate := s.svstate
  msr := r.msr
  pc := r.pcWord ++ 0#2
  mem := s.mem.store r.stores
  hart := s.hart
  base := r.own
  steps := s.steps + 1

end Sys2Proof.Machine

namespace Sys2Proof

/-- BASE's step of an instruction of one word, or of a v3.1 one of two (00_scope R7). "OPEN BASE" (92 D1): no
text of it is in any source, so this is a constant without a value (log 14). -/
opaque Config.baseStep : IWord → Option IWord → Machine.BaseView → Machine.BaseResult

end Sys2Proof

namespace Sys2Proof.Machine

/-- An instruction of BASE: whatever BASE does with the state it reaches (30_encoding R97, R95; log 14). One that
writes SVSTATE.VL traps on a value that the machine does not support (10_state R46). -/
def execBase (w0 : IWord) (w1 : Option IWord) (s : State) : Out :=
  let r := Config.baseStep w0 w1 s.baseView
  match r.vl with
  | none => .next (s.withBase r)
  | some v => s.writeVl w0 w1 v fun s' => s'.withBase r

/-- `add RT,RA,RB`, unprefixed: `GPR[RT] <- (GPR[RA] + GPR[RB]) mod 2^64`, `pc <- pc + 4`
(43_vector_loop R210; log 30). VL and predicates do not affect it (30_encoding R97). -/
def execAdd (rt ra rb : BitVec 5) (s : State) : Out :=
  .next ((s.setGpr5 rt (s.gpr5 ra + s.gpr5 rb)).advance 4)

end Sys2Proof.Machine
end

