-- ==== Sys2Proof/Machine/PrefixMap.lean ====
section
/-!
DEFINITION. Machine/PrefixMap.lean: the cells of the prefix opcode map that are not SVP64's: the v3.1 formats
(30_encoding R95) and the empty cells (R94).
-/

namespace Sys2Proof.Machine

/-- A v3.1 prefixed instruction: BASE executes it if it has v3.1, and else it is the illegal instruction trap
(30_encoding R95; log 9). -/
def v31Cell (baseHasV31 : Bool) (i : Instr) (s : State) : Out :=
  if baseHasV31 then execBase ((encode i).headD 0) (encode i)[1]? s else raiseIllegalOf i s

/-- 8LS (30_encoding R95). -/
def execV31_8ls (low : BitVec 23) (w1 : IWord) (s : State) : Out :=
  v31Cell Config.baseHasV31 (.v31_8ls low w1) s

/-- MLS (30_encoding R95). -/
def execV31_mls (low : BitVec 23) (w1 : IWord) (s : State) : Out :=
  v31Cell Config.baseHasV31 (.v31_mls low w1) s

/-- 8RR (30_encoding R95). -/
def execV31_8rr (low : BitVec 20) (w1 : IWord) (s : State) : Out :=
  v31Cell Config.baseHasV31 (.v31_8rr low w1) s

/-- MRR (30_encoding R95). -/
def execV31_mrr (low : BitVec 20) (w1 : IWord) (s : State) : Out :=
  v31Cell Config.baseHasV31 (.v31_mrr low w1) s

/-- MMIRR (30_encoding R95). -/
def execV31_mmirr (low : BitVec 20) (w1 : IWord) (s : State) : Out :=
  v31Cell Config.baseHasV31 (.v31_mmirr low w1) s

/-- Empty cell 001xxx (30_encoding R94). -/
def execCell001xxx (low : BitVec 23) (w1 : IWord) (s : State) : Out :=
  raiseIllegalOf (.cell001xxx low w1) s

/-- Empty cell 101xxx (30_encoding R94). -/
def execCell101xxx (low : BitVec 23) (w1 : IWord) (s : State) : Out :=
  raiseIllegalOf (.cell101xxx low w1) s

/-- Empty cell 0110xx (30_encoding R94). -/
def execCell0110xx (low : BitVec 22) (w1 : IWord) (s : State) : Out :=
  raiseIllegalOf (.cell0110xx low w1) s

/-- Empty cell 010001 (30_encoding R94). -/
def execCell010001 (low : BitVec 20) (w1 : IWord) (s : State) : Out :=
  raiseIllegalOf (.cell010001 low w1) s

/-- Empty cell 010010 (30_encoding R94). -/
def execCell010010 (low : BitVec 20) (w1 : IWord) (s : State) : Out :=
  raiseIllegalOf (.cell010010 low w1) s

/-- Empty cell 010011 (30_encoding R94). -/
def execCell010011 (low : BitVec 20) (w1 : IWord) (s : State) : Out :=
  raiseIllegalOf (.cell010011 low w1) s

/-- Empty cell 110001 (30_encoding R94). -/
def execCell110001 (low : BitVec 20) (w1 : IWord) (s : State) : Out :=
  raiseIllegalOf (.cell110001 low w1) s

/-- Empty cell 110010 (30_encoding R94). -/
def execCell110010 (low : BitVec 20) (w1 : IWord) (s : State) : Out :=
  raiseIllegalOf (.cell110010 low w1) s

/-- Empty cell 110011 (30_encoding R94). -/
def execCell110011 (low : BitVec 20) (w1 : IWord) (s : State) : Out :=
  raiseIllegalOf (.cell110011 low w1) s

/-- Empty cell 111000 (30_encoding R94). -/
def execCell111000 (low : BitVec 20) (w1 : IWord) (s : State) : Out :=
  raiseIllegalOf (.cell111000 low w1) s

/-- Empty cell 111010 (30_encoding R94). -/
def execCell111010 (low : BitVec 20) (w1 : IWord) (s : State) : Out :=
  raiseIllegalOf (.cell111010 low w1) s

/-- Empty cell 111011 (30_encoding R94). -/
def execCell111011 (low : BitVec 20) (w1 : IWord) (s : State) : Out :=
  raiseIllegalOf (.cell111011 low w1) s

end Sys2Proof.Machine
end

