-- ==== Sys2Proof/Machine/Flags.lean ====
section
/-!
DEFINITION. Machine/Flags.lean: the bits of a CR field. The prefix subsystem has no flag of its own and
computes none (43_vector_loop R204): the only flags it touches are CR fields as operands and as predicates.
-/

namespace Sys2Proof.Machine

/-- The bit of a CR field that a 2-bit number selects: 0 LT, 1 GT, 2 EQ, 3 FU (10_state R32, 93 G4;
log 18). -/
def CrField.bit (f : CrField) (k : BitVec 2) : Bool :=
  if k = 0 then f.lt else if k = 1 then f.gt else if k = 2 then f.eq else f.fu

/-- Replace the bit that `k` selects, leaving the other three. -/
def CrField.setBit (f : CrField) (k : BitVec 2) (b : Bool) : CrField :=
  if k = 0 then { f with lt := b }
  else if k = 1 then { f with gt := b }
  else if k = 2 then { f with eq := b }
  else { f with fu := b }

/-- A whole CR field as an element value: its four bits, LT the most significant (00_scope R13). -/
def CrField.toWord (f : CrField) : Word :=
  (BitVec.ofBool f.lt ++ BitVec.ofBool f.gt ++ BitVec.ofBool f.eq ++ BitVec.ofBool f.fu).setWidth 64

/-- The CR field whose four bits are the low four of `v`: the inverse of `CrField.toWord`. -/
def CrField.ofWord (v : Word) : CrField :=
  ⟨v.getLsbD 3, v.getLsbD 2, v.getLsbD 1, v.getLsbD 0⟩

end Sys2Proof.Machine
end

