-- ==== Sys2Proof/Machine/Predicate.lean ====
section
/-!
DEFINITION. Machine/Predicate.lean: predicate masks (41_predication). A mask is computed whole, before the
first element operation, as a list of one Boolean per element (R144): the list is the snapshot.
-/

namespace Sys2Proof.Machine

/-- `IntPred(m, i)` on the values of r3, r10 and r30 (41_predication R133, R134). `m[0:1]` selects the
register and `m[2]` inverts, for `m >= 0b010`. What enables element 64 and above under r3, r10 or r30 is open
(R136); no step asks (`maskRefusal`), and the missing bit reads as 0 here, so that the inverted masks enable
it (DESIGN CHOICE: log 33). -/
def intPred (r3 r10 r30 : Word) (m : BitVec 3) (i : Nat) : Bool :=
  if m = 0b000 then true
  else if m = 0b001 then i == r3.toNat
  else
    let reg := if field m 0 2 = 0b01 then r3 else if field m 0 2 = 0b10 then r10 else r30
    if field m 2 1 = 0 then reg.getLsbD i else !reg.getLsbD i

/-- `CRPred(m, i)` (41_predication R138, R139): the bit `m[0:1]` of CR(32 + i), inverted when `m[2]` is
set. A field past CR127 is never consulted (R142, `maskRefusal`); it reads as
disabled here, inverted or not (DESIGN CHOICE: log 33). -/
def crPred (crf : CrFile) (m : BitVec 3) (i : Nat) : Bool :=
  if h : Config.predOffs + i < 128 then
    let b := crf[Config.predOffs + i].bit (field m 0 2)
    if field m 2 1 = 0 then b else !b
  else false

/-- `Pred(m, i)` for the kind of predicate MASKMODE selects (41_predication R131, R144), on the registers
of `s`. -/
def predicate (mode : MaskMode) (m : BitVec 3) (s : State) (i : Nat) : Bool :=
  match mode with
  | .int => intPred s.gpr[3] s.gpr[10] s.gpr[30] m i
  | .cr => crPred s.crf m i

/-- The mask of `vl` elements, read from `s` before the loop (41_predication R144). MASK and, in a
twin-predicated instruction, MASK_SRC are both read this way, with the one MASKMODE (R131, R143). -/
def predVector (mode : MaskMode) (m : BitVec 3) (vl : Nat) (s : State) : List Bool :=
  (List.range vl).map (predicate mode m s)

/-- A mask that reaches past its source: an r3, r10 or r30 mask with VL above 64 (41_predication R136),
a CR mask with VL above 96 (R142). -/
def maskRefusal (mode : MaskMode) (m : BitVec 3) (vl : Nat) : Option Refusal :=
  match mode with
  | .int => if 2 ≤ m.toNat ∧ 64 < vl then some .intPredicateBeyondBit63 else none
  | .cr => if 96 < vl then some .crPredicateBeyondCr127 else none

end Sys2Proof.Machine
end

