-- ==== Sys2Proof/Machine/Operands.lean ====
section
/-!
DEFINITION. Machine/Operands.lean: the EXTRA layouts, the register numbers and tags they give
(42_extra_registers), element widths (40_rm_width_subvl_mode) and reading and writing an element
(10_state R36, R37, R41).
-/

namespace Sys2Proof.Machine

/-! ## Element widths -/

/-- The four element widths (10_state R36). -/
inductive Width
  /-- 8 bits. -/
  | w8
  /-- 16 bits. -/
  | w16
  /-- 32 bits. -/
  | w32
  /-- 64 bits. -/
  | w64
  deriving DecidableEq, Repr

/-- The width in bits. -/
def Width.bits : Width → Nat
  | .w8 => 8
  | .w16 => 16
  | .w32 => 32
  | .w64 => 64

/-- Elements per 64-bit register (10_state R36: `per = 64/w`). -/
def Width.per : Width → Nat
  | .w8 => 8
  | .w16 => 4
  | .w32 => 2
  | .w64 => 1

/-- The `w`-bit value of all ones. -/
def Width.ones : Width → Word
  | .w8 => 0xFF
  | .w16 => 0xFFFF
  | .w32 => 0xFFFFFFFF
  | .w64 => 0xFFFFFFFFFFFFFFFF

/-- `v` modulo `2^w`. -/
def Width.wrap (w : Width) (v : Word) : Word := v &&& w.ones

/-- The width of an integer operand (40_rm_width_subvl_mode R113): DEFAULT is the suffix's own. -/
def intWidth (dflt : Width) (ew : BitVec 2) : Width :=
  if ew = 0 then dflt else if ew = 1 then .w32 else if ew = 2 then .w16 else .w8

/-- The width of a floating-point operand (40_rm_width_subvl_mode R115); none for the reserved bf16. -/
def fpWidth (ew : BitVec 2) : Option Width :=
  if ew = 0 then some .w64 else if ew = 1 then some .w32 else if ew = 2 then some .w16 else none

/-- The sub-vector length: SUBVL plus 1 (40_rm_width_subvl_mode R123). -/
def subvlLength (subvl : BitVec 2) : Nat := subvl.toNat + 1

/-! ## EXTRA: from a sub-field to a register number and a tag -/

/-- `SpecOf2` (42_extra_registers R165, 90 C15): a vector EXTRA2 is shifted, a scalar one zero-extended. -/
def specOf2 (e : BitVec 2) : BitVec 3 :=
  if field e 0 1 = 1 then 1#1 ++ field e 1 1 ++ 0#1 else 0#1 ++ 0#1 ++ field e 1 1

/-- `SpecOf3` (42_extra_registers R165). -/
def specOf3 (e : BitVec 3) : BitVec 3 := e

/-- `DecodeReg(field5, spec)`: register number and vector tag of a GPR or FPR operand
(42_extra_registers R165). -/
def decodeReg (f : BitVec 5) (spec : BitVec 3) : BitVec 7 × Bool :=
  if field spec 0 1 = 1 then (f ++ field spec 1 2, true) else (field spec 1 2 ++ f, false)

/-- `DecodeCRField(fld3, spec)`: CR field number and vector tag of a 3-bit CR operand
(42_extra_registers R171, R173, R174). -/
def decodeCrField (f : BitVec 3) (spec : BitVec 3) : BitVec 7 × Bool :=
  if field spec 0 1 = 1 then (f ++ field spec 1 2 ++ 0#2, true) else (0#2 ++ field spec 1 2 ++ f, false)

/-- `DecodeCRBit(BA, spec)`: CR bit number and vector tag of a 5-bit CR operand
(42_extra_registers R170, R172, R174). -/
def decodeCrBit (ba : BitVec 5) (spec : BitVec 3) : BitVec 9 × Bool :=
  ((decodeCrField (field ba 0 3) spec).1 ++ field ba 3 2, (decodeCrField (field ba 0 3) spec).2)

/-! ## The layouts of RM[10:18] -/

/-- The seven layouts (42_extra_registers R152, R180). -/
inductive Layout
  /-- `RM-1P-3S1D` (R153). -/
  | rm1P3S1D
  /-- `RM-1P-2S1D` (R155). -/
  | rm1P2S1D
  /-- `RM-2P-1S1D` (R158). -/
  | rm2P1S1D
  /-- `RM-2P-2S` (R159). -/
  | rm2P2S
  /-- `RM-2P-2S1D` (R160). -/
  | rm2P2S1D
  /-- `RM-2P-1S2D` (R161). -/
  | rm2P1S2D
  /-- `RM-2P-3S` (R162). -/
  | rm2P3S
  deriving DecidableEq, Repr

/-- The names of a layout's sub-fields. -/
inductive Slot
  /-- Rdest. -/
  | rdest
  /-- Rdest1. -/
  | rdest1
  /-- Rdest2. -/
  | rdest2
  /-- Rsrc. -/
  | rsrc
  /-- Rsrc1. -/
  | rsrc1
  /-- Rsrc2. -/
  | rsrc2
  /-- Rsrc3. -/
  | rsrc3
  deriving DecidableEq, Repr

/-- The sub-fields of a layout in the order of their bits from `RM[10]` (42_extra_registers R180). -/
def Layout.slots : Layout → List Slot
  | .rm1P3S1D => [.rdest, .rsrc1, .rsrc2, .rsrc3]
  | .rm1P2S1D => [.rdest, .rsrc1, .rsrc2]
  | .rm2P1S1D => [.rdest, .rsrc1]
  | .rm2P2S => [.rsrc1, .rsrc2]
  | .rm2P2S1D => [.rdest, .rsrc1, .rsrc2]
  | .rm2P1S2D => [.rsrc, .rdest1, .rdest2]
  | .rm2P3S => [.rsrc1, .rsrc2, .rsrc3]

/-- The sub-fields are 3-bit EXTRA3 ones; in the other layouts they are 2-bit EXTRA2 ones
(42_extra_registers R180). -/
def Layout.isExtra3 : Layout → Bool
  | .rm1P2S1D | .rm2P1S1D | .rm2P2S => true
  | .rm1P3S1D | .rm2P2S1D | .rm2P1S2D | .rm2P3S => false

/-- The layout is twin-predicated: `RM[16:18]` is MASK_SRC (41_predication R130). -/
def Layout.isTwin : Layout → Bool
  | .rm1P3S1D | .rm1P2S1D => false
  | .rm2P1S1D | .rm2P2S | .rm2P2S1D | .rm2P1S2D | .rm2P3S => true

/-- The `spec` of the sub-field at position `k` of the layout, counted from `RM[10]`
(42_extra_registers R165, R180). `extra` is `RM[10:18]`. -/
def Layout.specAt (l : Layout) (extra : BitVec 9) (k : Nat) : BitVec 3 :=
  if l.isExtra3 then specOf3 (field extra (3 * k) 3) else specOf2 (field extra (2 * k) 2)

/-- The sub-field at position `k`, as a number. -/
def Layout.subfield (l : Layout) (extra : BitVec 9) (k : Nat) : Nat :=
  if l.isExtra3 then (field extra (3 * k) 3).toNat else (field extra (2 * k) 2).toNat

/-- The `spec` of a named sub-field. -/
def Layout.spec (l : Layout) (extra : BitVec 9) (slot : Slot) : BitVec 3 :=
  l.specAt extra (l.slots.idxOf slot)

/-- MASK_SRC, `RM[16:18]`, where the layout has it (41_predication R130). -/
def Layout.maskSrc (l : Layout) (extra : BitVec 9) : Option (BitVec 3) :=
  if l.isTwin then some (field extra 6 3) else none

/-- EXTRA2_MODE, `RM[18]`, where the layout has it (42_extra_registers R153, R154). -/
def Layout.extra2Mode (l : Layout) (extra : BitVec 9) : Option (BitVec 1) :=
  match l with
  | .rm1P3S1D => some (field extra 8 1)
  | .rm1P2S1D | .rm2P1S1D | .rm2P2S | .rm2P2S1D | .rm2P1S2D | .rm2P3S => none

/-! ## Operands -/

/-- Destination or source (43_vector_loop R207). -/
inductive Role
  /-- Written. -/
  | dest
  /-- Read. -/
  | src
  deriving DecidableEq, Repr

/-- The register file of an operand and its field in the suffix word (43_vector_loop R207). -/
inductive OperandField
  /-- A GPR, 5 bits. -/
  | gpr (f : BitVec 5)
  /-- An FPR, 5 bits. -/
  | fpr (f : BitVec 5)
  /-- A CR field, 3 bits. -/
  | crField (f : BitVec 3)
  /-- A CR bit, 5 bits. -/
  | crBit (f : BitVec 5)
  deriving DecidableEq, Repr

/-- The operand is in the FPR file. -/
def OperandField.isFpr : OperandField → Bool
  | .fpr _ => true
  | .gpr _ | .crField _ | .crBit _ => false

/-- The operand is a CR field or a CR bit. -/
def OperandField.isCr : OperandField → Bool
  | .crField _ | .crBit _ => true
  | .gpr _ | .fpr _ => false

/-- One register operand of a suffix: its role, its slot in the layout, its file and field. -/
structure Operand where
  /-- Destination or source. -/
  role : Role
  /-- The sub-field of EXTRA that extends it. -/
  slot : Slot
  /-- Its file and its field in the suffix word. -/
  field : OperandField
  deriving DecidableEq, Repr

/-- A register an operand names after EXTRA has extended it. -/
inductive Place
  /-- `GPR[n]`. -/
  | gpr (n : BitVec 7)
  /-- `FPR[n]`. -/
  | fpr (n : BitVec 7)
  /-- CR field `n`. -/
  | crField (n : BitVec 7)
  /-- CR bit `n`: bit `n mod 4` of CR field `n div 4`. -/
  | crBit (n : BitVec 9)
  deriving DecidableEq, Repr

/-- An operand as the element loop uses it: its register and its tag (43_vector_loop R199). -/
structure Loc where
  /-- The register, the starting point if the operand is a vector. -/
  place : Place
  /-- Tagged vector. -/
  isVec : Bool
  deriving DecidableEq, Repr

/-- The register and tag of an operand whose sub-field gives `spec`. -/
def OperandField.loc (f : OperandField) (spec : BitVec 3) : Loc :=
  match f with
  | .gpr r => ⟨.gpr (decodeReg r spec).1, (decodeReg r spec).2⟩
  | .fpr r => ⟨.fpr (decodeReg r spec).1, (decodeReg r spec).2⟩
  | .crField r => ⟨.crField (decodeCrField r spec).1, (decodeCrField r spec).2⟩
  | .crBit r => ⟨.crBit (decodeCrBit r spec).1, (decodeCrBit r spec).2⟩

/-- The element width of an operand under an ELWIDTH or ELWIDTH_SRC value, by its file: an FPR by
40_rm_width_subvl_mode R115, whatever the suffix's own width; a GPR by R113; of a CR operand no width is used
(R120). The reserved bf16 has none and traps before (R116): 64 bits stand for it (log 34). -/
def Loc.width (l : Loc) (dflt : Width) (ew : BitVec 2) : Width :=
  match l.place with
  | .fpr _ => (fpWidth ew).getD .w64
  | .gpr _ | .crField _ | .crBit _ => intWidth dflt ew

/-- The width of an element operation's results: that of its first destination (43_vector_loop R199: all have
one width `wd`). -/
def resultWidth (dsts : List Loc) (dflt : Width) (ew : BitVec 2) : Width :=
  match dsts with
  | l :: _ => l.width dflt ew
  | [] => intWidth dflt ew

/-- The element an operand uses at iteration `i`: `i` if it is a vector, 0 if it is a scalar
(43_vector_loop R199, R201; log 16). -/
def Loc.index (l : Loc) (i : Nat) : Nat := if l.isVec then i else 0

/-- The CR field that a CR operand touches at iteration `i` (10_state R41, 42_extra_registers R178;
log 31). -/
def Loc.crIndex (l : Loc) (i : Nat) : Option Nat :=
  match l.place with
  | .gpr _ | .fpr _ => none
  | .crField n => some (n.toNat + l.index i)
  | .crBit n => some (n.toNat / 4 + l.index i)

/-! ## Elements of the register files -/

/-- Element `k` of width `w` inside one register: bits `lsb0[w*k+w-1 : w*k]` (10_state R36). -/
def extractElem (r : Word) (k : Nat) (w : Width) : Word := w.wrap (r >>> (w.bits * k))

/-- The register with element `k` of width `w` replaced by the low `w` bits of `v`, its other bits as they
were (10_state R37). -/
def insertElem (r : Word) (k : Nat) (w : Width) (v : Word) : Word :=
  (r &&& ~~~(w.ones <<< (w.bits * k))) ||| (w.wrap v <<< (w.bits * k))

/-- `Elem(F, g, e, w)` (10_state R36): the element is in register `g + e div per`, at position
`e mod per`. None past the end of the file (R40). -/
def elemGet (f : RegFile) (g e : Nat) (w : Width) : Option Word :=
  if h : g + e / w.per < 128 then some (extractElem f[g + e / w.per] (e % w.per) w) else none

/-- `Elem(F, g, e, w) <- v` (10_state R37). None past the end of the file (R40). -/
def elemSet (f : RegFile) (g e : Nat) (w : Width) (v : Word) : Option RegFile :=
  if h : g + e / w.per < 128 then
    some (f.set (g + e / w.per) (insertElem f[g + e / w.per] (e % w.per) w v))
  else none

/-- Read the element of an operand at iteration `i`: of a GPR or FPR by `elemGet`, of a CR operand the
whole field or the one bit (43_vector_loop R199). None past the end of the file. -/
def State.readLoc (s : State) (l : Loc) (w : Width) (i : Nat) : Option Word :=
  match l.place with
  | .gpr n => elemGet s.gpr n.toNat (l.index i) w
  | .fpr n => elemGet s.fpr n.toNat (l.index i) w
  | .crField n => (s.crf[n.toNat + l.index i]?).map CrField.toWord
  | .crBit n =>
    (s.crf[n.toNat / 4 + l.index i]?).map fun f =>
      (BitVec.ofBool (f.bit (field n 7 2))).setWidth 64

/-- Write the element of an operand at iteration `i`. None past the end of the file. -/
def State.writeLoc (s : State) (l : Loc) (w : Width) (i : Nat) (v : Word) : Option State :=
  match l.place with
  | .gpr n => (elemSet s.gpr n.toNat (l.index i) w v).map s.setGpr
  | .fpr n => (elemSet s.fpr n.toNat (l.index i) w v).map s.setFpr
  | .crField n =>
    if h : n.toNat + l.index i < 128 then
      some (s.setCrf (s.crf.set (n.toNat + l.index i) (CrField.ofWord v)))
    else none
  | .crBit n =>
    if h : n.toNat / 4 + l.index i < 128 then
      some (s.setCrf (s.crf.set (n.toNat / 4 + l.index i)
        (s.crf[n.toNat / 4 + l.index i].setBit (field n 7 2) (v.getLsbD 0))))
    else none

/-- Read the sources of one element operation, in order, each at the width `ew` gives it (43_vector_loop R199).
`d` is the suffix's own width. -/
def State.readLocs (s : State) (ls : List Loc) (d : Width) (ew : BitVec 2) (i : Nat) : Option (List Word) :=
  match ls with
  | [] => some []
  | l :: rest =>
    match s.readLoc l (l.width d ew) i, s.readLocs rest d ew i with
    | some v, some vs => some (v :: vs)
    | _, _ => none

/-- Write the destinations of one element operation, in order, each at the width `ew` gives it. A destination
without a result is not written (log 34). -/
def State.writeLocs (s : State) (ls : List Loc) (d : Width) (ew : BitVec 2) (i : Nat) (vs : List Word) :
    Option State :=
  match ls, vs with
  | l :: rest, v :: vs' =>
    match s.writeLoc l (l.width d ew) i v with
    | some s' => s'.writeLocs rest d ew i vs'
    | none => none
  | _, _ => some s

end Sys2Proof.Machine
end

