-- ==== Sys2Proof/Machine/SuffixTable.lean ====
section
/-!
DEFINITION. Machine/SuffixTable.lean: `SuffixTable` (43_vector_loop R207): from a suffix word to its
description. Its one row with an element operation is `add` (92 D5). The other rows are the instructions
the source names and the families it names with them (42_extra_registers R164, 43_vector_loop R205, R212):
loads and stores (R214), branches (R213), floating-point arithmetic (60_exceptions R225), and the CR-only
instructions (40_rm_width_subvl_mode R120). The spec says that the model refuses or traps them, but not their
encodings, which are PRESUMED from the Power ISA (log 10, log 25). Any other instruction of BASE is in no row and is refused (`isBaseWord`, log 11).
-/

namespace Sys2Proof.Machine

/-- Element operations (43_vector_loop R207): the spec instantiates one. -/
inductive ElementOp
  /-- `op(a, b) = (a + b) mod 2^w`. -/
  | add
  deriving DecidableEq, Repr

/-- The results of an element operation on source element values at width `w` (43_vector_loop R207, R211:
no carry out, no saturation). An operation given another number of sources than its own has no result;
no row of the table does so (log 34). -/
def ElementOp.eval (op : ElementOp) (w : Width) (vs : List Word) : List Word :=
  match op, vs with
  | .add, [a, b] => [w.wrap (a + b)]
  | .add, _ => []

/-- The description of a Vectoriseable suffix word (43_vector_loop R207). -/
structure Suffix where
  /-- Its layout of `RM[10:18]`, where the source gives it (42_extra_registers R164). -/
  layout : Option Layout
  /-- Its register operands. -/
  operands : List Operand
  /-- `default_width`. -/
  defaultWidth : Width
  /-- `fp_single`: an FP mnemonic that ends in "s". -/
  fpSingle : Bool
  /-- The word's Rc bit, false if it has none. -/
  rc : Bool
  /-- The word's OE bit, false if it has none. -/
  oe : Bool
  /-- It uses EXTRA2_MODE, as `divmod2du` and `maddedu` would, which have no row (42_extra_registers R154,
  R179). -/
  extra2Mode : Bool
  /-- Its element operation, where the spec instantiates it. -/
  op : Option ElementOp
  deriving DecidableEq, Repr

/-- What SuffixTable holds for a suffix word. -/
inductive SuffixEntry
  /-- UnVectoriseable (43_vector_loop R205). -/
  | unVectoriseable
  /-- Vectoriseable, with its description. -/
  | vectoriseable (d : Suffix)
  deriving DecidableEq, Repr

/-! ## Families of instructions -/

/-- The file of the register a load or store moves. -/
inductive DataFile
  /-- A GPR. -/
  | gpr
  /-- An FPR. -/
  | fpr
  deriving DecidableEq, Repr

/-- The operand in that file. -/
def DataFile.operand : DataFile → BitVec 5 → OperandField
  | .gpr, f => .gpr f
  | .fpr, f => .fpr f

/-- The scalar instructions the source names, and the families it names with them
(42_extra_registers R164, 43_vector_loop R205, R213, R214, 60_exceptions R225), and the instructions whose
operands are all CR fields or CR bits (40_rm_width_subvl_mode R120). -/
inductive SuffixName
  /-- `add`. -/
  | add
  /-- `fmadd`. -/
  | fmadd
  /-- `isel`. -/
  | isel
  /-- `madd`, read as the Power ISA's `maddhd`, `maddhdu` and `maddld` (log 10). -/
  | madd
  /-- `rlwimi`. -/
  | rlwimi
  /-- `stw` "etc.": stores with an immediate offset. -/
  | store (f : DataFile) (w : Width)
  /-- `stdx` "etc.": indexed stores. -/
  | storeIndexed (f : DataFile) (w : Width)
  /-- Loads, indexed. -/
  | loadIndexed (f : DataFile) (w : Width)
  /-- Loads with update. -/
  | loadUpdate (f : DataFile) (w : Width)
  /-- Stores with update. -/
  | storeUpdate (f : DataFile) (w : Width)
  /-- `lhaux`: loads with update, indexed. -/
  | loadUpdateIndexed (f : DataFile) (w : Width)
  /-- Loads whose layout the source does not give. -/
  | load (f : DataFile)
  /-- Stores whose layout the source does not give. -/
  | storeOther (f : DataFile)
  /-- Floating-point arithmetic, its mnemonic ending in "s" or not (R118); `fadds` is one. -/
  | fpArith (single : Bool)
  /-- Floating-point comparisons and tests, which write a CR field. -/
  | fpTest
  /-- Branches without a register operand. -/
  | branch
  /-- Conditional branches, which read the CR bit BI. -/
  | branchConditional
  /-- CR logical instructions: CR bits BT, BA, BB. -/
  | crLogical
  /-- `mcrf`: CR fields BF, BFA. -/
  | mcrf
  /-- `mcrxrx`: CR field BF. -/
  | mcrxrx
  /-- `sc`, `sync`, `mtmsr`. -/
  | unVectoriseable
  deriving DecidableEq, Repr

/-- The description of `add RT,RA,RB` (43_vector_loop R207, 42_extra_registers R155). -/
def addSuffix (rt ra rb : BitVec 5) (oe rc : Bool) : Suffix where
  layout := some .rm1P2S1D
  operands := [⟨.dest, .rdest, .gpr rt⟩, ⟨.src, .rsrc1, .gpr ra⟩, ⟨.src, .rsrc2, .gpr rb⟩]
  defaultWidth := .w64
  fpSingle := false
  rc := rc
  oe := oe
  extra2Mode := false
  op := some .add

/-- A suffix that the spec gives no element operation (43_vector_loop R212). -/
def namedSuffix (layout : Option Layout) (operands : List Operand) (w : Width) (rc : Bool) : Suffix where
  layout := layout
  operands := operands
  defaultWidth := w
  fpSingle := false
  rc := rc
  oe := false
  extra2Mode := false
  op := none

/-- The description of a suffix word that is the named instruction. Layouts are those of
42_extra_registers R164, none where it gives none. Which source operand takes which Rsrc sub-field is open
(91 N8) except for `add`, `rlwimi` and `lhaux`; the model takes the sources in the order of their fields
in the word, and the sub-fields of a load or store in the order its family's other forms suggest
(PRESUMED, log 25). -/
def SuffixName.description (name : SuffixName) (w : IWord) : Suffix :=
  let rc := field w 31 1 == 1
  let t : BitVec 5 := field w 6 5
  let a : BitVec 5 := field w 11 5
  let b : BitVec 5 := field w 16 5
  let c : BitVec 5 := field w 21 5
  match name with
  | .add => addSuffix t a b (field w 21 1 == 1) rc
  | .fmadd =>
    namedSuffix (some .rm1P3S1D)
      [⟨.dest, .rdest, .fpr t⟩, ⟨.src, .rsrc1, .fpr a⟩, ⟨.src, .rsrc2, .fpr b⟩, ⟨.src, .rsrc3, .fpr c⟩]
      .w64 rc
  | .isel =>
    namedSuffix (some .rm1P3S1D)
      [⟨.dest, .rdest, .gpr t⟩, ⟨.src, .rsrc1, .gpr a⟩, ⟨.src, .rsrc2, .gpr b⟩, ⟨.src, .rsrc3, .crBit c⟩]
      .w64 false
  | .madd =>
    namedSuffix (some .rm1P3S1D)
      [⟨.dest, .rdest, .gpr t⟩, ⟨.src, .rsrc1, .gpr a⟩, ⟨.src, .rsrc2, .gpr b⟩, ⟨.src, .rsrc3, .gpr c⟩]
      .w64 false
  | .rlwimi =>
    namedSuffix (some .rm1P2S1D)
      [⟨.dest, .rdest, .gpr a⟩, ⟨.src, .rsrc1, .gpr t⟩, ⟨.src, .rsrc2, .gpr a⟩] .w32 rc
  | .store f wd =>
    namedSuffix (some .rm2P2S) [⟨.src, .rsrc1, f.operand t⟩, ⟨.src, .rsrc2, .gpr a⟩] wd false
  | .storeIndexed f wd =>
    namedSuffix (some .rm2P3S)
      [⟨.src, .rsrc1, f.operand t⟩, ⟨.src, .rsrc2, .gpr a⟩, ⟨.src, .rsrc3, .gpr b⟩] wd false
  | .loadIndexed f wd =>
    namedSuffix (some .rm2P2S1D)
      [⟨.dest, .rdest, f.operand t⟩, ⟨.src, .rsrc1, .gpr a⟩, ⟨.src, .rsrc2, .gpr b⟩] wd false
  | .loadUpdate f wd =>
    namedSuffix (some .rm2P1S2D)
      [⟨.src, .rsrc, .gpr a⟩, ⟨.dest, .rdest1, f.operand t⟩, ⟨.dest, .rdest2, .gpr a⟩] wd false
  | .storeUpdate f wd =>
    namedSuffix (some .rm2P1S2D)
      [⟨.src, .rsrc, f.operand t⟩, ⟨.src, .rdest1, .gpr a⟩, ⟨.dest, .rdest2, .gpr a⟩] wd false
  | .loadUpdateIndexed f wd =>
    namedSuffix (some .rm2P2S1D)
      [⟨.dest, .rdest, f.operand t⟩, ⟨.src, .rsrc1, .gpr a⟩, ⟨.src, .rsrc2, .gpr b⟩,
        ⟨.dest, .rsrc1, .gpr a⟩] wd false
  | .load f => namedSuffix none [⟨.dest, .rdest, f.operand t⟩, ⟨.src, .rsrc1, .gpr a⟩] .w64 false
  | .storeOther f => namedSuffix none [⟨.src, .rsrc1, f.operand t⟩, ⟨.src, .rsrc2, .gpr a⟩] .w64 false
  | .fpArith single =>
    { namedSuffix none [⟨.dest, .rdest, .fpr t⟩, ⟨.src, .rsrc1, .fpr b⟩] .w64 rc with fpSingle := single }
  | .fpTest =>
    namedSuffix none [⟨.dest, .rdest, .crField (field w 6 3)⟩, ⟨.src, .rsrc1, .fpr b⟩] .w64 false
  | .branch => namedSuffix none [] .w64 false
  | .branchConditional => namedSuffix none [⟨.src, .rsrc1, .crBit a⟩] .w64 false
  | .crLogical =>
    namedSuffix none [⟨.dest, .rdest, .crBit t⟩, ⟨.src, .rsrc1, .crBit a⟩, ⟨.src, .rsrc2, .crBit b⟩] .w64 false
  | .mcrf =>
    namedSuffix none [⟨.dest, .rdest, .crField (field w 6 3)⟩, ⟨.src, .rsrc1, .crField (field w 11 3)⟩] .w64
      false
  | .mcrxrx => namedSuffix none [⟨.dest, .rdest, .crField (field w 6 3)⟩] .w64 false
  | .unVectoriseable => namedSuffix none [] .w64 false

/-- The entry of a suffix word that is the named instruction. The source fixes as UnVectoriseable three entries
alone (43_vector_loop R205); that every other instruction with a row is Vectoriseable is the model's choice
(DESIGN CHOICE: log 40). -/
def SuffixName.entry (name : SuffixName) (w : IWord) : SuffixEntry :=
  match name with
  | .unVectoriseable => .unVectoriseable
  | .add | .fmadd | .isel | .madd | .rlwimi | .store _ _ | .storeIndexed _ _
  | .loadIndexed _ _ | .loadUpdate _ _ | .storeUpdate _ _ | .loadUpdateIndexed _ _ | .load _
  | .storeOther _ | .fpArith _ | .fpTest | .branch | .branchConditional
  | .crLogical | .mcrf | .mcrxrx => .vectoriseable (name.description w)

/-! ## The rows -/

/-- One row: a word `w` is the instruction when `w & mask = pattern`. -/
structure SuffixRow where
  /-- The bits that are fixed. -/
  mask : IWord
  /-- Their value. -/
  pattern : IWord
  /-- The instruction. -/
  name : SuffixName
  deriving DecidableEq, Repr

/-- A row by primary opcode alone. -/
def dRow (po : BitVec 6) (name : SuffixName) : SuffixRow := ⟨0xFC000000, po ++ 0#26, name⟩

/-- A row by primary opcode and bits 30:31. -/
def dsRow (po : BitVec 6) (xo : BitVec 2) (name : SuffixName) : SuffixRow :=
  ⟨0xFC000003, po ++ 0#24 ++ xo, name⟩

/-- A row by primary opcode and bits 21:30. -/
def xRow (po : BitVec 6) (xo : BitVec 10) (name : SuffixName) : SuffixRow :=
  ⟨0xFC0007FE, po ++ 0#15 ++ xo ++ 0#1, name⟩

/-- A row by primary opcode and bits 26:30. -/
def aRow (po : BitVec 6) (xo : BitVec 5) (name : SuffixName) : SuffixRow :=
  ⟨0xFC00003E, po ++ 0#20 ++ xo ++ 0#1, name⟩

/-- A row by primary opcode 4 and bits 26:31. -/
def vaRow (xo : BitVec 6) (name : SuffixName) : SuffixRow := ⟨0xFC00003F, 4#6 ++ 0#20 ++ xo, name⟩

/-- `add`, by 43_vector_loop R207. -/
def addRow : SuffixRow := ⟨0xFC0003FE, 0x7C000214, .add⟩

/-- The other instructions the source names, but for loads and stores: `fmadd`, `isel`, `maddhd`, `maddhdu`,
`maddld`, `rlwimi`, `sc`, `sync`, `mtmsr`. PRESUMED (log 10). The DRAFT `maddedu` and `divmod2du` have no row
(42_extra_registers R154, 92 D23): `isDraftWord`. -/
def namedRows : List SuffixRow := [
  aRow 63 29 .fmadd, aRow 31 15 .isel, vaRow 48 .madd, vaRow 49 .madd, vaRow 51 .madd,
  dRow 20 .rlwimi, ⟨0xFC000002, 0x44000002, .unVectoriseable⟩,
  xRow 31 598 .unVectoriseable, xRow 31 146 .unVectoriseable]

/-- Branches: `bc`, `b`, `bclr`, `bcctr`, `bctar`. PRESUMED (log 10). -/
def branchRows : List SuffixRow :=
  [dRow 16 .branchConditional, dRow 18 .branch, xRow 19 16 .branchConditional,
    xRow 19 528 .branchConditional, xRow 19 560 .branchConditional]

/-- The CR-only instructions, but for conditional branches (40_rm_width_subvl_mode R120): `mcrf`, `crnor`,
`crandc`, `crxor`, `crnand`, `crand`, `creqv`, `crorc`, `cror`, `mcrxrx`. PRESUMED (log 10). -/
def crRows : List SuffixRow :=
  xRow 19 0 .mcrf :: xRow 31 576 .mcrxrx ::
    [(33 : BitVec 10), 129, 193, 225, 257, 289, 417, 449].map (xRow 19 · .crLogical)

/-- Loads and stores with an immediate offset: `lwz` to `stmw`, `lfs` to `stfdu`, `lq`, `ld`, `ldu`, `lwa`,
`std`, `stdu`, `stq`. PRESUMED (log 10). -/
def immediateRows : List SuffixRow := [
  dRow 32 (.load .gpr), dRow 33 (.loadUpdate .gpr .w32), dRow 34 (.load .gpr),
  dRow 35 (.loadUpdate .gpr .w8), dRow 36 (.store .gpr .w32), dRow 37 (.storeUpdate .gpr .w32),
  dRow 38 (.store .gpr .w8), dRow 39 (.storeUpdate .gpr .w8), dRow 40 (.load .gpr),
  dRow 41 (.loadUpdate .gpr .w16), dRow 42 (.load .gpr), dRow 43 (.loadUpdate .gpr .w16),
  dRow 44 (.store .gpr .w16), dRow 45 (.storeUpdate .gpr .w16), dRow 46 (.load .gpr),
  dRow 47 (.storeOther .gpr), dRow 48 (.load .fpr), dRow 49 (.loadUpdate .fpr .w32),
  dRow 50 (.load .fpr), dRow 51 (.loadUpdate .fpr .w64), dRow 52 (.store .fpr .w32),
  dRow 53 (.storeUpdate .fpr .w32), dRow 54 (.store .fpr .w64), dRow 55 (.storeUpdate .fpr .w64),
  dRow 56 (.load .gpr), dsRow 58 0 (.load .gpr), dsRow 58 1 (.loadUpdate .gpr .w64),
  dsRow 58 2 (.load .gpr), dsRow 62 0 (.store .gpr .w64), dsRow 62 1 (.storeUpdate .gpr .w64),
  dsRow 62 2 (.storeOther .gpr)]

/-- Indexed loads: `lbzx`, `lhzx`, `lhax`, `lwzx`, `lwax`, `ldx`, `lhbrx`, `lwbrx`, `ldbrx`, `lfsx`, `lfdx`,
`lfiwax`, `lfiwzx`, and, with update, `lbzux`, `lhzux`, `lhaux`, `lwzux`, `lwaux`, `ldux`, `lfsux`,
`lfdux`. PRESUMED (log 10). -/
def indexedLoadRows : List SuffixRow := [
  xRow 31 87 (.loadIndexed .gpr .w8), xRow 31 279 (.loadIndexed .gpr .w16),
  xRow 31 343 (.loadIndexed .gpr .w16), xRow 31 23 (.loadIndexed .gpr .w32),
  xRow 31 341 (.loadIndexed .gpr .w32), xRow 31 21 (.loadIndexed .gpr .w64),
  xRow 31 790 (.loadIndexed .gpr .w16), xRow 31 534 (.loadIndexed .gpr .w32),
  xRow 31 532 (.loadIndexed .gpr .w64), xRow 31 535 (.loadIndexed .fpr .w32),
  xRow 31 599 (.loadIndexed .fpr .w64), xRow 31 855 (.loadIndexed .fpr .w32),
  xRow 31 887 (.loadIndexed .fpr .w32), xRow 31 119 (.loadUpdateIndexed .gpr .w8),
  xRow 31 311 (.loadUpdateIndexed .gpr .w16), xRow 31 375 (.loadUpdateIndexed .gpr .w16),
  xRow 31 55 (.loadUpdateIndexed .gpr .w32), xRow 31 373 (.loadUpdateIndexed .gpr .w32),
  xRow 31 53 (.loadUpdateIndexed .gpr .w64), xRow 31 567 (.loadUpdateIndexed .fpr .w32),
  xRow 31 631 (.loadUpdateIndexed .fpr .w64)]

/-- Indexed stores: `stbx`, `sthx`, `stwx`, `stdx`, `sthbrx`, `stwbrx`, `stdbrx`, `stfsx`, `stfdx`, `stfiwx`,
and, with update, `stbux`, `sthux`, `stwux`, `stdux`, `stfsux`, `stfdux`; the string loads and stores
`lswi`, `lswx`, `stswi`, `stswx`. PRESUMED (log 10). -/
def indexedStoreRows : List SuffixRow := [
  xRow 31 215 (.storeIndexed .gpr .w8), xRow 31 407 (.storeIndexed .gpr .w16),
  xRow 31 151 (.storeIndexed .gpr .w32), xRow 31 149 (.storeIndexed .gpr .w64),
  xRow 31 918 (.storeIndexed .gpr .w16), xRow 31 662 (.storeIndexed .gpr .w32),
  xRow 31 660 (.storeIndexed .gpr .w64), xRow 31 663 (.storeIndexed .fpr .w32),
  xRow 31 727 (.storeIndexed .fpr .w64), xRow 31 983 (.storeIndexed .fpr .w32),
  xRow 31 247 (.storeOther .gpr), xRow 31 439 (.storeOther .gpr), xRow 31 183 (.storeOther .gpr),
  xRow 31 181 (.storeOther .gpr), xRow 31 695 (.storeOther .fpr), xRow 31 759 (.storeOther .fpr),
  xRow 31 597 (.load .gpr), xRow 31 533 (.load .gpr), xRow 31 725 (.storeOther .gpr),
  xRow 31 661 (.storeOther .gpr)]

/-- Loads and stores of FPR pairs: `lfdp`, `lfdpx`, `stfdp`, `stfdpx`. PRESUMED (log 10). -/
def pairRows : List SuffixRow := [
  dsRow 57 0 (.load .fpr), xRow 31 791 (.load .fpr), dsRow 61 0 (.storeOther .fpr),
  xRow 31 919 (.storeOther .fpr)]

/-- Floating-point forms with a mnemonic in "s", whose `fp_single` holds (43_vector_loop R207): `fdivs`, `fsubs`, `fadds`, `fsqrts`, `fres`, `fmuls`,
`frsqrtes`, `fmsubs`, `fmadds`, `fnmsubs`, `fnmadds`, `fcfids`, `fcfidus`, and also `fnabs` and `fabs`.
PRESUMED (log 10). -/
def fpSingleRows : List SuffixRow :=
  [(18 : BitVec 5), 20, 21, 22, 24, 25, 26, 28, 29, 30, 31].map (aRow 59 · (.fpArith true)) ++
    [(846 : BitVec 10), 974].map (xRow 59 · (.fpArith true)) ++
    [(136 : BitVec 10), 264].map (xRow 63 · (.fpArith true))

/-- The other floating-point arithmetic: `fdiv`, `fsub`, `fadd`, `fsqrt`, `fsel`, `fre`, `fmul`, `frsqrte`,
`fmsub`, `fnmsub`, `fnmadd`; `fcpsgn`, `fneg`, `fmr`, `frin`, `friz`, `frip`, `frim`, `frsp`, `fmrgew`, `fmrgow`, the
conversions; and the tests `fcmpu`, `fcmpo`, `ftdiv`, `ftsqrt`. PRESUMED (log 10). -/
def fpDoubleRows : List SuffixRow :=
  [(18 : BitVec 5), 20, 21, 22, 23, 24, 25, 26, 28, 30, 31].map (aRow 63 · (.fpArith false)) ++
    [(8 : BitVec 10), 40, 72, 392, 424, 456, 488, 12, 14, 15, 142, 143, 814, 815, 942, 943, 846,
      974, 838, 966].map (xRow 63 · (.fpArith false)) ++
    [(0 : BitVec 10), 32, 128, 160].map (xRow 63 · .fpTest)

/-- All the rows. Load-reserve, store-conditional, atomic and cache instructions have none (20_memory R69,
R71). -/
def suffixRows : List SuffixRow :=
  addRow :: (namedRows ++ branchRows ++ crRows ++ immediateRows ++ indexedLoadRows ++
    indexedStoreRows ++ pairRows ++ fpSingleRows ++ fpDoubleRows)

/-- `SuffixTable(w1)` (43_vector_loop R207): none for a word no row matches. -/
def suffixTable (w1 : IWord) : Option SuffixEntry :=
  (suffixRows.find? fun r => w1 &&& r.mask == r.pattern).map fun r => r.name.entry w1

/-- The word is `maddedu` or `divmod2du` (DRAFT), which the model refuses without a row for them
(43_vector_loop R212, 93 U11). Their encodings are UNVERIFIED (log 10). -/
def isDraftWord (w : IWord) : Bool := w &&& 0xFC00003F == 0x10000032 || w &&& 0xFC00003F == 0x1000003A

/-- A word in no row is an instruction of BASE all the same: what 43_vector_loop R212 says "needs BASE's opcode
map". The word of zeros is none (95_test_vectors section 7), the draft ones that R212 names are, and of any
other word BASE decides (log 11). -/
def isBaseWord (w : IWord) : Bool := w != 0 && (isDraftWord w || Config.baseHas w)

end Sys2Proof.Machine
end

