-- ==== Sys2Proof/Machine/Svp64.lean ====
section
/-!
DEFINITION. Machine/Svp64.lean: the prefixed instruction (43_vector_loop): the trap checks, the refusals, the
element loop and the step of R191, and the meanings of the rows `sv.<suffix>` and `sv.add`.
-/

namespace Sys2Proof.Machine

/-! ## Step 5: reserved values, which trap -/

/-- An FP operand with ELWIDTH = 0b11, or an FP source with ELWIDTH_SRC = 0b11 (43_vector_loop R192,
40_rm_width_subvl_mode R116). -/
def Suffix.reservedFpWidth (d : Suffix) (rm : Rm) : Bool :=
  d.operands.any fun o =>
    o.field.isFpr &&
      ((fpWidth rm.elwidth).isNone || (o.role == .src && (fpWidth rm.elwidthSrc).isNone))

/-- An FP suffix ending in "s" with ELWIDTH f16 or bf16 (40_rm_width_subvl_mode R118; log 21). -/
def Suffix.reservedFpSingle (d : Suffix) (rm : Rm) : Bool :=
  d.fpSingle && (rm.elwidth == 2 || rm.elwidth == 3)

/-- A sub-field of EXTRA with no operand that is not zero, or EXTRA2_MODE set on a suffix that does not use
it (42_extra_registers R179). Of a suffix whose layout no source gives nothing can be said (log 25). -/
def Suffix.reservedExtra (d : Suffix) (rm : Rm) : Bool :=
  d.layout.any fun l =>
    (List.range l.slots.length).any (fun k =>
        l.subfield rm.extra k != 0 && !d.operands.any (fun o => l.slots[k]? == some o.slot)) ||
      (l.extra2Mode rm.extra == some 1 && !d.extra2Mode)

/-- The checks of 43_vector_loop R192. They read the words of the instruction alone. -/
def Suffix.reserved (d : Suffix) (rm : Rm) : Bool :=
  d.reservedFpWidth rm || d.reservedFpSingle rm || d.reservedExtra rm

/-! ## Step 6: what the model does not execute -/

/-- The operands of the suffix are all CR fields or CR bits (40_rm_width_subvl_mode R120). -/
def Suffix.crOnly (d : Suffix) : Bool := !d.operands.isEmpty && d.operands.all fun o => o.field.isCr

/-- The refusals of step 6 (43_vector_loop R202, R207; 20_memory R63), in the order of their table, the
placement of the instruction first (log 12). The check of a CR-only suffix stands before the comparison of
the element widths, since there `RM[4:7]` are no widths (40_rm_width_subvl_mode R120). -/
def Suffix.refusal (d : Suffix) (rm : Rm) (pc : Word) : Option Refusal :=
  if pc.toNat % 64 = 60 then some .crosses64
  else if rm.mode ≠ 0 then some .mode
  else if rm.subvl ≠ 0 then some .subvl
  else if d.crOnly ∧ (rm.elwidth ≠ 0 ∨ rm.elwidthSrc ≠ 0) then
    some .crOpElwidthBits
  else if rm.elwidth ≠ rm.elwidthSrc then some .mixedElwidth
  else if d.operands.any (fun o => o.field.isFpr) ∧ rm.elwidth ≠ 0 then some .fpElwidth
  else if d.layout.any Layout.isTwin then some .twinPredication
  else if d.rc then some .rc1
  else if d.oe then some .oe1
  else if d.op = none then some .suffixNotInstantiated
  else none

/-! ## The element loop -/

/-- The registers and tags of the operands of one role (43_vector_loop R199). A suffix without a layout has
no element operation and never comes here. -/
def Suffix.locs (d : Suffix) (rm : Rm) (role : Role) : List Loc :=
  match d.layout with
  | some l => (d.operands.filter fun o => o.role == role).map fun o => o.field.loc (l.spec rm.extra o.slot)
  | none => []

/-- One element operation (43_vector_loop R199): read every source at iteration `i`, compute, write every
destination. None past the end of a file (10_state R40). `d` is the suffix's own width, `es` is ELWIDTH_SRC and
`ed` is ELWIDTH: each operand's width follows by its file (40_rm_width_subvl_mode R112). -/
def elementOp (op : ElementOp) (srcs dsts : List Loc) (d : Width) (es ed : BitVec 2) (i : Nat) (s : State) :
    Option State :=
  match s.readLocs srcs d es i with
  | some vs => s.writeLocs dsts d ed i (op.eval (resultWidth dsts d ed) vs)
  | none => none

/-- The element loop over the mask of the elements from `i` on (43_vector_loop R199, R200, R201): a
disabled element does nothing; after the first enabled one the loop ends if no destination is a
vector. -/
def elementLoop (op : ElementOp) (srcs dsts : List Loc) (d : Width) (es ed : BitVec 2) :
    List Bool → Nat → State → Option State
  | [], _, s => some s
  | true :: dm, i, s =>
    match elementOp op srcs dsts d es ed i s with
    | some s' => if dsts.any Loc.isVec then elementLoop op srcs dsts d es ed dm (i + 1) s' else some s'
    | none => none
  | false :: dm, i, s => elementLoop op srcs dsts d es ed dm (i + 1) s

/-- An enabled element writes a CR field of the predicate itself, `CRF[32 .. 32 + VL - 1]`
(41_predication R145, 92 D22). -/
def writesPredicate (dsts : List Loc) (dm : List Bool) : Bool :=
  (List.range dm.length).any fun i =>
    dm[i]? == some true &&
      dsts.any fun l =>
        match l.crIndex i with
        | some c => Config.predOffs ≤ c && c < Config.predOffs + dm.length
        | none => false

/-! ## The step of a prefixed instruction -/

/-- Steps 7 to 11 of 43_vector_loop R191, for a suffix whose checks have passed: one atomic step (R203), in which
BASE's timers advance by an unspecified amount (60_exceptions R231: `State.advance`). The refusals come before the
UNDEFINED fault (R226; log 22). -/
def Suffix.execute (d : Suffix) (op : ElementOp) (rm : Rm) (s : State) : Out :=
  let vl := s.readVl
  if vl = 0 then .next (s.advance 8)
  else
    match maskRefusal rm.maskmode rm.mask vl with
    | some r => .refused r
    | none =>
      let dm := predVector rm.maskmode rm.mask vl s
      let dsts := d.locs rm .dest
      match elementLoop op (d.locs rm .src) dsts d.defaultWidth rm.elwidthSrc rm.elwidth dm 0 s with
      | none => .refused .elementPastEnd
      | some s' =>
        if rm.maskmode = .cr ∧ writesPredicate dsts dm then .fault .crPredicateOverwritten
        else .next (s'.advance 8)

/-- Steps 5 to 11 of 43_vector_loop R191, in the order of 60_exceptions R226: trap, refuse, the VL = 0
no-op, the UNDEFINED fault, execution. `w0` and `w1` are the instruction's words, for the trap. -/
def Suffix.run (d : Suffix) (rm : Rm) (w0 w1 : IWord) (s : State) : Out :=
  if d.reserved rm then raiseIllegal w0 (some w1) s
  else
    match d.refusal rm s.pc, d.op with
    | some r, _ => .refused r
    | none, some op => d.execute op rm s
    | none, none => .refused .suffixNotInstantiated

/-- `sv.<suffix>` (43_vector_loop R190, R191): steps 3 and 4 look the suffix up, and trap where it has
primary opcode 1 or is no instruction of BASE (30_encoding R96, 60_exceptions R221 no. 3) or is
UnVectoriseable (R206). An instruction of BASE that SuffixTable does not hold is refused (R202, R212 to
R214; log 11), as the draft ones are (93 U11), and so is one that hardware may class as UnVectoriseable
(log 40). It is refused as `suffixNotInstantiated` also at pc mod 64 = 60 (20_memory R63) and whatever the
other refusals of step 6 would say (DESIGN CHOICE: log 12). -/
def execSvSuffix (rm : Rm) (w1 : IWord) (s : State) : Out :=
  if isExt01 w1 then raiseIllegal rm.toWord (some w1) s
  else
    match suffixTable w1 with
    | none =>
      if isBaseWord w1 then .refused .suffixNotInstantiated else raiseIllegal rm.toWord (some w1) s
    | some .unVectoriseable => raiseIllegal rm.toWord (some w1) s
    | some (.vectoriseable d) => d.run rm rm.toWord w1 s

/-- `sv.add RT,RA,RB` (43_vector_loop R208): R191 on the one instantiated row of SuffixTable. -/
def execSvAdd (rm : Rm) (rt ra rb : BitVec 5) (s : State) : Out :=
  (addSuffix rt ra rb false false).run rm rm.toWord (addWord rt ra rb 0#1 0#1) s

end Sys2Proof.Machine
end

