-- ==== Sys2Proof/Machine/Dispatch.lean ====
section
/-!
DEFINITION. Machine/Dispatch.lean: from an instruction to its meaning.
-/

namespace Sys2Proof.Machine

def exec (i : Instr) (s : State) : Host.Outcome State Fault Refusal :=
  match i with
  | .svSuffix rm w1 => Sys2Proof.Machine.execSvSuffix rm w1 s
  | .v31_8ls low w1 => Sys2Proof.Machine.execV31_8ls low w1 s
  | .v31_mls low w1 => Sys2Proof.Machine.execV31_mls low w1 s
  | .v31_8rr low w1 => Sys2Proof.Machine.execV31_8rr low w1 s
  | .v31_mrr low w1 => Sys2Proof.Machine.execV31_mrr low w1 s
  | .v31_mmirr low w1 => Sys2Proof.Machine.execV31_mmirr low w1 s
  | .cell001xxx low w1 => Sys2Proof.Machine.execCell001xxx low w1 s
  | .cell101xxx low w1 => Sys2Proof.Machine.execCell101xxx low w1 s
  | .cell0110xx low w1 => Sys2Proof.Machine.execCell0110xx low w1 s
  | .cell010001 low w1 => Sys2Proof.Machine.execCell010001 low w1 s
  | .cell010010 low w1 => Sys2Proof.Machine.execCell010010 low w1 s
  | .cell010011 low w1 => Sys2Proof.Machine.execCell010011 low w1 s
  | .cell110001 low w1 => Sys2Proof.Machine.execCell110001 low w1 s
  | .cell110010 low w1 => Sys2Proof.Machine.execCell110010 low w1 s
  | .cell110011 low w1 => Sys2Proof.Machine.execCell110011 low w1 s
  | .cell111000 low w1 => Sys2Proof.Machine.execCell111000 low w1 s
  | .cell111010 low w1 => Sys2Proof.Machine.execCell111010 low w1 s
  | .cell111011 low w1 => Sys2Proof.Machine.execCell111011 low w1 s
  | .svAdd rm rt ra rb => Sys2Proof.Machine.execSvAdd rm rt ra rb s
  | .add rt ra rb => Sys2Proof.Machine.execAdd rt ra rb s

end Sys2Proof.Machine
end

