-- ==== Sys2Proof/Machine/Fetch.lean ====
section
/-!
DEFINITION. Machine/Fetch.lean: instruction fetch (20_memory R62, R63, R70) and its inverse, placing an
instruction where it is fetched.
-/

namespace Sys2Proof.Machine

/-- `FetchWord(addr)` (20_memory R62) in the byte order `le`. -/
def fetchWord (le : Bool) (m : Memory) (a : Word) : Option IWord :=
  match m.readBytes a 4 with
  | some [b0, b1, b2, b3] => some (wordOfBytes le b0 b1 b2 b3)
  | _ => none

/-- The first of the `n` bytes at `a` that nothing has written. -/
def firstUnwritten (m : Memory) (a : Word) : Nat → Nat
  | 0 => a.toNat
  | n + 1 => if (m.read a.toNat).isNone then a.toNat else firstUnwritten m (a + 1) n

/-- The bytes of the instruction at `a`, as memory holds them: no translation, protection, fault of BASE or
cache stands between (DESIGN CHOICE, unsafe: logs 37 and 38). They are 8 if its first word has EXT01, else 4
(30_encoding R82). The fault of the first word comes before that of the second (60_exceptions R226). -/
def fetchBytes (m : Memory) (a : Word) : Except Fault (List Byte) :=
  match m.readBytes a 4 with
  | some [b0, b1, b2, b3] =>
    if isExt01 (wordOfBytes Config.ifetchLE b0 b1 b2 b3) then
      match m.readBytes (a + 4) 4 with
      | some cs => .ok ([b0, b1, b2, b3] ++ cs)
      | none => .error (.fetchUnwritten (firstUnwritten m (a + 4) 4))
    else .ok [b0, b1, b2, b3]
  | _ => .error (.fetchUnwritten (firstUnwritten m a 4))

/-- What stands at pc. -/
inductive Fetched
  /-- An instruction of the opcode table. -/
  | instr (i : Instr)
  /-- An unprefixed word that the spec does not instantiate: BASE's (30_encoding R97). -/
  | base (w : IWord)
  deriving DecidableEq, Repr

/-- Fetch and decode at pc, which is a multiple of 4 (20_memory R63, 10_state R49; log 13). Both words are
those of one instant (20_memory R70), and every store before it is seen (DESIGN CHOICE: log 38). -/
def fetchInstr (s : State) : Except Fault Fetched :=
  if s.pc.toNat % 4 ≠ 0 then .error .pcMisaligned
  else
    match fetchBytes s.mem s.pc with
    | .error f => .error f
    | .ok bs =>
      match decode bs with
      | .ok (i, _) => .ok (.instr i)
      | .error (.baseInstruction w) => .ok (.base w)
      | .error .truncated => .error (.fetchUnwritten (firstUnwritten s.mem s.pc 8))

/-- The state with `bs` stored from pc upwards and the hart running: what a loader does to have the next
step run the instruction whose bytes they are (log 20). -/
def State.withFetchBytes (s : State) (bs : List Byte) : State :=
  (s.setMem (s.mem.writeBytes s.pc bs)).setHart .running

end Sys2Proof.Machine
end

