-- ==== Sys2Proof/Machine/Step.lean ====
section
/-!
DEFINITION. Machine/Step.lean: one step of the hart.
-/

namespace Sys2Proof.Machine

/-- One step: fetch and decode at pc, then the instruction's meaning, which advances pc itself
(43_vector_loop R191); a word of BASE's is BASE's to execute (30_encoding R97). A hart that a trap has stopped
does not go on (60_exceptions R223; log 1). -/
def step (s : State) : Host.Outcome State Fault Refusal :=
  match s.hart with
  | .trapped t => .fault (.trapped t)
  | .running =>
    match fetchInstr s with
    | .ok (.instr i) => exec i s
    | .ok (.base w) => execBase w none s
    | .error f => .fault f

/-- `s` with the opcode table's word `w` stored at pc, where `step` fetches (log 19, log 20). -/
def State.withFetchWord (s : State) (nbits w : Nat) : State :=
  s.withFetchBytes (tableBytes nbits w)

end Sys2Proof.Machine
end

