-- ==== Sys2Proof/Safety.lean ====
section
/-!
DEFINITION. Safety.lean: what claims call a well-formed state and a safe run.
-/

namespace Sys2Proof.Machine

/-- A trap record is the one of the instruction at pc: pc "still addresses the prefix word" and the words are
those memory holds there, two if the first has EXT01 and else one (60_exceptions R222, R220,
30_encoding R82). -/
def Trap.Matches (t : Trap) (s : State) : Prop :=
  t.pc = s.pc ∧ fetchWord Config.ifetchLE s.mem s.pc = some t.w0 ∧ t.w1.isSome = isExt01 t.w0 ∧
    ∀ w, t.w1 = some w → fetchWord Config.ifetchLE s.mem (s.pc + 4) = some w

/-- The invariant of every step: memory is canonical, pc is a multiple of 4 (10_state R49), and a trap the
hart has stopped in is that of the instruction at pc. -/
def State.Inv (s : State) : Prop :=
  s.mem.wf ∧ s.pc.toNat % 4 = 0 ∧ ∀ t, s.hart = .trapped t → t.Matches s

/-- The hart runs: no trap has stopped it. -/
def State.Running (s : State) : Prop := s.hart = .running

/-- `s` goes on for `k` steps, with no fault and no refusal, and ends running: "this program never traps"
(60_exceptions R223). -/
def SafeFor : Nat → State → Prop
  | 0, s => s.Running
  | k + 1, s => s.Running ∧ ∃ t, step s = .next t ∧ SafeFor k t

end Sys2Proof.Machine
end

