-- ==== Sys2Proof/WellFormed.lean ====
section
/-!
DEFINITION. WellFormed.lean: the instruction terms that stand for an encoding.
Every field of every constructor has the width of its place in the words, so the one check left is that
a suffix word which is the plain `add` is written `svAdd`, as the table gives it a row of its own.
-/

namespace Sys2Proof

/-- The instruction stands for an encoding of its own: `svSuffix` does not take the words of row
`sv.add`. -/
def Instr.WellFormed : Instr → Bool
  | .svSuffix _ w1 => !isPlainAdd w1
  | .v31_8ls _ _ | .v31_mls _ _ | .v31_8rr _ _ | .v31_mrr _ _ | .v31_mmirr _ _ => true
  | .cell001xxx _ _ | .cell101xxx _ _ | .cell0110xx _ _ => true
  | .cell010001 _ _ | .cell010010 _ _ | .cell010011 _ _ => true
  | .cell110001 _ _ | .cell110010 _ _ | .cell110011 _ _ => true
  | .cell111000 _ _ | .cell111010 _ _ | .cell111011 _ _ => true
  | .svAdd _ _ _ _ | .add _ _ _ => true

end Sys2Proof
end

