-- ==== Sys2Proof/Certificates/Slice0/Obligations.lean ====
section
/-!
DEFINITION. Certificates/Slice0/Obligations.lean: what the model claims of itself, stated and not proved, and
the reference definitions the statements compare it with, transcribed from the spec's own tables and
pseudocode in plain arithmetic.
-/

namespace Sys2Proof.Reference

open Sys2Proof.Machine

/-! ## Reference definitions -/

/-- The kinds of cell of the prefix opcode map (30_encoding R83). -/
inductive Cell
  | svp64 | c8LS | cMLS | c8RR | cMRR | cMMIRR | empty
  deriving DecidableEq, Repr

/-- The prefix opcode map of 30_encoding R83: rows are bits 6:8, columns bits 9:11. -/
def prefixMap : List (List Cell) := [
  [.c8LS, .c8LS, .c8LS, .c8LS, .c8LS, .c8LS, .c8LS, .c8LS],
  [.empty, .empty, .empty, .empty, .empty, .empty, .empty, .empty],
  [.c8RR, .empty, .empty, .empty, .svp64, .svp64, .svp64, .svp64],
  [.empty, .empty, .empty, .empty, .svp64, .svp64, .svp64, .svp64],
  [.cMLS, .cMLS, .cMLS, .cMLS, .cMLS, .cMLS, .cMLS, .cMLS],
  [.empty, .empty, .empty, .empty, .empty, .empty, .empty, .empty],
  [.cMRR, .empty, .empty, .empty, .svp64, .svp64, .svp64, .svp64],
  [.empty, .cMMIRR, .empty, .empty, .svp64, .svp64, .svp64, .svp64]]

/-- The cell of a first word with EXT01, by its number (00_scope R17). -/
def cellOf (w0 : IWord) : Option Cell :=
  (prefixMap[w0.toNat / 2 ^ 23 % 8]?).bind fun row => row[w0.toNat / 2 ^ 20 % 8]?

/-- The cell an instruction's first word stands in; none for the unprefixed `add`. -/
def instrCell : Instr → Option Cell
  | .svSuffix _ _ | .svAdd _ _ _ _ => some .svp64
  | .v31_8ls _ _ => some .c8LS
  | .v31_mls _ _ => some .cMLS
  | .v31_8rr _ _ => some .c8RR
  | .v31_mrr _ _ => some .cMRR
  | .v31_mmirr _ _ => some .cMMIRR
  | .cell001xxx _ _ | .cell101xxx _ _ | .cell0110xx _ _ | .cell010001 _ _ | .cell010010 _ _
  | .cell010011 _ _ | .cell110001 _ _ | .cell110010 _ _ | .cell110011 _ _ | .cell111000 _ _
  | .cell111010 _ _ | .cell111011 _ _ => some .empty
  | .add _ _ _ => none

/-- `Bytes_F[n]` (10_state R36): register `n div 8`, its byte `n mod 8`, byte 0 the least significant. -/
def fileByte (f : RegFile) (n : Nat) : Nat := (f[n / 8]?.getD 0).toNat / 256 ^ (n % 8) % 256

/-- The byte offset of an element (10_state R36). -/
def elemOffset (g e : Nat) (w : Width) : Nat := 8 * g + e * (w.bits / 8)

/-- `Elem(F, g, e, w)` as the sum over its bytes (10_state R36). -/
def refElem (f : RegFile) (g e : Nat) (w : Width) : Nat :=
  ((List.range (w.bits / 8)).map fun k => fileByte f (elemOffset g e w + k) * 256 ^ k).sum

/-- `Elem(F, g, e, w) <- v`: the file whose bytes at the element's offset are those of `v` and whose other
bytes are as before (10_state R37). -/
def refSetElem (f : RegFile) (g e : Nat) (w : Width) (v : Nat) : RegFile :=
  Vector.ofFn fun r : Fin 128 => BitVec.ofNat 64
    ((List.range 8).map fun k =>
      let n := 8 * r.val + k
      (if elemOffset g e w ≤ n ∧ n < elemOffset g e w + w.bits / 8
        then v / 256 ^ (n - elemOffset g e w) % 256 else fileByte f n) * 256 ^ k).sum

/-- The element lies inside the file (10_state R40). -/
abbrev inFile (g e : Nat) (w : Width) : Prop := elemOffset g e w + w.bits / 8 ≤ 1024

/-- `DecodeReg` in numbers, by the columns of 42_extra_registers R166: number and vector tag. -/
def refReg (f : BitVec 5) (extra3 : BitVec 3) : Nat × Bool :=
  if 4 ≤ extra3.toNat then (4 * f.toNat + extra3.toNat % 4, true)
  else (32 * extra3.toNat + f.toNat, false)

/-- The destination of `sv.add`: `DecodeReg(RT, RM[10:12])` (43_vector_loop R208). -/
def svRt (rm : Rm) (rt : BitVec 5) : Nat × Bool := refReg rt (field rm.extra 0 3)

/-- The first source of `sv.add`: `DecodeReg(RA, RM[13:15])`. -/
def svRa (rm : Rm) (ra : BitVec 5) : Nat × Bool := refReg ra (field rm.extra 3 3)

/-- The second source of `sv.add`: `DecodeReg(RB, RM[16:18])`. -/
def svRb (rm : Rm) (rb : BitVec 5) : Nat × Bool := refReg rb (field rm.extra 6 3)

/-- The element width of `sv.add` (43_vector_loop R208). -/
def svWidth (rm : Rm) : Width :=
  match rm.elwidth.toNat with
  | 0 => .w64
  | 1 => .w32
  | 2 => .w16
  | _ => .w8

/-- `idx(X, i)` (43_vector_loop R199). -/
def idx (p : Nat × Bool) (i : Nat) : Nat := if p.2 then i else 0

/-- Element `i` is enabled, by the rows of the tables of 41_predication R133 and R138. Past bit 63 of an integer
mask register, and past CR127, it is the model's choice (log 33). -/
def enabled (rm : Rm) (s : State) (i : Nat) : Bool :=
  let r3 := s.gpr[3].toNat
  let r10 := s.gpr[10].toNat
  let r30 := s.gpr[30].toNat
  let crf := s.crf[32 + i]?
  match rm.maskmode, rm.mask.toNat with
  | .int, 0 => true
  | .int, 1 => i = r3
  | .int, 2 => r3 / 2 ^ i % 2 = 1
  | .int, 3 => r3 / 2 ^ i % 2 = 0
  | .int, 4 => r10 / 2 ^ i % 2 = 1
  | .int, 5 => r10 / 2 ^ i % 2 = 0
  | .int, 6 => r30 / 2 ^ i % 2 = 1
  | .int, _ => r30 / 2 ^ i % 2 = 0
  | .cr, 0 => crf.any fun f => f.lt
  | .cr, 1 => crf.any fun f => !f.lt
  | .cr, 2 => crf.any fun f => f.gt
  | .cr, 3 => crf.any fun f => !f.gt
  | .cr, 4 => crf.any fun f => f.eq
  | .cr, 5 => crf.any fun f => !f.eq
  | .cr, 6 => crf.any fun f => f.fu
  | .cr, _ => crf.any fun f => !f.fu

/-- The form passes the model-only refusals that depend on the words and pc (43_vector_loop R202, R208;
20_memory R63). -/
abbrev svForm (rm : Rm) (s : State) : Prop :=
  s.pc.toNat % 64 ≠ 60 ∧ rm.mode = 0 ∧ rm.subvl = 0 ∧ rm.elwidth = rm.elwidthSrc

/-- The mask does not reach past its source (41_predication R136, R142). -/
abbrev maskFits (rm : Rm) (s : State) : Prop :=
  (rm.maskmode = .int → 2 ≤ rm.mask.toNat → s.readVl ≤ 64) ∧ (rm.maskmode = .cr → s.readVl ≤ 96)

/-- The elements 0 to VL - 1 of an operand of `sv.add` lie inside the file. -/
abbrev operandFits (p : Nat × Bool) (rm : Rm) (s : State) : Prop :=
  ∀ i < s.readVl, inFile p.1 (idx p i) (svWidth rm)

/-- The registers `sv.add` writes never feed a later read: a vector source does not start below a vector
destination that it overlaps (the case 43_vector_loop R209 leaves aside). -/
abbrev noFeedForward (dest src : Nat × Bool) (rm : Rm) (s : State) : Prop :=
  dest.1 ≤ src.1 ∨ 8 * src.1 + s.readVl * ((svWidth rm).bits / 8) ≤ 8 * dest.1

/-- The loop of 43_vector_loop R208: `n` elements from element `i` on, over the GPR file; none when an
element lies past the end. -/
def refLoop (en : Nat → Bool) (w : Width) (t a b : Nat × Bool) :
    Nat → Nat → RegFile → Option RegFile
  | 0, _, f => some f
  | n + 1, i, f =>
    if en i then
      if inFile a.1 (idx a i) w ∧ inFile b.1 (idx b i) w ∧ inFile t.1 (idx t i) w then
        let f' := refSetElem f t.1 (idx t i) w
          ((refElem f a.1 (idx a i) w + refElem f b.1 (idx b i) w) % 2 ^ w.bits)
        if t.2 then refLoop en w t a b n (i + 1) f' else some f'
      else none
    else refLoop en w t a b n (i + 1) f

/-- The state after a prefixed instruction that changes no register: pc past both words, one more step of
BASE's timers (60_exceptions R231). -/
abbrev skipped (s : State) : State := { s with pc := s.pc + 8, steps := s.steps + 1 }

/-- `sv.add RT,RA,RB` by the pseudocode of 43_vector_loop R208, and the refusal of 20_memory R63: none where it
refuses, else the next state. -/
def refSvAdd (rm : Rm) (rt ra rb : BitVec 5) (s : State) : Option State :=
  if svForm rm s then
    if s.readVl = 0 then some (skipped s)
    else if maskFits rm s then
      (refLoop (enabled rm s) (svWidth rm) (svRt rm rt) (svRa rm ra) (svRb rm rb) s.readVl 0 s.gpr).map
        fun f => { skipped s with gpr := f }
    else none
  else none

/-- The state with the hart stopped in `Trapped(IllegalInstruction, pc)` and nothing else changed
(60_exceptions R222, R223). -/
def trapped (s : State) (w0 w1 : IWord) : State :=
  { s with hart := .trapped ⟨.illegalInstruction, s.pc, w0, some w1⟩ }

/-- All but the GPR file, pc, the hart's condition and the ticks of BASE's timers are as before. -/
abbrev sameBut (s t : State) : Prop :=
  t.fpr = s.fpr ∧ t.crf = s.crf ∧ t.svstate = s.svstate ∧ t.msr = s.msr ∧ t.mem = s.mem ∧ t.base = s.base

/-- The four bits of a CR field in the order of 10_state R32. -/
def crBits (f : CrField) : List Bool := [f.lt, f.gt, f.eq, f.fu]

/-- The operand is a CR field or a CR bit. -/
abbrev isCrOperand (o : Operand) : Prop := (∃ f, o.field = .crField f) ∨ ∃ f, o.field = .crBit f

/-- The suffix has operands and all are CR fields or CR bits (40_rm_width_subvl_mode R120). -/
abbrev allCr (d : Suffix) : Prop := d.operands ≠ [] ∧ ∀ o ∈ d.operands, isCrOperand o

/-- The suffix has an FPR operand. -/
abbrev hasFpr (d : Suffix) : Prop := ∃ o ∈ d.operands, ∃ f, o.field = .fpr f

/-- The layout of the suffix is twin-predicated. -/
abbrev hasTwinLayout (d : Suffix) : Prop := ∃ l, d.layout = some l ∧ l.isTwin = true

/-- Loads and stores of primary opcode 31, but for those that reserve or are atomic, by bits 21:30 (PRESUMED,
log 10). -/
def indexedLoadStore : List Nat := [
  21, 23, 53, 55, 87, 119, 149, 151, 181, 183, 215, 247, 279, 311, 341, 343, 373, 375, 407, 439,
  532, 533, 534, 535, 567, 597, 599, 631, 660, 661, 662, 663, 695, 725, 727, 759, 790, 791, 855,
  887, 918, 919, 983]

/-- Load-reserve, store-conditional and atomic instructions, of primary opcode 31, by bits 21:30 (PRESUMED,
log 10). -/
def reserveOrAtomic : List Nat := [20, 52, 84, 116, 150, 182, 214, 276, 582, 614, 694, 710, 726, 742]

/-- The word is `maddedu` or `divmod2du`, at the UNVERIFIED encodings of log 10. -/
def isDraft (w : IWord) : Bool :=
  w.toNat / 2 ^ 26 == 4 && (w.toNat % 64 == 50 || w.toNat % 64 == 58)

/-- The word is a branch, or a load or store of the scalar Power ISA that neither reserves nor is atomic, at
the PRESUMED encodings of log 10. -/
def isLoadStoreBranch (w : IWord) : Bool :=
  let po := w.toNat / 2 ^ 26
  let xo := w.toNat / 2 % 1024
  po == 16 || po == 18 || (po == 19 && (xo == 16 || xo == 528 || xo == 560)) ||
    (32 ≤ po && po ≤ 56) || ((po == 58 || po == 62) && w.toNat % 4 ≤ 2) ||
    ((po == 57 || po == 61) && w.toNat % 4 == 0) || (po == 31 && indexedLoadStore.contains xo)

/-- Of these, the loads and stores that move an FPR. -/
def movesFpr (w : IWord) : Bool :=
  let po := w.toNat / 2 ^ 26
  (48 ≤ po && po ≤ 55) || po == 57 || po == 61 ||
    (po == 31 && [535, 567, 599, 631, 663, 695, 727, 759, 791, 855, 887, 919, 983].contains
      (w.toNat / 2 % 1024))

/-- The word is a CR-only instruction (40_rm_width_subvl_mode R120) at the PRESUMED encodings of log 10: `mcrf`, a
CR logical instruction, `mcrxrx`, or a conditional branch, whose one register operand is the CR bit BI
(log 25). -/
def isCrOnlyWord (w : IWord) : Bool :=
  let po := w.toNat / 2 ^ 26
  let xo := w.toNat / 2 % 1024
  po == 16 || (po == 31 && xo == 576) ||
    (po == 19 && [0, 16, 33, 129, 193, 225, 257, 289, 417, 449, 528, 560].contains xo)

/-- The source elements of iteration `i` lie in their files. -/
abbrev sourcesFit (d : Suffix) (rm : Rm) (s : State) (i : Nat) : Prop :=
  ∀ l ∈ d.locs rm .src, (s.readLoc l (l.width d.defaultWidth rm.elwidthSrc) i).isSome = true

/-- The destination elements of iteration `i` lie in their files. -/
abbrev destsFit (d : Suffix) (rm : Rm) (s : State) (i : Nat) : Prop :=
  ∀ l ∈ d.locs rm .dest, (s.readLoc l (l.width d.defaultWidth rm.elwidth) i).isSome = true

/-- The first `RM[10:18]` bit of each sub-field of a layout, by the columns of 42_extra_registers R180. -/
def layoutStart : Layout → List (Slot × Nat)
  | .rm1P3S1D => [(.rdest, 10), (.rsrc1, 12), (.rsrc2, 14), (.rsrc3, 16)]
  | .rm1P2S1D => [(.rdest, 10), (.rsrc1, 13), (.rsrc2, 16)]
  | .rm2P1S1D => [(.rdest, 10), (.rsrc1, 13)]
  | .rm2P2S => [(.rsrc1, 10), (.rsrc2, 13)]
  | .rm2P2S1D => [(.rdest, 10), (.rsrc1, 12), (.rsrc2, 14)]
  | .rm2P1S2D => [(.rsrc, 10), (.rdest1, 12), (.rdest2, 14)]
  | .rm2P3S => [(.rsrc1, 10), (.rsrc2, 12), (.rsrc3, 14)]

end Sys2Proof.Reference

open Sys2Proof Sys2Proof.Machine Sys2Proof.Reference

/-! ## Encoding -/

/-- Decoding an encoded well-formed instruction gives it back, with the bytes after it untouched
(30_encoding R86, R87, 43_vector_loop R207: the inverse of each layout). -/
def Obligations.DecodeEncodeRoundTrip : Prop :=
  ∀ (i : Instr) (rest : List Byte), i.WellFormed = true → decode (encodeBytes i ++ rest) = .ok (i, rest)

/-- Whatever bytes decode are the encoding of the instruction they give, which is well-formed: each word
has one meaning. -/
def Obligations.EncodeDecodeRoundTrip : Prop :=
  ∀ (bytes : List Byte) (i : Instr) (rest : List Byte), decode bytes = .ok (i, rest) →
    bytes = encodeBytes i ++ rest ∧ i.WellFormed = true

/-- 30_encoding R83: the kind of a 64-bit instruction is that of its cell of the prefix opcode map, and a
word with EXT01 always has one; of the 64 cells 16 are SVP64, 8 are 8LS, 8 are MLS, one each 8RR, MRR
and MMIRR, and 29 are empty. -/
def Obligations.PrefixOpcodeMapDecides : Prop :=
  (∀ w0 w1 : IWord, w0.toNat / 2 ^ 26 = 1 →
    (cellOf w0).isSome ∧ instrCell (decodePair w0 w1) = cellOf w0) ∧
  prefixMap.flatten.count .svp64 = 16 ∧ prefixMap.flatten.count .c8LS = 8 ∧
    prefixMap.flatten.count .cMLS = 8 ∧ prefixMap.flatten.count .c8RR = 1 ∧
    prefixMap.flatten.count .cMRR = 1 ∧ prefixMap.flatten.count .cMMIRR = 1 ∧
    prefixMap.flatten.count .empty = 29

/-- 30_encoding R85: the decoder takes a word as an SVP64 one exactly when bits 0:5 are `0b000001` and bits 7
and 9 are 1, that is when `(w0 & 0xFD400000) = 0x05400000`. -/
def Obligations.Svp64RecognisedByMask : Prop :=
  ∀ w0 : IWord,
    (isSvp64 w0 = true ↔
      w0.toNat / 2 ^ 26 = 1 ∧ w0.toNat / 2 ^ 24 % 2 = 1 ∧ w0.toNat / 2 ^ 22 % 2 = 1) ∧
    (isSvp64 w0 = true ↔ w0 &&& 0xFD400000 = 0x05400000)

/-- 30_encoding R87: `RM` and the first word that carries it, as numbers, each the inverse of the other. -/
def Obligations.RemappedEncodingAsNumbers : Prop :=
  (∀ w0 : IWord, (rmBits w0).toNat =
    w0.toNat / 2 ^ 25 % 2 * 2 ^ 23 + w0.toNat / 2 ^ 23 % 2 * 2 ^ 22 + w0.toNat % 2 ^ 22) ∧
  (∀ rm : BitVec 24, (svp64Word rm).toNat =
    0x05400000 + rm.toNat / 2 ^ 23 % 2 * 2 ^ 25 + rm.toNat / 2 ^ 22 % 2 * 2 ^ 23 + rm.toNat % 2 ^ 22) ∧
  (∀ rm : BitVec 24, rmBits (svp64Word rm) = rm) ∧
  (∀ w0 : IWord, isSvp64 w0 = true → svp64Word (rmBits w0) = w0)

/-- 30_encoding R82: the instruction is 64 bits long if bits 0:5 of the first word are `0b000001` and 32
bits long otherwise. -/
def Obligations.LengthFromPrimaryOpcode : Prop :=
  ∀ (bytes : List Byte) (i : Instr) (rest : List Byte), decode bytes = .ok (i, rest) →
    ∃ w0, (encode i).head? = some w0 ∧
      bytes.length = rest.length + (if w0.toNat / 2 ^ 26 = 1 then 8 else 4)

/-- Words written out from the spec's encodings decode to the instructions they stand for (30_encoding
R105, 95_test_vectors sections 2 and 6, opcode_table.json). -/
def Obligations.SampleWordsDecode : Prop :=
  decodePair 0x05402480 0x7C443214 = .svAdd ⟨.int, 0, 0, 0, 0, 0b100100100, 0⟩ 2 4 6 ∧
  decodePair 0x056A2480 0x7C443214 = .svAdd ⟨.int, 0b010, 0b10, 0b10, 0, 0b100100100, 0⟩ 2 4 6 ∧
  decodePair 0x07FFFFFF 0 = .svSuffix ⟨.cr, 0b111, 0b11, 0b11, 0b11, 0b111111111, 0b11111⟩ 0 ∧
  decodeScalar 0x7C642A14 = .ok (.add 3 4 5) ∧
  decodePair 0x04400000 0 = .v31_8ls 0x400000 0 ∧ decodePair 0x06000001 0 = .v31_mls 1 0 ∧
  decodePair 0x05000000 0 = .v31_8rr 0 0 ∧ decodePair 0x07000000 0 = .v31_mrr 0 0 ∧
  decodePair 0x07900000 0 = .v31_mmirr 0 0 ∧ decodePair 0x04800000 0 = .cell001xxx 0 0 ∧
  decodePair 0x06C00000 0 = .cell101xxx 0x400000 0 ∧ decodePair 0x05800000 0 = .cell0110xx 0 0 ∧
  decodePair 0x05100000 0 = .cell010001 0 0 ∧ decodePair 0x07A00000 0 = .cell111010 0 0

/-! ## Registers, widths, layouts -/

/-- 10_state R36: an element is the little-endian sum of its bytes, wherever it lies in the file; past
the end there is none (R40). -/
def Obligations.ElementReadIsSumOfBytes : Prop :=
  ∀ (f : RegFile) (g e : Nat) (w : Width),
    (inFile g e w → elemGet f g e w = some (BitVec.ofNat 64 (refElem f g e w)) ∧
      refElem f g e w < 2 ^ w.bits) ∧
    (¬ inFile g e w → elemGet f g e w = none)

/-- 10_state R37: writing an element stores the bytes of the value, least significant first, at the
element's offset "and changes no other byte of the file". -/
def Obligations.ElementWriteChangesItsBytesOnly : Prop :=
  ∀ (f : RegFile) (g e : Nat) (w : Width) (v : Word), inFile g e w →
    ∃ f', elemSet f g e w v = some f' ∧
      (∀ k < w.bits / 8, fileByte f' (elemOffset g e w + k) = v.toNat / 256 ^ k % 256) ∧
      (∀ n < 1024, n < elemOffset g e w ∨ elemOffset g e w + w.bits / 8 ≤ n →
        fileByte f' n = fileByte f n)

/-- 10_state R36, R37, R41 and 42_extra_registers R165, R174, R178: FPR and CR operands of the element loop. An
FPR operand reads and writes an element as a GPR one does; a 3-bit CR operand is one whole CR field and a 5-bit one
the same bit of one CR field per element, with a vector stepping by whole fields; past the end of a file
there is nothing to read or write. The register and tag of an operand are those its file's decoding gives
(42_extra_registers R165, R174). The stepping of CR operands, the number of each bit in a field and
the order of a field's bits as a value are PRESUMED (logs 31 and 18), and what a scalar operand uses is
log 16. -/
def Obligations.FprAndCrOperandAccess : Prop :=
  (∀ (f : BitVec 5) (spec : BitVec 3),
    (OperandField.gpr f).loc spec = ⟨.gpr (decodeReg f spec).1, (decodeReg f spec).2⟩ ∧
    (OperandField.fpr f).loc spec = ⟨.fpr (decodeReg f spec).1, (decodeReg f spec).2⟩ ∧
    (OperandField.crBit f).loc spec = ⟨.crBit (decodeCrBit f spec).1, (decodeCrBit f spec).2⟩) ∧
  (∀ f spec : BitVec 3,
    (OperandField.crField f).loc spec = ⟨.crField (decodeCrField f spec).1, (decodeCrField f spec).2⟩) ∧
  ∀ (s : State) (v : Bool) (i : Nat) (w : Width) (x : Word),
    (∀ n : BitVec 7,
      (inFile n.toNat (idx (0, v) i) w →
        s.readLoc ⟨.fpr n, v⟩ w i = some (BitVec.ofNat 64 (refElem s.fpr n.toNat (idx (0, v) i) w)) ∧
        s.writeLoc ⟨.fpr n, v⟩ w i x =
          some { s with fpr := refSetElem s.fpr n.toNat (idx (0, v) i) w x.toNat }) ∧
      (¬ inFile n.toNat (idx (0, v) i) w →
        s.readLoc ⟨.fpr n, v⟩ w i = none ∧ s.writeLoc ⟨.fpr n, v⟩ w i x = none)) ∧
    (∀ n : BitVec 7,
      ((h : n.toNat + idx (0, v) i < 128) → ∃ g : CrField,
        s.readLoc ⟨.crField n, v⟩ w i = some (BitVec.ofNat 64
          ((crBits s.crf[n.toNat + idx (0, v) i]).foldl (fun a b => 2 * a + b.toNat) 0)) ∧
        crBits g = [x.toNat / 8 % 2 == 1, x.toNat / 4 % 2 == 1, x.toNat / 2 % 2 == 1, x.toNat % 2 == 1] ∧
        s.writeLoc ⟨.crField n, v⟩ w i x =
          some { s with crf := s.crf.set (n.toNat + idx (0, v) i) g }) ∧
      (128 ≤ n.toNat + idx (0, v) i →
        s.readLoc ⟨.crField n, v⟩ w i = none ∧ s.writeLoc ⟨.crField n, v⟩ w i x = none)) ∧
    ∀ b : BitVec 9,
      ((h : b.toNat / 4 + idx (0, v) i < 128) → ∃ g : CrField,
        s.readLoc ⟨.crBit b, v⟩ w i = some (BitVec.ofNat 64
          ((crBits s.crf[b.toNat / 4 + idx (0, v) i])[b.toNat % 4]?.getD false).toNat) ∧
        crBits g = (crBits s.crf[b.toNat / 4 + idx (0, v) i]).set (b.toNat % 4) (x.toNat % 2 == 1) ∧
        s.writeLoc ⟨.crBit b, v⟩ w i x =
          some { s with crf := s.crf.set (b.toNat / 4 + idx (0, v) i) g }) ∧
      (128 ≤ b.toNat / 4 + idx (0, v) i →
        s.readLoc ⟨.crBit b, v⟩ w i = none ∧ s.writeLoc ⟨.crBit b, v⟩ w i x = none)

/-- 42_extra_registers R166 and R167: the register number and tag of every value of an EXTRA3 and of an
EXTRA2 sub-field; an EXTRA3 operand reaches all 128 registers as a scalar and as a vector's start. -/
def Obligations.RegisterDecodeTables : Prop :=
  (∀ (f : BitVec 5) (e : BitVec 3),
    ((decodeReg f (specOf3 e)).1.toNat, (decodeReg f (specOf3 e)).2) = refReg f e) ∧
  (∀ f : BitVec 5,
    ((decodeReg f (specOf2 0b00)).1.toNat, (decodeReg f (specOf2 0b00)).2) = (f.toNat, false) ∧
    ((decodeReg f (specOf2 0b01)).1.toNat, (decodeReg f (specOf2 0b01)).2) = (32 + f.toNat, false) ∧
    ((decodeReg f (specOf2 0b10)).1.toNat, (decodeReg f (specOf2 0b10)).2) = (4 * f.toNat, true) ∧
    ((decodeReg f (specOf2 0b11)).1.toNat, (decodeReg f (specOf2 0b11)).2) = (4 * f.toNat + 2, true)) ∧
  ∀ (n : BitVec 7) (v : Bool), ∃ (f : BitVec 5) (e : BitVec 3), decodeReg f (specOf3 e) = (n, v)

/-- 42_extra_registers R170 to R173: the CR field of a 3-bit CR operand for every value of an EXTRA3 and of
an EXTRA2 sub-field, and the CR bit of a 5-bit one: the field of its upper three bits, its lower two
bits unchanged. -/
def Obligations.CrOperandDecode : Prop :=
  (∀ f e : BitVec 3,
    ((decodeCrField f (specOf3 e)).1.toNat, (decodeCrField f (specOf3 e)).2) =
      if 4 ≤ e.toNat then (16 * f.toNat + 4 * (e.toNat % 4), true)
      else (8 * e.toNat + f.toNat, false)) ∧
  (∀ f : BitVec 3,
    ((decodeCrField f (specOf2 0b00)).1.toNat, (decodeCrField f (specOf2 0b00)).2) = (f.toNat, false) ∧
    ((decodeCrField f (specOf2 0b01)).1.toNat, (decodeCrField f (specOf2 0b01)).2) =
      (8 + f.toNat, false) ∧
    ((decodeCrField f (specOf2 0b10)).1.toNat, (decodeCrField f (specOf2 0b10)).2) =
      (16 * f.toNat, true) ∧
    ((decodeCrField f (specOf2 0b11)).1.toNat, (decodeCrField f (specOf2 0b11)).2) =
      (16 * f.toNat + 8, true)) ∧
  (∀ (ba : BitVec 5) (spec : BitVec 3),
    (decodeCrBit ba spec).1.toNat =
      4 * (decodeCrField (BitVec.ofNat 3 (ba.toNat / 4)) spec).1.toNat + ba.toNat % 4 ∧
    (decodeCrBit ba spec).2 = (decodeCrField (BitVec.ofNat 3 (ba.toNat / 4)) spec).2)

/-- 42_extra_registers R180: where each sub-field of each layout lies in `RM[10:18]`, which layouts have
EXTRA3 sub-fields, and where MASK_SRC and EXTRA2_MODE lie. -/
def Obligations.LayoutTable : Prop :=
  (∀ l : Layout, (layoutStart l).map Prod.fst = l.slots) ∧
  (∀ l : Layout, l.isExtra3 = true ↔ l = .rm1P2S1D ∨ l = .rm2P1S1D ∨ l = .rm2P2S) ∧
  (∀ (l : Layout) (extra : BitVec 9), ∀ p ∈ layoutStart l,
    l.spec extra p.1 = if l.isExtra3 then specOf3 (field extra (p.2 - 10) 3)
      else specOf2 (field extra (p.2 - 10) 2)) ∧
  (∀ (l : Layout) (extra : BitVec 9), l.maskSrc extra =
    if l = .rm1P3S1D ∨ l = .rm1P2S1D then none else some (field extra (16 - 10) 3)) ∧
  (∀ (l : Layout) (extra : BitVec 9), l.extra2Mode extra =
    if l = .rm1P3S1D then some (field extra (18 - 10) 1) else none)

/-- 40_rm_width_subvl_mode R113, R115 and R123: the widths of integer and floating-point operands, bf16
being reserved, and the sub-vector length. An operand of the element loop has the width of its own file: DEFAULT
is the suffix's width for a GPR and 64 for an FPR. -/
def Obligations.WidthTables : Prop :=
  (∀ (d : Width) (n : BitVec 7) (v : Bool) (ew : BitVec 2),
    (⟨.gpr n, v⟩ : Loc).width d ew = intWidth d ew ∧
    (ew ≠ 0b11 → some ((⟨.fpr n, v⟩ : Loc).width d ew) = fpWidth ew)) ∧
  (∀ d : Width, intWidth d 0b00 = d ∧ (intWidth d 0b01).bits = 32 ∧ (intWidth d 0b10).bits = 16 ∧
    (intWidth d 0b11).bits = 8) ∧
  fpWidth 0b00 = some .w64 ∧ fpWidth 0b01 = some .w32 ∧ fpWidth 0b10 = some .w16 ∧ fpWidth 0b11 = none ∧
  subvlLength 0b00 = 1 ∧ subvlLength 0b01 = 2 ∧ subvlLength 0b10 = 3 ∧ subvlLength 0b11 = 4

/-! ## Predicates -/

/-- 41_predication R133 and R138: which elements a mask enables, for each of the eight values of each kind,
in CR mode as far as CR127. For elements 64 and above under an integer mask register, which R136 leaves open
and every step refuses, it says what the model chose: the missing bit reads as 0 (log 33). -/
def Obligations.PredicateTables : Prop :=
  ∀ (rm : Rm) (s : State) (i : Nat), (rm.maskmode = .cr → i < 96) →
    predicate rm.maskmode rm.mask s i = enabled rm s i

/-- 41_predication R136 and R142: `sv.add` is refused when an r3, r10 or r30 mask is selected and VL is
above 64, and when a CR mask is selected and VL is above 96. -/
def Obligations.MaskPastItsSourceRefused : Prop :=
  ∀ (rm : Rm) (rt ra rb : BitVec 5) (s : State), svForm rm s → ¬ maskFits rm s →
    exec (.svAdd rm rt ra rb) s = .refused .intPredicateBeyondBit63 ∧ rm.maskmode = .int ∨
    exec (.svAdd rm rt ra rb) s = .refused .crPredicateBeyondCr127 ∧ rm.maskmode = .cr

/-! ## add and sv.add -/

/-- 43_vector_loop R210: the unprefixed `add`, always: its sum, pc + 4, and nothing else, but that BASE's timers
advance by an amount without a value (log 39). -/
def Obligations.AddResult : Prop :=
  ∀ (rt ra rb : BitVec 5) (s : State), ∃ t, exec (.add rt ra rb) s = .next t ∧
    (∀ r : Fin 128, t.gpr[r] = if r.val = rt.toNat
      then BitVec.ofNat 64 ((s.gpr[ra.toNat].toNat + s.gpr[rb.toNat].toNat) % 2 ^ 64) else s.gpr[r]) ∧
    t.pc = s.pc + 4 ∧ sameBut s t ∧ t.hart = s.hart ∧ t.time = s.time + Config.ticks s.steps

/-- 43_vector_loop R210: the unprefixed `add` "uses registers r0 to r31 only and is not affected by VL or by
any predicate": states that agree on r0 to r31 and pc give results that agree on them. -/
def Obligations.AddUsesLowRegistersOnly : Prop :=
  ∀ (rt ra rb : BitVec 5) (s s' t t' : State), (∀ r : Fin 32, s'.gpr[r.val] = s.gpr[r.val]) →
    s'.pc = s.pc → exec (.add rt ra rb) s = .next t → exec (.add rt ra rb) s' = .next t' →
    (∀ r : Fin 32, t'.gpr[r.val] = t.gpr[r.val]) ∧ t'.pc = t.pc ∧
      ∀ r : Fin 128, 32 ≤ r.val → t.gpr[r] = s.gpr[r] ∧ t'.gpr[r] = s'.gpr[r]

/-- 43_vector_loop R208: `sv.add` is its pseudocode, for every form, mask, width, tag and register: it
refuses where the pseudocode refuses, and at pc mod 64 = 60, where 20_memory R63 has the model refuse any
prefixed instruction, and else answers the pseudocode's next state. What scalar tags do in
it is R201, the spec's from general knowledge (log 16), and BASE's timers advance (log 39). -/
def Obligations.SvAddIsItsPseudocode : Prop :=
  ∀ (rm : Rm) (rt ra rb : BitVec 5) (s : State),
    (refSvAdd rm rt ra rb s = none → ∃ r, exec (.svAdd rm rt ra rb) s = .refused r) ∧
    ∀ t, refSvAdd rm rt ra rb s = some t → exec (.svAdd rm rt ra rb) s = .next t

/-- `sv.add` completes whenever its form is executed, its mask fits its source and its elements lie in the
file (43_vector_loop R208). -/
def Obligations.SvAddCompletes : Prop :=
  ∀ (rm : Rm) (rt ra rb : BitVec 5) (s : State), svForm rm s → maskFits rm s →
    operandFits (svRt rm rt) rm s → operandFits (svRa rm ra) rm s → operandFits (svRb rm rb) rm s →
    ∃ t, exec (.svAdd rm rt ra rb) s = .next t ∧ t.pc = s.pc + 8 ∧ t.hart = s.hart

/-- 43_vector_loop R194: with the prefix all zeros and VL = 1, `sv.add` changes everything exactly as the
unprefixed `add` does, but that pc advances by 8. That both advance BASE's timers by the amount of the same
step number is log 39. -/
def Obligations.ScalarIdentity : Prop :=
  ∀ (rt ra rb : BitVec 5) (s : State), s.readVl = 1 → s.pc.toNat % 64 ≠ 60 →
    ∃ t, exec (.add rt ra rb) s = .next t ∧
      exec (.svAdd (Rm.ofBits 0) rt ra rb) s = .next { t with pc := s.pc + 8 }

/-- 43_vector_loop R193: VL = 0 makes `sv.add` a no-op, whatever its registers and mask: nothing changes but pc
and BASE's timers (60_exceptions R231, log 39). -/
def Obligations.ZeroVlIsNoop : Prop :=
  ∀ (rm : Rm) (rt ra rb : BitVec 5) (s : State), svForm rm s → s.readVl = 0 →
    exec (.svAdd rm rt ra rb) s = .next (skipped s)

/-- 10_state R39: with all operands vectors, no predication and equal widths, element `i` of the result is
the sum of elements `i` of the sources, modulo `2^w`, as long as no result feeds a later element. -/
def Obligations.AllVectorAdd : Prop :=
  ∀ (rm : Rm) (rt ra rb : BitVec 5) (s : State), svForm rm s → rm.maskmode = .int → rm.mask = 0 →
    (svRt rm rt).2 = true → (svRa rm ra).2 = true → (svRb rm rb).2 = true →
    operandFits (svRt rm rt) rm s → operandFits (svRa rm ra) rm s → operandFits (svRb rm rb) rm s →
    noFeedForward (svRt rm rt) (svRa rm ra) rm s → noFeedForward (svRt rm rt) (svRb rm rb) rm s →
    ∃ t, exec (.svAdd rm rt ra rb) s = .next t ∧ ∀ i < s.readVl,
      refElem t.gpr (svRt rm rt).1 i (svWidth rm) =
        (refElem s.gpr (svRa rm ra).1 i (svWidth rm) + refElem s.gpr (svRb rm rb).1 i (svWidth rm)) %
          2 ^ (svWidth rm).bits

/-- 43_vector_loop R200, R204, R208: `sv.add` writes no byte but those of its destination's enabled
elements, element 0 if the destination is a scalar (R201, log 16), and touches nothing else but pc and
the ticks of BASE's timers (60_exceptions R231), which no other part of BASE's own state holds (log 39). -/
def Obligations.SvAddFrame : Prop :=
  ∀ (rm : Rm) (rt ra rb : BitVec 5) (s t : State), exec (.svAdd rm rt ra rb) s = .next t →
    (∀ n < 1024,
      (∀ i < s.readVl, enabled rm s i = true →
        n < elemOffset (svRt rm rt).1 (idx (svRt rm rt) i) (svWidth rm) ∨
        elemOffset (svRt rm rt).1 (idx (svRt rm rt) i) (svWidth rm) + (svWidth rm).bits / 8 ≤ n) →
      fileByte t.gpr n = fileByte s.gpr n) ∧
    sameBut s t ∧ t.hart = s.hart ∧ t.pc = s.pc + 8 ∧ t.time = s.time + Config.ticks s.steps

/-- 41_predication R144: a destination that overwrites r3, r10 or r30 does not change which later elements
are enabled: with scalar sources outside the destination, element `i` is the sum exactly when the mask
of the state before the instruction enables it, and else keeps its value. That a scalar source is the
same for every element is 43_vector_loop R199 with R201 (b), the spec's from general knowledge
(log 16). -/
def Obligations.MaskIsReadBeforeTheLoop : Prop :=
  ∀ (rm : Rm) (rt ra rb : BitVec 5) (s : State), svForm rm s → maskFits rm s →
    (svRt rm rt).2 = true → (svRa rm ra).2 = false → (svRb rm rb).2 = false →
    operandFits (svRt rm rt) rm s →
    ((svRa rm ra).1 < (svRt rm rt).1 ∨
      8 * (svRt rm rt).1 + s.readVl * ((svWidth rm).bits / 8) ≤ 8 * (svRa rm ra).1) →
    ((svRb rm rb).1 < (svRt rm rt).1 ∨
      8 * (svRt rm rt).1 + s.readVl * ((svWidth rm).bits / 8) ≤ 8 * (svRb rm rb).1) →
    ∃ t, exec (.svAdd rm rt ra rb) s = .next t ∧ ∀ i < s.readVl,
      (enabled rm s i = true → refElem t.gpr (svRt rm rt).1 i (svWidth rm) =
        (refElem s.gpr (svRa rm ra).1 0 (svWidth rm) + refElem s.gpr (svRb rm rb).1 0 (svWidth rm)) %
          2 ^ (svWidth rm).bits) ∧
      (enabled rm s i = false →
        refElem t.gpr (svRt rm rt).1 i (svWidth rm) = refElem s.gpr (svRt rm rt).1 i (svWidth rm))

/-- 43_vector_loop R201 (c): with a scalar destination the loop ends after the first enabled element, so
the destination holds that element's sum, whatever VL is. R201 is the spec's from general knowledge
(log 16). -/
def Obligations.ScalarDestinationTakesFirstEnabled : Prop :=
  ∀ (rm : Rm) (rt ra rb : BitVec 5) (s : State) (k : Nat), svForm rm s → maskFits rm s →
    (svRt rm rt).2 = false → k < s.readVl → enabled rm s k = true → (∀ j < k, enabled rm s j = false) →
    inFile (svRa rm ra).1 (idx (svRa rm ra) k) (svWidth rm) →
    inFile (svRb rm rb).1 (idx (svRb rm rb) k) (svWidth rm) →
    ∃ t, exec (.svAdd rm rt ra rb) s = .next t ∧
      refElem t.gpr (svRt rm rt).1 0 (svWidth rm) =
        (refElem s.gpr (svRa rm ra).1 (idx (svRa rm ra) k) (svWidth rm) +
          refElem s.gpr (svRb rm rb).1 (idx (svRb rm rb) k) (svWidth rm)) % 2 ^ (svWidth rm).bits

/-- 41_predication R135: the mask `1 << R3` with r3 at least VL enables nothing and changes no register: nothing
changes but pc and BASE's timers (60_exceptions R231, log 39). -/
def Obligations.OneHotBeyondVlChangesNothing : Prop :=
  ∀ (rm : Rm) (rt ra rb : BitVec 5) (s : State), svForm rm s → rm.maskmode = .int → rm.mask = 0b001 →
    s.readVl ≤ s.gpr[3].toNat → exec (.svAdd rm rt ra rb) s = .next (skipped s)

/-- 43_vector_loop R209: a destination vector one register above its source feeds forward: register
`g + k` ends as `2^k` times register `g`. -/
def Obligations.OverlapFeedsForward : Prop :=
  ∀ (rm : Rm) (rt ra rb : BitVec 5) (s : State) (g : Nat), svForm rm s → rm.maskmode = .int →
    rm.mask = 0 → rm.elwidth = 0 → svRt rm rt = (g + 1, true) → svRa rm ra = (g, true) →
    svRb rm rb = (g, true) → (h : g + s.readVl < 128) →
    ∃ t, exec (.svAdd rm rt ra rb) s = .next t ∧
      ∀ k, (hk : k ≤ s.readVl) → t.gpr[g + k].toNat = 2 ^ k * s.gpr[g].toNat % 2 ^ 64

/-- 10_state R40: `sv.add` that would read or write an enabled element past r127 is refused. -/
def Obligations.ElementPastEndRefused : Prop :=
  ∀ (rm : Rm) (rt ra rb : BitVec 5) (s : State) (i : Nat), svForm rm s → maskFits rm s →
    (svRt rm rt).2 = true → i < s.readVl → enabled rm s i = true →
    (¬ inFile (svRt rm rt).1 i (svWidth rm) ∨ ¬ inFile (svRa rm ra).1 (idx (svRa rm ra) i) (svWidth rm) ∨
      ¬ inFile (svRb rm rb).1 (idx (svRb rm rb) i) (svWidth rm)) →
    exec (.svAdd rm rt ra rb) s = .refused .elementPastEnd

/-- 43_vector_loop R208: "IllegalInstruction never", and no fault: `sv.add` raises no trap in any form and
any state. -/
def Obligations.SvAddNeverTraps : Prop :=
  ∀ (rm : Rm) (rt ra rb : BitVec 5) (s : State),
    (∀ t, exec (.svAdd rm rt ra rb) s = .next t → t.hart = s.hart) ∧
    ∀ f, exec (.svAdd rm rt ra rb) s ≠ .fault f

/-! ## sv.<suffix> -/

/-- 43_vector_loop R191: the row `sv.<suffix>` on the suffix word of the plain `add` is the row `sv.add`;
it completes where `sv.add` does. -/
def Obligations.SuffixAddIsSvAdd : Prop :=
  ∀ (rm : Rm) (rt ra rb : BitVec 5) (s : State),
    exec (.svSuffix rm (addWord rt ra rb 0#1 0#1)) s = exec (.svAdd rm rt ra rb) s ∧
    (svForm rm s → maskFits rm s → operandFits (svRt rm rt) rm s → operandFits (svRa rm ra) rm s →
      operandFits (svRb rm rb) rm s →
      ∃ t, exec (.svSuffix rm (addWord rt ra rb 0#1 0#1)) s = .next t ∧ t.pc = s.pc + 8 ∧ t.hart = s.hart)

/-- 30_encoding R96, 60_exceptions R221 no. 3: an SVP64 prefix whose suffix has primary opcode 1, is the word of
zeros, or is no instruction of BASE, raises IllegalInstruction in every state and whatever the rest of
the prefix says. A word in no row of SuffixTable that BASE has is refused (43_vector_loop R202, R212 to
R214): which words BASE has is the constant `Config.baseHas`, without a value, and telling the two cases
apart by it is the model's reading (log 11). Load-reserve, store-conditional and atomic instructions are in
no row (20_memory R69), and neither are the draft `maddedu` and `divmod2du` (42_extra_registers R154), which
are refused (43_vector_loop R212, 93 U11); the encodings of both kinds are log 10's. That such a refusal has
this name whatever pc, MODE, SUBVL and the widths are is log 12's. -/
def Obligations.SuffixNotInTableTraps : Prop :=
  ∀ (rm : Rm) (w1 : IWord) (s : State),
    (w1.toNat / 2 ^ 26 = 1 → exec (.svSuffix rm w1) s = .next (trapped s rm.toWord w1)) ∧
    exec (.svSuffix rm 0) s = .next (trapped s rm.toWord 0) ∧
    (suffixTable w1 = none → w1.toNat / 2 ^ 26 ≠ 1 → w1 ≠ 0 → isDraft w1 = false →
      exec (.svSuffix rm w1) s =
        if Config.baseHas w1 then .refused .suffixNotInstantiated else .next (trapped s rm.toWord w1)) ∧
    (isDraft w1 = true → suffixTable w1 = none ∧
      exec (.svSuffix rm w1) s = .refused .suffixNotInstantiated) ∧
    (w1.toNat / 2 ^ 26 = 31 → w1.toNat / 2 % 1024 ∈ reserveOrAtomic → suffixTable w1 = none)

/-- 43_vector_loop R206: an SVP64 prefix on an UnVectoriseable suffix raises IllegalInstruction; `sc`,
`sync` and `mtmsr` are such, at their PRESUMED encodings (log 10). -/
def Obligations.UnVectoriseableSuffixTraps : Prop :=
  (∀ (rm : Rm) (w1 : IWord) (s : State), suffixTable w1 = some .unVectoriseable →
    exec (.svSuffix rm w1) s = .next (trapped s rm.toWord w1)) ∧
  suffixTable 0x44000002 = some .unVectoriseable ∧ suffixTable 0x7C0004AC = some .unVectoriseable ∧
  suffixTable 0x7C000124 = some .unVectoriseable

/-- 40_rm_width_subvl_mode R118: an FP operation ending in "s" with ELWIDTH f16 or bf16 raises
IllegalInstruction, for every row of SuffixTable that is one. These are the floating-point forms whose mnemonic
ends in "s", `fadds`, `fabs` and `fnabs` among them, and not the loads and stores `lfs` and `stfs`
(log 21); their encodings are PRESUMED (log 10). -/
def Obligations.FpSingleAtHalfWidthTraps : Prop :=
  ∀ (rm : Rm) (w1 : IWord) (d : Suffix) (s : State), suffixTable w1 = some (.vectoriseable d) →
    d.fpSingle = true → rm.elwidth = 0b10 ∨ rm.elwidth = 0b11 →
    exec (.svSuffix rm w1) s = .next (trapped s rm.toWord w1)

/-- 40_rm_width_subvl_mode R116, 43_vector_loop R192: an FP operand, source or destination, with ELWIDTH = 0b11,
or an FP source with ELWIDTH_SRC = 0b11, raises IllegalInstruction. -/
def Obligations.Bf16Traps : Prop :=
  ∀ (rm : Rm) (w1 : IWord) (d : Suffix) (o : Operand) (s : State),
    suffixTable w1 = some (.vectoriseable d) → o ∈ d.operands → (∃ f, o.field = .fpr f) →
    (rm.elwidth = 0b11 ∨ o.role = .src ∧ rm.elwidthSrc = 0b11) →
    exec (.svSuffix rm w1) s = .next (trapped s rm.toWord w1)

/-- 42_extra_registers R179: for any description of a suffix, a sub-field of EXTRA that corresponds to no
operand and is not zero raises IllegalInstruction, and so does bit 18 of `RM-1P-3S1D` on a suffix that
does not use EXTRA2_MODE. -/
def Obligations.UnusedExtraBitsTrap : Prop :=
  ∀ (rm : Rm) (d : Suffix) (w0 w1 : IWord) (s : State),
    ((∃ l, d.layout = some l ∧ ∃ p ∈ layoutStart l, (∀ o ∈ d.operands, o.slot ≠ p.1) ∧
        (if l.isExtra3 then (field rm.extra (p.2 - 10) 3).toNat
          else (field rm.extra (p.2 - 10) 2).toNat) ≠ 0) ∨
      (d.layout = some .rm1P3S1D ∧ d.extra2Mode = false ∧ rm.extra.toNat % 2 = 1)) →
    d.run rm w0 w1 s = .next (trapped s w0 w1)

/-- 43_vector_loop R197: a twin-predicated suffix whose fields are not reserved is refused. -/
def Obligations.TwinPredicationRefused : Prop :=
  ∀ (rm : Rm) (d : Suffix) (w0 w1 : IWord) (s : State), hasTwinLayout d → d.reserved rm = false →
    ∃ r, d.run rm w0 w1 s = .refused r

/-- 43_vector_loop R212, R202: a suffix of SuffixTable that the spec does not instantiate never executes: it
traps if a field is reserved (R192) and is refused otherwise. -/
def Obligations.NamedSuffixNeverExecutes : Prop :=
  ∀ (rm : Rm) (w1 : IWord) (d : Suffix) (s : State), suffixTable w1 = some (.vectoriseable d) →
    d.op = none →
    (d.reserved rm = true → exec (.svSuffix rm w1) s = .next (trapped s rm.toWord w1)) ∧
    (d.reserved rm = false → ∃ r, exec (.svSuffix rm w1) s = .refused r)

/-- 43_vector_loop R213, R214: a prefixed branch, load or store of SuffixTable is refused, in every state, but for
one that moves an FPR under the reserved width bf16 (40_rm_width_subvl_mode R116), which traps or is refused. The
encodings are PRESUMED (log 10), and that each is tagged Vectoriseable is log 40. That `lfs`, `stfs` and their
forms at ELWIDTH f16 are refused and do not trap (R118) is DEDUCED (log 21). That no EXTRA value of a load or store
is a reserved sub-field (42_extra_registers R179), of one with update or without a known layout neither, is
PRESUMED (log 25). -/
def Obligations.LoadStoreBranchSuffixesRefused : Prop :=
  ∀ (rm : Rm) (w1 : IWord) (s : State), isLoadStoreBranch w1 = true →
    (rm.elwidth ≠ 0b11 → rm.elwidthSrc ≠ 0b11 → ∃ r, exec (.svSuffix rm w1) s = .refused r) ∧
    (movesFpr w1 = false → ∃ r, exec (.svSuffix rm w1) s = .refused r) ∧
    (exec (.svSuffix rm w1) s = .next (trapped s rm.toWord w1) ∨
      ∃ r, exec (.svSuffix rm w1) s = .refused r)

/-- 43_vector_loop R198 and R207: a prefixed `add` with Rc = 1 or OE = 1 is refused. -/
def Obligations.RecordAndOverflowFormsRefused : Prop :=
  ∀ (rm : Rm) (rt ra rb : BitVec 5) (oe rc : BitVec 1) (s : State), oe = 1 ∨ rc = 1 →
    ∃ r, exec (.svSuffix rm (addWord rt ra rb oe rc)) s = .refused r

/-- 41_predication R145: whatever suffix is executed with MASKMODE = 1, a next state has every CR field of
the mask as it was; an enabled element that writes one is the fault if every enabled element lies in its files.
60_exceptions R226 puts refusals before the fault: a first enabled element with a source past the end of a
file (10_state R40) is refused, and nothing but that refusal and the fault can come of such a write. -/
def Obligations.CrPredicateNeverOverwritten : Prop :=
  ∀ (rm : Rm) (d : Suffix) (op : ElementOp) (s : State), rm.maskmode = .cr →
    (∀ t, d.execute op rm s = .next t → ∀ k < s.readVl, t.crf[32 + k]? = s.crf[32 + k]?) ∧
    (∀ l ∈ d.locs rm .dest, ∀ i < s.readVl, ∀ c, maskFits rm s → enabled rm s i = true →
      l.crIndex i = some c → 32 ≤ c → c < 32 + s.readVl →
      ((∀ j < s.readVl, enabled rm s j = true → sourcesFit d rm s j ∧ destsFit d rm s j) →
        d.execute op rm s = .fault .crPredicateOverwritten) ∧
      (d.execute op rm s = .fault .crPredicateOverwritten ∨
        d.execute op rm s = .refused .elementPastEnd)) ∧
    ∀ k < s.readVl, maskFits rm s → enabled rm s k = true → (∀ j < k, enabled rm s j = false) →
      ¬ sourcesFit d rm s k → d.execute op rm s = .refused .elementPastEnd

/-! ## The cells that are not SVP64's -/

/-- 30_encoding R94: every word in an empty cell of the prefix opcode map raises IllegalInstruction, in every
state; the same of each of the twelve instructions that stand for the 29 cells. -/
def Obligations.EmptyCellsTrap : Prop :=
  (∀ (w0 w1 : IWord) (s : State), w0.toNat / 2 ^ 26 = 1 → cellOf w0 = some .empty →
    exec (decodePair w0 w1) s = .next (trapped s w0 w1)) ∧
  ∀ (a : BitVec 23) (b : BitVec 22) (c : BitVec 20) (w1 : IWord) (s : State),
    exec (.cell001xxx a w1) s = .next (trapped s (0x04800000 + a.setWidth 32) w1) ∧
    exec (.cell101xxx a w1) s = .next (trapped s (0x06800000 + a.setWidth 32) w1) ∧
    exec (.cell0110xx b w1) s = .next (trapped s (0x05800000 + b.setWidth 32) w1) ∧
    exec (.cell010001 c w1) s = .next (trapped s (0x05100000 + c.setWidth 32) w1) ∧
    exec (.cell010010 c w1) s = .next (trapped s (0x05200000 + c.setWidth 32) w1) ∧
    exec (.cell010011 c w1) s = .next (trapped s (0x05300000 + c.setWidth 32) w1) ∧
    exec (.cell110001 c w1) s = .next (trapped s (0x07100000 + c.setWidth 32) w1) ∧
    exec (.cell110010 c w1) s = .next (trapped s (0x07200000 + c.setWidth 32) w1) ∧
    exec (.cell110011 c w1) s = .next (trapped s (0x07300000 + c.setWidth 32) w1) ∧
    exec (.cell111000 c w1) s = .next (trapped s (0x07800000 + c.setWidth 32) w1) ∧
    exec (.cell111010 c w1) s = .next (trapped s (0x07A00000 + c.setWidth 32) w1) ∧
    exec (.cell111011 c w1) s = .next (trapped s (0x07B00000 + c.setWidth 32) w1)

/-- 30_encoding R95: a v3.1 prefix cell is BASE's to execute if BASE implements v3.1 and otherwise raises
IllegalInstruction; the model's machine has a BASE that does not (the spec's default, log 9). -/
def Obligations.V31CellsTrapWithoutBase : Prop :=
  (∀ (i : Instr) (w0 w1 : IWord) (s : State), encode i = [w0, w1] →
    v31Cell true i s = execBase w0 (some w1) s) ∧
  (∀ (w0 w1 : IWord) (s : State), w0.toNat / 2 ^ 26 = 1 →
    cellOf w0 ∈ [some .c8LS, some .cMLS, some .c8RR, some .cMRR, some .cMMIRR] →
    exec (decodePair w0 w1) s = .next (trapped s w0 w1)) ∧
  ∀ (a : BitVec 23) (c : BitVec 20) (w1 : IWord) (s : State),
    exec (.v31_8ls a w1) s = .next (trapped s (0x04000000 + a.setWidth 32) w1) ∧
    exec (.v31_mls a w1) s = .next (trapped s (0x06000000 + a.setWidth 32) w1) ∧
    exec (.v31_8rr c w1) s = .next (trapped s (0x05000000 + c.setWidth 32) w1) ∧
    exec (.v31_mrr c w1) s = .next (trapped s (0x07000000 + c.setWidth 32) w1) ∧
    exec (.v31_mmirr c w1) s = .next (trapped s (0x07900000 + c.setWidth 32) w1)

/-! ## Traps, the program counter and the whole machine -/

/-- 60_exceptions R222: at the trap no GPR, FPR, CR field, memory location or SVSTATE field has been
changed, and pc still addresses the first word. -/
def Obligations.TrapIsPrecise : Prop :=
  ∀ (i : Instr) (s t : State), s.hart = .running → exec i s = .next t → t.hart ≠ .running →
    ∃ w0 w1, encode i = [w0, w1] ∧ t = trapped s w0 w1

/-- 60_exceptions R222 and R226, 43_vector_loop R192: whether an instruction traps depends on its words
alone, never on VL, a register, a mask or pc. -/
def Obligations.TrapDependsOnWordsAlone : Prop :=
  ∀ (i : Instr) (s s' t : State), s.hart = .running → s'.hart = .running → exec i s = .next t →
    t.hart ≠ .running → ∃ w0 w1, encode i = [w0, w1] ∧ exec i s' = .next (trapped s' w0 w1)

/-- 10_state R49, 60_exceptions R231: an instruction that completes advances pc past its own words, by 8 if it is
prefixed, by 4 if not, modulo 2^64, and advances BASE's timers by that step's unspecified amount
(log 39). -/
def Obligations.PcAdvancesByLength : Prop :=
  ∀ (i : Instr) (s t : State), exec i s = .next t → t.hart = .running →
    t.pc.toNat = (s.pc.toNat + 4 * (encode i).length) % 2 ^ 64 ∧
      t.time = s.time + Config.ticks s.steps

/-- 10_state R42 and 43_vector_loop R204, R211: no instruction of the opcode table writes VL, MSR, an FPR, a CR
field, memory or BASE's own state, and so no step but one that BASE executes. BASE's own state is here all but
the ticks of its timers, which advance (60_exceptions R231, log 39). -/
def Obligations.OnlyGprsPcAndHartChange : Prop :=
  (∀ (i : Instr) (s t : State), exec i s = .next t → sameBut s t) ∧
  ∀ s t : State, step s = .next t → (∀ w, fetchInstr s ≠ .ok (.base w)) → sameBut s t

/-- 10_state R38: MSR.LE has nothing to do with register-register operations: changing it before an
instruction changes the outcome in MSR alone. -/
def Obligations.MsrLeDoesNotTouchRegisters : Prop :=
  ∀ (i : Instr) (s : State) (m : Msr), exec i { s with msr := m } =
    match exec i s with
    | .next t => .next { t with msr := m }
    | .fault f => .fault f
    | .refused r => .refused r

/-- 20_memory R63: `sv.add` whose first word is the last word of a 64-byte block is refused. That this refusal is
the one named where MODE, SUBVL or the widths would refuse too is the model's choice (log 12). -/
def Obligations.CrossingBlockRefused : Prop :=
  ∀ (rm : Rm) (rt ra rb : BitVec 5) (s : State), s.pc.toNat % 64 = 60 →
    exec (.svAdd rm rt ra rb) s = .refused .crosses64

/-- 43_vector_loop R202 and 20_memory R63: every refusal of step 6, which the words and pc decide, by name, for
any description of a suffix with no reserved field, at whatever element widths; and those of `sv.add`
(R208): MODE, SUBVL or unequal element widths; and those of a CR-only suffix with MODE and SUBVL zero
(40_rm_width_subvl_mode R120): `RM[4:7]` not zero is refused under its own name, and zero, "no other purpose
selected", as not instantiated. The order among the refusals is the model's (log 12). The encodings of the CR-only
instructions and the operand BI of a conditional branch are PRESUMED (logs 10 and 25), and that they are
Vectoriseable is log 40. -/
def Obligations.FormsRefused : Prop :=
  (∀ (rm : Rm) (d : Suffix) (w0 w1 : IWord) (s : State), d.reserved rm = false →
    (s.pc.toNat % 64 = 60 → d.run rm w0 w1 s = .refused .crosses64) ∧
    (s.pc.toNat % 64 ≠ 60 → rm.mode ≠ 0 → d.run rm w0 w1 s = .refused .mode) ∧
    (s.pc.toNat % 64 ≠ 60 → rm.mode = 0 → rm.subvl ≠ 0 → d.run rm w0 w1 s = .refused .subvl) ∧
    (s.pc.toNat % 64 ≠ 60 → rm.mode = 0 → rm.subvl = 0 →
      (allCr d → rm.elwidth ≠ 0 ∨ rm.elwidthSrc ≠ 0 → d.run rm w0 w1 s = .refused .crOpElwidthBits) ∧
      (¬ allCr d → rm.elwidth ≠ rm.elwidthSrc → d.run rm w0 w1 s = .refused .mixedElwidth) ∧
      (rm.elwidth = rm.elwidthSrc → rm.elwidth ≠ 0 → hasFpr d →
        d.run rm w0 w1 s = .refused .fpElwidth) ∧
      (rm.elwidth = rm.elwidthSrc → rm.elwidth = 0 ∨ ¬ allCr d ∧ ¬ hasFpr d →
        (hasTwinLayout d → d.run rm w0 w1 s = .refused .twinPredication) ∧
        (¬ hasTwinLayout d → d.rc = true → d.run rm w0 w1 s = .refused .rc1) ∧
        (¬ hasTwinLayout d → d.rc = false → d.oe = true → d.run rm w0 w1 s = .refused .oe1) ∧
        (¬ hasTwinLayout d → d.rc = false → d.oe = false → d.op = none →
          d.run rm w0 w1 s = .refused .suffixNotInstantiated)))) ∧
  (∀ (rm : Rm) (rt ra rb : BitVec 5) (s : State), s.pc.toNat % 64 ≠ 60 →
    (rm.mode ≠ 0 → exec (.svAdd rm rt ra rb) s = .refused .mode) ∧
    (rm.mode = 0 → rm.subvl ≠ 0 → exec (.svAdd rm rt ra rb) s = .refused .subvl) ∧
    (rm.mode = 0 → rm.subvl = 0 → rm.elwidth ≠ rm.elwidthSrc →
      exec (.svAdd rm rt ra rb) s = .refused .mixedElwidth)) ∧
  ∀ (rm : Rm) (w1 : IWord) (s : State), isCrOnlyWord w1 = true → s.pc.toNat % 64 ≠ 60 → rm.mode = 0 →
    rm.subvl = 0 →
    (rm.elwidth ≠ 0 ∨ rm.elwidthSrc ≠ 0 → exec (.svSuffix rm w1) s = .refused .crOpElwidthBits) ∧
    (rm.elwidth = 0 → rm.elwidthSrc = 0 → exec (.svSuffix rm w1) s = .refused .suffixNotInstantiated)

/-- The bytes at pc decode to an instruction: the step is that instruction's meaning, which itself advances
pc (43_vector_loop R191). -/
def Obligations.StepRunsDecodedInstruction : Prop :=
  ∀ (s : State) (bytes : List Byte) (i : Instr) (rest : List Byte), s.hart = .running →
    s.pc.toNat % 4 = 0 →
    (∀ k, (hk : k < bytes.length) → s.mem.read (s.pc + BitVec.ofNat 64 k).toNat = some bytes[k]) →
    decode bytes = .ok (i, rest) → step s = exec i s

/-- 30_encoding R97, 00_scope R7: an unprefixed word other than `add` at pc is BASE's to execute, and whatever
BASE does (a constant without a value, log 14) the step completes. It leaves what BASE gives, and SVSTATE.VL
as BASE writes it, if it does; a VL above 127 raises IllegalInstruction and changes nothing else
(10_state R46). Registers from r32, fp32 and CR8 upwards (10_state R30 to R32) are as before, pc is a
multiple of 4 (10_state R49), and what BASE leaves in its own part of the state depends on that part
and on the number of the step, which gives its timers' ticks (log 39), alone. -/
def Obligations.UnprefixedBaseWordRunsBase : Prop :=
  ∀ (s : State) (w : IWord), s.hart = .running → s.pc.toNat % 4 = 0 →
    fetchWord Config.ifetchLE s.mem s.pc = some w → isExt01 w = false → isPlainAdd w = false →
    ∃ t, step s = .next t ∧
      ((Config.baseStep w none s.baseView).vl = none →
        t = s.withBase (Config.baseStep w none s.baseView)) ∧
      (∀ v, (Config.baseStep w none s.baseView).vl = some v →
        ((h : v < 128) → t = { s.withBase (Config.baseStep w none s.baseView) with svstate := ⟨⟨v, h⟩⟩ }) ∧
        (128 ≤ v → t = { s with hart := .trapped ⟨.illegalInstruction, s.pc, w, none⟩ })) ∧
      (∀ r : Fin 128, 32 ≤ r.val → t.gpr[r] = s.gpr[r] ∧ t.fpr[r] = s.fpr[r]) ∧
      (∀ r : Fin 128, 8 ≤ r.val → t.crf[r] = s.crf[r]) ∧ t.pc.toNat % 4 = 0 ∧
      ∀ s' : State, s'.hart = .running → s'.baseView = s.baseView → s'.steps = s.steps →
        ∃ t', step s' = .next t' ∧ t'.baseView = t.baseView

/-- A hart that a trap has stopped answers the fault that names the trap (60_exceptions R223; the shape of
the outcome is the model's choice, log 1). -/
def Obligations.TrappedHartStays : Prop :=
  ∀ (s : State) (t : Trap), s.hart = .trapped t → step s = .fault (.trapped t)

/-- Every step keeps the invariant: memory canonical, pc a multiple of 4 (10_state R49), and a trap the
hart is stopped in is that of the words memory holds at pc (60_exceptions R222). -/
def Obligations.StepKeepsInv : Prop :=
  ∀ s t : State, s.Inv → step s = .next t → t.Inv

/-- The state after reset meets the invariant. The reset values it rests on, the hart running, pc = 0 and
nothing listed in memory, are the model's choice (logs 1, 6 and 7). -/
def Obligations.ResetMeetsInv : Prop := State.reset.Inv

/-- The values after reset, each the model's choice (logs 1 to 7 and 24): the spec gives none
(10_state R51). -/
def Obligations.ResetValues : Prop :=
  (∀ r : Fin 128, State.reset.gpr[r] = 0 ∧ State.reset.fpr[r] = 0 ∧
    State.reset.crf[r] = ⟨false, false, false, false⟩) ∧
  State.reset.readVl = 0 ∧ State.reset.msr.le = true ∧ State.reset.pc = 0 ∧
  (∀ a, State.reset.mem.read a = none) ∧ State.reset.hart = .running ∧ State.reset.base = 0

/-! ## Memory and the operations BASE calls -/

/-- 20_memory R62: the word fetched from four bytes: with IFETCH_LE the byte at the lowest address is the
least significant, without it the most significant; the machine has IFETCH_LE (the spec's default,
log 8). A word that runs over the top of memory goes on at address 0 (the model's choice, log 15). -/
def Obligations.FetchWordByteOrder : Prop :=
  Config.ifetchLE = true ∧
  ∀ (m : Memory) (a : Word) (b0 b1 b2 b3 : Byte), m.read a.toNat = some b0 →
    m.read (a + 1).toNat = some b1 → m.read (a + 2).toNat = some b2 → m.read (a + 3).toNat = some b3 →
    (∃ w, fetchWord true m a = some w ∧
      w.toNat = b0.toNat + 2 ^ 8 * b1.toNat + 2 ^ 16 * b2.toNat + 2 ^ 24 * b3.toNat) ∧
    ∃ w, fetchWord false m a = some w ∧
      w.toNat = b3.toNat + 2 ^ 8 * b2.toNat + 2 ^ 16 * b1.toNat + 2 ^ 24 * b0.toNat

/-- 20_memory R61: BASE's memory primitives in the byte order of MSR.LE: what is written is read back, each
byte lies where MSR.LE puts it, every other byte of memory reads as before, and memory stays canonical.
That a misaligned access completes, and that one over the top of memory wraps, is the model's choice
(logs 35 and 15). -/
def Obligations.DataByteOrderIsMsrLe : Prop :=
  ∀ (s : State) (a : Word) (n v : Nat), n ≤ 2 ^ 64 →
    (s.memWrite a n v).memRead a n = some (v % 256 ^ n) ∧
    (∀ k < n, (s.memWrite a n v).mem.read (a + BitVec.ofNat 64 k).toNat =
      some (BitVec.ofNat 8 (v / 256 ^ (if s.msr.le then k else n - 1 - k)))) ∧
    (∀ x, (∀ k < n, x ≠ (a + BitVec.ofNat 64 k).toNat) → (s.memWrite a n v).mem.read x = s.mem.read x) ∧
    (s.mem.wf → (s.memWrite a n v).mem.wf)

/-- 10_state R46, R42: a write of SVSTATE.VL takes every value up to VLMAX = 127, with nothing else changed
before the writing instruction's other effects, and raises IllegalInstruction for any other value, with
none of them. -/
def Obligations.WriteVlSupportsUpTo127 : Prop :=
  ∀ (s : State) (w0 : IWord) (w1 : Option IWord) (v : Nat) (rest : State → State),
    (v ≤ 127 → ∃ t, s.writeVl w0 w1 v rest = .next (rest t) ∧ t.readVl = v ∧ t.gpr = s.gpr ∧
      sameBut { s with svstate := t.svstate } t ∧ t.pc = s.pc ∧ t.hart = s.hart ∧ t.steps = s.steps) ∧
    (127 < v → s.writeVl w0 w1 v rest =
      .next { s with hart := .trapped ⟨.illegalInstruction, s.pc, w0, w1⟩ })

/-- 60_exceptions R227: after emulating the trapped 64-bit instruction the hart resumes at pc + 8, past both
words. That resuming is an operation no step calls and leaves all else as it was before the trap (log 29),
with no ticks passed for trap and resumption (log 39), is the model's choice. -/
def Obligations.EmulatorResumesPastBothWords : Prop :=
  ∀ (i : Instr) (s t : State), s.hart = .running → exec i s = .next t → t.hart ≠ .running →
    t.resumeAfterEmulation = { s with pc := s.pc + 8 }
end

