-- ==== Sys2Proof/Laws/State.lean ====
section
/-!
SUPPORT. Laws/State.lean: what each update does to each field, so that no later proof unfolds a record update.
-/

namespace Sys2Proof.Machine

namespace State

variable (s : State)

@[simp] theorem setGpr_gpr (v : RegFile) : (s.setGpr v).gpr = v := rfl
@[simp] theorem setGpr_fpr (v : RegFile) : (s.setGpr v).fpr = s.fpr := rfl
@[simp] theorem setGpr_crf (v : RegFile) : (s.setGpr v).crf = s.crf := rfl
@[simp] theorem setGpr_svstate (v : RegFile) : (s.setGpr v).svstate = s.svstate := rfl
@[simp] theorem setGpr_msr (v : RegFile) : (s.setGpr v).msr = s.msr := rfl
@[simp] theorem setGpr_pc (v : RegFile) : (s.setGpr v).pc = s.pc := rfl
@[simp] theorem setGpr_mem (v : RegFile) : (s.setGpr v).mem = s.mem := rfl
@[simp] theorem setGpr_hart (v : RegFile) : (s.setGpr v).hart = s.hart := rfl
@[simp] theorem setGpr_base (v : RegFile) : (s.setGpr v).base = s.base := rfl
@[simp] theorem setGpr_steps (v : RegFile) : (s.setGpr v).steps = s.steps := rfl

@[simp] theorem setFpr_gpr (v : RegFile) : (s.setFpr v).gpr = s.gpr := rfl
@[simp] theorem setFpr_fpr (v : RegFile) : (s.setFpr v).fpr = v := rfl
@[simp] theorem setFpr_crf (v : RegFile) : (s.setFpr v).crf = s.crf := rfl
@[simp] theorem setFpr_svstate (v : RegFile) : (s.setFpr v).svstate = s.svstate := rfl
@[simp] theorem setFpr_msr (v : RegFile) : (s.setFpr v).msr = s.msr := rfl
@[simp] theorem setFpr_pc (v : RegFile) : (s.setFpr v).pc = s.pc := rfl
@[simp] theorem setFpr_mem (v : RegFile) : (s.setFpr v).mem = s.mem := rfl
@[simp] theorem setFpr_hart (v : RegFile) : (s.setFpr v).hart = s.hart := rfl
@[simp] theorem setFpr_base (v : RegFile) : (s.setFpr v).base = s.base := rfl
@[simp] theorem setFpr_steps (v : RegFile) : (s.setFpr v).steps = s.steps := rfl

@[simp] theorem setCrf_gpr (v : CrFile) : (s.setCrf v).gpr = s.gpr := rfl
@[simp] theorem setCrf_fpr (v : CrFile) : (s.setCrf v).fpr = s.fpr := rfl
@[simp] theorem setCrf_crf (v : CrFile) : (s.setCrf v).crf = v := rfl
@[simp] theorem setCrf_svstate (v : CrFile) : (s.setCrf v).svstate = s.svstate := rfl
@[simp] theorem setCrf_msr (v : CrFile) : (s.setCrf v).msr = s.msr := rfl
@[simp] theorem setCrf_pc (v : CrFile) : (s.setCrf v).pc = s.pc := rfl
@[simp] theorem setCrf_mem (v : CrFile) : (s.setCrf v).mem = s.mem := rfl
@[simp] theorem setCrf_hart (v : CrFile) : (s.setCrf v).hart = s.hart := rfl
@[simp] theorem setCrf_base (v : CrFile) : (s.setCrf v).base = s.base := rfl
@[simp] theorem setCrf_steps (v : CrFile) : (s.setCrf v).steps = s.steps := rfl

@[simp] theorem setSvstate_gpr (v : Svstate) : (s.setSvstate v).gpr = s.gpr := rfl
@[simp] theorem setSvstate_fpr (v : Svstate) : (s.setSvstate v).fpr = s.fpr := rfl
@[simp] theorem setSvstate_crf (v : Svstate) : (s.setSvstate v).crf = s.crf := rfl
@[simp] theorem setSvstate_svstate (v : Svstate) : (s.setSvstate v).svstate = v := rfl
@[simp] theorem setSvstate_msr (v : Svstate) : (s.setSvstate v).msr = s.msr := rfl
@[simp] theorem setSvstate_pc (v : Svstate) : (s.setSvstate v).pc = s.pc := rfl
@[simp] theorem setSvstate_mem (v : Svstate) : (s.setSvstate v).mem = s.mem := rfl
@[simp] theorem setSvstate_hart (v : Svstate) : (s.setSvstate v).hart = s.hart := rfl
@[simp] theorem setSvstate_base (v : Svstate) : (s.setSvstate v).base = s.base := rfl
@[simp] theorem setSvstate_steps (v : Svstate) : (s.setSvstate v).steps = s.steps := rfl

@[simp] theorem setMsr_gpr (v : Msr) : (s.setMsr v).gpr = s.gpr := rfl
@[simp] theorem setMsr_fpr (v : Msr) : (s.setMsr v).fpr = s.fpr := rfl
@[simp] theorem setMsr_crf (v : Msr) : (s.setMsr v).crf = s.crf := rfl
@[simp] theorem setMsr_svstate (v : Msr) : (s.setMsr v).svstate = s.svstate := rfl
@[simp] theorem setMsr_msr (v : Msr) : (s.setMsr v).msr = v := rfl
@[simp] theorem setMsr_pc (v : Msr) : (s.setMsr v).pc = s.pc := rfl
@[simp] theorem setMsr_mem (v : Msr) : (s.setMsr v).mem = s.mem := rfl
@[simp] theorem setMsr_hart (v : Msr) : (s.setMsr v).hart = s.hart := rfl
@[simp] theorem setMsr_base (v : Msr) : (s.setMsr v).base = s.base := rfl
@[simp] theorem setMsr_steps (v : Msr) : (s.setMsr v).steps = s.steps := rfl

@[simp] theorem setPc_gpr (v : Word) : (s.setPc v).gpr = s.gpr := rfl
@[simp] theorem setPc_fpr (v : Word) : (s.setPc v).fpr = s.fpr := rfl
@[simp] theorem setPc_crf (v : Word) : (s.setPc v).crf = s.crf := rfl
@[simp] theorem setPc_svstate (v : Word) : (s.setPc v).svstate = s.svstate := rfl
@[simp] theorem setPc_msr (v : Word) : (s.setPc v).msr = s.msr := rfl
@[simp] theorem setPc_pc (v : Word) : (s.setPc v).pc = v := rfl
@[simp] theorem setPc_mem (v : Word) : (s.setPc v).mem = s.mem := rfl
@[simp] theorem setPc_hart (v : Word) : (s.setPc v).hart = s.hart := rfl
@[simp] theorem setPc_base (v : Word) : (s.setPc v).base = s.base := rfl
@[simp] theorem setPc_steps (v : Word) : (s.setPc v).steps = s.steps := rfl

@[simp] theorem setMem_gpr (v : Memory) : (s.setMem v).gpr = s.gpr := rfl
@[simp] theorem setMem_fpr (v : Memory) : (s.setMem v).fpr = s.fpr := rfl
@[simp] theorem setMem_crf (v : Memory) : (s.setMem v).crf = s.crf := rfl
@[simp] theorem setMem_svstate (v : Memory) : (s.setMem v).svstate = s.svstate := rfl
@[simp] theorem setMem_msr (v : Memory) : (s.setMem v).msr = s.msr := rfl
@[simp] theorem setMem_pc (v : Memory) : (s.setMem v).pc = s.pc := rfl
@[simp] theorem setMem_mem (v : Memory) : (s.setMem v).mem = v := rfl
@[simp] theorem setMem_hart (v : Memory) : (s.setMem v).hart = s.hart := rfl
@[simp] theorem setMem_base (v : Memory) : (s.setMem v).base = s.base := rfl
@[simp] theorem setMem_steps (v : Memory) : (s.setMem v).steps = s.steps := rfl

@[simp] theorem setHart_gpr (v : Hart) : (s.setHart v).gpr = s.gpr := rfl
@[simp] theorem setHart_fpr (v : Hart) : (s.setHart v).fpr = s.fpr := rfl
@[simp] theorem setHart_crf (v : Hart) : (s.setHart v).crf = s.crf := rfl
@[simp] theorem setHart_svstate (v : Hart) : (s.setHart v).svstate = s.svstate := rfl
@[simp] theorem setHart_msr (v : Hart) : (s.setHart v).msr = s.msr := rfl
@[simp] theorem setHart_pc (v : Hart) : (s.setHart v).pc = s.pc := rfl
@[simp] theorem setHart_mem (v : Hart) : (s.setHart v).mem = s.mem := rfl
@[simp] theorem setHart_hart (v : Hart) : (s.setHart v).hart = v := rfl
@[simp] theorem setHart_base (v : Hart) : (s.setHart v).base = s.base := rfl
@[simp] theorem setHart_steps (v : Hart) : (s.setHart v).steps = s.steps := rfl

@[simp] theorem setBase_gpr (v : BaseState) : (s.setBase v).gpr = s.gpr := rfl
@[simp] theorem setBase_fpr (v : BaseState) : (s.setBase v).fpr = s.fpr := rfl
@[simp] theorem setBase_crf (v : BaseState) : (s.setBase v).crf = s.crf := rfl
@[simp] theorem setBase_svstate (v : BaseState) : (s.setBase v).svstate = s.svstate := rfl
@[simp] theorem setBase_msr (v : BaseState) : (s.setBase v).msr = s.msr := rfl
@[simp] theorem setBase_pc (v : BaseState) : (s.setBase v).pc = s.pc := rfl
@[simp] theorem setBase_mem (v : BaseState) : (s.setBase v).mem = s.mem := rfl
@[simp] theorem setBase_hart (v : BaseState) : (s.setBase v).hart = s.hart := rfl
@[simp] theorem setBase_base (v : BaseState) : (s.setBase v).base = v := rfl
@[simp] theorem setBase_steps (v : BaseState) : (s.setBase v).steps = s.steps := rfl

@[simp] theorem tick_gpr : s.tick.gpr = s.gpr := rfl
@[simp] theorem tick_fpr : s.tick.fpr = s.fpr := rfl
@[simp] theorem tick_crf : s.tick.crf = s.crf := rfl
@[simp] theorem tick_svstate : s.tick.svstate = s.svstate := rfl
@[simp] theorem tick_msr : s.tick.msr = s.msr := rfl
@[simp] theorem tick_pc : s.tick.pc = s.pc := rfl
@[simp] theorem tick_mem : s.tick.mem = s.mem := rfl
@[simp] theorem tick_hart : s.tick.hart = s.hart := rfl
@[simp] theorem tick_base : s.tick.base = s.base := rfl
@[simp] theorem tick_steps : s.tick.steps = s.steps + 1 := rfl

@[simp] theorem advance_gpr (n : Nat) : (s.advance n).gpr = s.gpr := rfl
@[simp] theorem advance_fpr (n : Nat) : (s.advance n).fpr = s.fpr := rfl
@[simp] theorem advance_crf (n : Nat) : (s.advance n).crf = s.crf := rfl
@[simp] theorem advance_svstate (n : Nat) : (s.advance n).svstate = s.svstate := rfl
@[simp] theorem advance_msr (n : Nat) : (s.advance n).msr = s.msr := rfl
@[simp] theorem advance_pc (n : Nat) : (s.advance n).pc = s.pc + BitVec.ofNat 64 n := rfl
@[simp] theorem advance_mem (n : Nat) : (s.advance n).mem = s.mem := rfl
@[simp] theorem advance_hart (n : Nat) : (s.advance n).hart = s.hart := rfl
@[simp] theorem advance_base (n : Nat) : (s.advance n).base = s.base := rfl
@[simp] theorem advance_steps (n : Nat) : (s.advance n).steps = s.steps + 1 := rfl

@[simp] theorem setGpr5_gpr (r : BitVec 5) (v : Word) : (s.setGpr5 r v).gpr = s.gpr.set r.toNat v := rfl
@[simp] theorem setGpr5_fpr (r : BitVec 5) (v : Word) : (s.setGpr5 r v).fpr = s.fpr := rfl
@[simp] theorem setGpr5_crf (r : BitVec 5) (v : Word) : (s.setGpr5 r v).crf = s.crf := rfl
@[simp] theorem setGpr5_svstate (r : BitVec 5) (v : Word) : (s.setGpr5 r v).svstate = s.svstate := rfl
@[simp] theorem setGpr5_msr (r : BitVec 5) (v : Word) : (s.setGpr5 r v).msr = s.msr := rfl
@[simp] theorem setGpr5_pc (r : BitVec 5) (v : Word) : (s.setGpr5 r v).pc = s.pc := rfl
@[simp] theorem setGpr5_mem (r : BitVec 5) (v : Word) : (s.setGpr5 r v).mem = s.mem := rfl
@[simp] theorem setGpr5_hart (r : BitVec 5) (v : Word) : (s.setGpr5 r v).hart = s.hart := rfl
@[simp] theorem setGpr5_base (r : BitVec 5) (v : Word) : (s.setGpr5 r v).base = s.base := rfl
@[simp] theorem setGpr5_steps (r : BitVec 5) (v : Word) : (s.setGpr5 r v).steps = s.steps := rfl

@[simp] theorem trap_gpr (w0 : IWord) (w1 : Option IWord) : (s.trap w0 w1).gpr = s.gpr := rfl
@[simp] theorem trap_fpr (w0 : IWord) (w1 : Option IWord) : (s.trap w0 w1).fpr = s.fpr := rfl
@[simp] theorem trap_crf (w0 : IWord) (w1 : Option IWord) : (s.trap w0 w1).crf = s.crf := rfl
@[simp] theorem trap_svstate (w0 : IWord) (w1 : Option IWord) : (s.trap w0 w1).svstate = s.svstate := rfl
@[simp] theorem trap_msr (w0 : IWord) (w1 : Option IWord) : (s.trap w0 w1).msr = s.msr := rfl
@[simp] theorem trap_pc (w0 : IWord) (w1 : Option IWord) : (s.trap w0 w1).pc = s.pc := rfl
@[simp] theorem trap_mem (w0 : IWord) (w1 : Option IWord) : (s.trap w0 w1).mem = s.mem := rfl
@[simp] theorem trap_hart (w0 : IWord) (w1 : Option IWord) : (s.trap w0 w1).hart = .trapped ⟨.illegalInstruction, s.pc, w0, w1⟩ := rfl
@[simp] theorem trap_base (w0 : IWord) (w1 : Option IWord) : (s.trap w0 w1).base = s.base := rfl
@[simp] theorem trap_steps (w0 : IWord) (w1 : Option IWord) : (s.trap w0 w1).steps = s.steps := rfl

@[simp] theorem memWrite_gpr (a : Word) (n v : Nat) : (s.memWrite a n v).gpr = s.gpr := rfl
@[simp] theorem memWrite_fpr (a : Word) (n v : Nat) : (s.memWrite a n v).fpr = s.fpr := rfl
@[simp] theorem memWrite_msr (a : Word) (n v : Nat) : (s.memWrite a n v).msr = s.msr := rfl
@[simp] theorem memWrite_pc (a : Word) (n v : Nat) : (s.memWrite a n v).pc = s.pc := rfl
@[simp] theorem memWrite_hart (a : Word) (n v : Nat) : (s.memWrite a n v).hart = s.hart := rfl
@[simp] theorem memWrite_base (a : Word) (n v : Nat) : (s.memWrite a n v).base = s.base := rfl
@[simp] theorem memWrite_steps (a : Word) (n v : Nat) : (s.memWrite a n v).steps = s.steps := rfl

@[simp] theorem withBase_gpr (r : BaseResult) : (s.withBase r).gpr = replaceLow s.gpr r.gpr := rfl
@[simp] theorem withBase_fpr (r : BaseResult) : (s.withBase r).fpr = replaceLow s.fpr r.fpr := rfl
@[simp] theorem withBase_crf (r : BaseResult) : (s.withBase r).crf = replaceLow s.crf r.cr := rfl
@[simp] theorem withBase_svstate (r : BaseResult) : (s.withBase r).svstate = s.svstate := by
  simp only [State.withBase]
@[simp] theorem withBase_msr (r : BaseResult) : (s.withBase r).msr = r.msr := rfl
@[simp] theorem withBase_pc (r : BaseResult) : (s.withBase r).pc = r.pcWord ++ 0#2 := rfl
@[simp] theorem withBase_mem (r : BaseResult) : (s.withBase r).mem = s.mem.store r.stores := rfl
@[simp] theorem withBase_hart (r : BaseResult) : (s.withBase r).hart = s.hart := by
  simp only [State.withBase]
@[simp] theorem withBase_base (r : BaseResult) : (s.withBase r).base = r.own := rfl
@[simp] theorem withBase_steps (r : BaseResult) : (s.withBase r).steps = s.steps + 1 := rfl

/-- A completed instruction advances BASE's timers by that step's unspecified amount (60_exceptions R231). -/
@[simp] theorem advance_time (n : Nat) : (s.advance n).time = s.time + Config.ticks s.steps := rfl

/-- Two states with equal fields are equal. -/
theorem ext_fields {s t : State} (h1 : s.gpr = t.gpr) (h2 : s.fpr = t.fpr) (h3 : s.crf = t.crf)
    (h4 : s.svstate = t.svstate) (h5 : s.msr = t.msr) (h6 : s.pc = t.pc) (h7 : s.mem = t.mem)
    (h8 : s.hart = t.hart) (h9 : s.base = t.base) (h10 : s.steps = t.steps) :
    s = t := by
  cases s; cases t; simp_all

end State

end Sys2Proof.Machine
end

