-- ==== Sys2Proof/Laws/Memory.lean ====
section
/-!
SUPPORT. Laws/Memory.lean: memory keeps its canonical form, and a read sees the last write.
-/

namespace Sys2Proof.Machine

namespace Memory

theorem read_write_same (m : Memory) (a : Nat) (b : Byte) : (m.write a b).read a = some b := by
  induction m with
  | nil => simp [write, read]
  | cons c rest ih =>
    unfold write
    split
    · simp [read]
    · split
      · simp [read]
      · rename_i h
        have : c.1 ≠ a := fun e => h e.symm
        simp [read, this, ih]

theorem read_write_other (m : Memory) (a x : Nat) (b : Byte) (h : x ≠ a) :
    (m.write a b).read x = m.read x := by
  induction m with
  | nil => simp [write, read, Ne.symm h]
  | cons c rest ih =>
    unfold write
    split
    · simp [read, Ne.symm h]
    · split
      · rename_i e; subst e; simp [read, Ne.symm h]
      · simp [read, ih]

theorem mem_write {m : Memory} {a : Nat} {b : Byte} {c : Host.Cell} (h : c ∈ m.write a b) :
    c = (a, b) ∨ c ∈ m := by
  induction m with
  | nil => simpa [write] using h
  | cons d rest ih =>
    unfold write at h
    split at h
    · simpa using h
    · split at h
      · rcases List.mem_cons.mp h with h | h
        · exact .inl h
        · exact .inr (List.mem_cons_of_mem _ h)
      · rcases List.mem_cons.mp h with h | h
        · exact .inr (h ▸ List.mem_cons_self)
        · exact (ih h).imp_right (List.mem_cons_of_mem _)

/-- Writing a byte keeps the canonical form. -/
theorem write_wf {m : Memory} {a : Nat} {b : Byte} (ha : a < 2 ^ 64) (h : m.wf) : (m.write a b).wf := by
  refine ⟨?_, fun c hc => ?_⟩
  · have hp := h.1
    clear h
    induction m with
    | nil => simp [write]
    | cons c rest ih =>
      have hc := List.pairwise_cons.mp hp
      unfold write
      split
      · rename_i hlt
        refine List.pairwise_cons.mpr ⟨fun x hx => ?_, hp⟩
        rcases List.mem_cons.mp hx with rfl | hx
        · exact hlt
        · exact hlt.trans (hc.1 x hx)
      · split
        · rename_i e
          exact List.pairwise_cons.mpr ⟨fun x hx => e ▸ hc.1 x hx, hc.2⟩
        · rename_i hnlt hne
          refine List.pairwise_cons.mpr ⟨fun x hx => ?_, ih hc.2⟩
          rcases mem_write hx with rfl | hx
          · show c.1 < a
            omega
          · exact hc.1 x hx
  · rcases mem_write hc with rfl | hc
    · exact ha
    · exact h.2 c hc

/-- Storing bytes keeps the canonical form. -/
theorem writeBytes_wf {m : Memory} {a : Word} {bs : List Byte} (h : m.wf) : (m.writeBytes a bs).wf := by
  induction bs generalizing m a with
  | nil => exact h
  | cons b bs ih => exact ih (write_wf a.isLt h)

/-- Storing single bytes keeps the canonical form. -/
theorem store_wf {m : Memory} {cs : List (Word × Byte)} (h : m.wf) : (m.store cs).wf := by
  induction cs generalizing m with
  | nil => exact h
  | cons c cs ih => exact ih (write_wf c.1.isLt h)

/-- Every byte outside the stored ones reads as before. -/
theorem read_writeBytes_other {m : Memory} {a : Word} {bs : List Byte} {x : Nat}
    (h : ∀ k < bs.length, x ≠ (a + BitVec.ofNat 64 k).toNat) : (m.writeBytes a bs).read x = m.read x := by
  induction bs generalizing m a with
  | nil => rfl
  | cons b bs ih =>
    unfold writeBytes
    rw [ih fun k hk => ?_, read_write_other _ _ _ _ (by simpa using h 0 (by simp))]
    have := h (k + 1) (by simpa using hk)
    rwa [show a + BitVec.ofNat 64 (k + 1) = a + 1 + BitVec.ofNat 64 k by
      rw [Nat.add_comm, BitVec.ofNat_add, ← BitVec.add_assoc]; rfl] at this

/-- Bytes just stored are read back, if they do not wrap onto themselves. -/
theorem readBytes_writeBytes {m : Memory} {a : Word} {bs : List Byte} (h : bs.length ≤ 2 ^ 64) :
    (m.writeBytes a bs).readBytes a bs.length = some bs := by
  induction bs generalizing m a with
  | nil => rfl
  | cons b bs ih =>
    have hl : bs.length < 2 ^ 64 := by simpa using h
    have hb : (writeBytes m a (b :: bs)).read a.toNat = some b := by
      unfold writeBytes
      rw [read_writeBytes_other, read_write_same]
      intro k hk e
      have hk' : k + 1 < 2 ^ 64 := by omega
      have := congrArg BitVec.toNat (BitVec.eq_of_toNat_eq e : a = a + 1 + BitVec.ofNat 64 k)
      have ha := a.isLt
      simp [BitVec.toNat_add] at this
      omega
    have hr : (writeBytes m a (b :: bs)).readBytes (a + 1) bs.length = some bs := ih (by omega)
    rw [List.length_cons, readBytes, hb, hr]

end Memory

/-- Placing an instruction keeps memory canonical. -/
theorem withFetchBytes_wf {s : State} {bs : List Byte} (h : s.mem.wf) : (s.withFetchBytes bs).mem.wf :=
  Memory.writeBytes_wf h

theorem memWrite_wf {s : State} {a : Word} {n v : Nat} (h : s.mem.wf) : (s.memWrite a n v).mem.wf :=
  Memory.writeBytes_wf h

/-- An instruction of BASE keeps memory canonical. -/
theorem withBase_mem_wf {s : State} {r : BaseResult} (h : s.mem.wf) : (s.withBase r).mem.wf :=
  Memory.store_wf h

theorem reset_mem_wf : State.reset.mem.wf := ⟨List.Pairwise.nil, fun _ h => by cases h⟩

end Sys2Proof.Machine
end

