-- ==== Sys2Proof/Laws/Base.lean ====
section
/-!
SUPPORT. Laws/Base.lean: all that an instruction of BASE can change.
-/

namespace Sys2Proof.Machine

theorem lowPart_getElem {α : Type} {n : Nat} (h : n ≤ 128) (f : Vector α 128) (i : Nat) (hi : i < n) :
    (lowPart n h f)[i] = f[i] := by
  simp [lowPart]

theorem replaceLow_getElem {α : Type} {n : Nat} (f : Vector α 128) (low : Vector α n) (i : Nat)
    (hi : i < 128) : (replaceLow f low)[i] = if h : i < n then low[i] else f[i] := by
  simp [replaceLow]

/-- The low part of a file whose low part has been replaced. -/
theorem lowPart_replaceLow {α : Type} {n : Nat} (h : n ≤ 128) (f : Vector α 128) (low : Vector α n) :
    lowPart n h (replaceLow f low) = low := by
  apply Vector.ext
  intro i hi
  rw [lowPart_getElem, replaceLow_getElem, dif_pos hi]

/-- pc stays a multiple of 4 over an instruction of BASE (10_state R49). -/
theorem withBase_pc_aligned (s : State) (r : BaseResult) : (s.withBase r).pc.toNat % 4 = 0 := by
  have h : (r.pcWord ++ 0#2 : BitVec 64).toNat = r.pcWord.toNat * 4 := by
    rw [BitVec.toNat_append, ← Nat.shiftLeft_add_eq_or_of_lt (0#2).isLt, Nat.shiftLeft_eq]
    rfl
  have e : (s.withBase r).pc.toNat = r.pcWord.toNat * 4 := h
  omega

/-- An instruction of BASE reaches no register from r32, fp32 and CR8 upwards (10_state R30, R31, R32). -/
theorem withBase_frame (s : State) (r : BaseResult) :
    (∀ i, (hi : i < 128) → 32 ≤ i → (s.withBase r).gpr[i] = s.gpr[i] ∧ (s.withBase r).fpr[i] = s.fpr[i]) ∧
    (∀ i, (hi : i < 128) → 8 ≤ i → (s.withBase r).crf[i] = s.crf[i]) := by
  refine ⟨fun i hi h32 => ?_, fun i hi h8 => ?_⟩
  · have : ¬ i < 32 := by omega
    simp [replaceLow_getElem, this]
  · have : ¬ i < 8 := by omega
    simp [replaceLow_getElem, this]

/-- All that an instruction of BASE can answer: what BASE leaves, with SVSTATE as it was or with a supported
VL, or the trap of a VL that is not supported (10_state R46). -/
theorem execBase_cases (w0 : IWord) (w1 : Option IWord) (s : State) :
    (∃ v : Svstate, execBase w0 w1 s =
      .next ((s.setSvstate v).withBase (Config.baseStep w0 w1 s.baseView))) ∨
    execBase w0 w1 s = .next (s.trap w0 w1) := by
  unfold execBase
  dsimp only
  split
  · exact .inl ⟨s.svstate, by rw [show s.setSvstate s.svstate = s from rfl]⟩
  · unfold State.writeVl
    split
    · exact .inl ⟨_, by rfl⟩
    · exact .inr (by rfl)

end Sys2Proof.Machine
end

