-- ==== Sys2Proof/Laws/Decode.lean ====
section
/-!
SUPPORT. Laws/Decode.lean: bit fields of concatenations, words as bytes, and the fields of an encoded first
word.
-/

namespace Sys2Proof

theorem field_getLsbD {n : Nat} (w : BitVec n) (start len j : Nat) :
    (field w start len).getLsbD j = (decide (j < len) && w.getLsbD (n - start - len + j)) := by
  simp [field]

/-- A field that lies in the left part of a concatenation. -/
theorem field_append_left {n m : Nat} (x : BitVec n) (y : BitVec m) (start len : Nat)
    (h : start + len ≤ n) : field (x ++ y) start len = field x start len := by
  apply BitVec.eq_of_getLsbD_eq
  intro j hj
  simp only [field_getLsbD, hj, decide_true, Bool.true_and, BitVec.getLsbD_append]
  rw [if_neg (by omega)]
  congr 1
  omega

/-- A field that lies in the right part of a concatenation. -/
theorem field_append_right {n m : Nat} (x : BitVec n) (y : BitVec m) (start len : Nat) (h : n ≤ start)
    (hl : start + len ≤ n + m) : field (x ++ y) start len = field y (start - n) len := by
  apply BitVec.eq_of_getLsbD_eq
  intro j hj
  simp only [field_getLsbD, hj, decide_true, Bool.true_and, BitVec.getLsbD_append]
  rw [if_pos (by omega)]
  congr 1
  omega

/-- The whole of a value as a field. -/
theorem field_whole {n : Nat} (x : BitVec n) : field x 0 n = x := by
  apply BitVec.eq_of_getLsbD_eq
  intro j hj
  rw [field_getLsbD]
  simp [hj]

/-- A field of a field. -/
theorem field_field {n : Nat} (x : BitVec n) (a l b m : Nat) (h : b + m ≤ l) (ha : a + l ≤ n) :
    field (field x a l) b m = field x (a + b) m := by
  apply BitVec.eq_of_getLsbD_eq
  intro j hj
  simp only [field_getLsbD, hj, decide_true, Bool.true_and]
  rw [show n - a - l + (l - b - m + j) = n - (a + b) - m + j by omega]
  simp only [Bool.and_eq_right_iff_imp, decide_eq_true_eq]
  omega

/-- A concatenation as a number. -/
theorem append_toNat {n m : Nat} (x : BitVec n) (y : BitVec m) :
    (x ++ y).toNat = x.toNat * 2 ^ m + y.toNat := by
  rw [BitVec.toNat_append, ← Nat.shiftLeft_add_eq_or_of_lt y.isLt, Nat.shiftLeft_eq]

/-- Two values with equal left and right parts are equal. -/
theorem field_split {n : Nat} {x y : BitVec n} (k : Nat) (hk : k ≤ n) (h1 : field x 0 k = field y 0 k)
    (h2 : field x k (n - k) = field y k (n - k)) : x = y := by
  apply BitVec.eq_of_getLsbD_eq
  intro j hj
  by_cases h : j < n - k
  · have := congrArg (fun z => BitVec.getLsbD z j) h2
    simp only [field_getLsbD, h, decide_true, Bool.true_and] at this
    rwa [show n - k - (n - k) + j = j by omega] at this
  · have := congrArg (fun z => BitVec.getLsbD z (j - (n - k))) h1
    simp only [field_getLsbD, show j - (n - k) < k by omega, decide_true, Bool.true_and] at this
    rwa [show n - 0 - k + (j - (n - k)) = j by omega] at this

/-- A word is the one its bytes give. -/
theorem wordOfBytes_bytesOfWord (le : Bool) (w : IWord) :
    ∃ b0 b1 b2 b3, bytesOfWord le w = [b0, b1, b2, b3] ∧ wordOfBytes le b0 b1 b2 b3 = w := by
  cases le <;>
  · refine ⟨_, _, _, _, rfl, ?_⟩
    apply BitVec.eq_of_getLsbD_eq
    intro j hj
    simp only [wordOfBytes, Bool.false_eq_true, if_false, if_true, BitVec.getLsbD_append,
      BitVec.getLsbD_extractLsb']
    interval_cases j <;> simp

/-- The bytes of a word are those it was made of. -/
theorem bytesOfWord_wordOfBytes (le : Bool) (b0 b1 b2 b3 : Byte) :
    bytesOfWord le (wordOfBytes le b0 b1 b2 b3) = [b0, b1, b2, b3] := by
  cases le <;>
    simp only [bytesOfWord, wordOfBytes, Bool.false_eq_true, if_false, if_true, List.cons.injEq,
      and_true] <;>
    refine ⟨?_, ?_, ?_, ?_⟩ <;>
    · apply BitVec.eq_of_getLsbD_eq
      intro j hj
      simp only [BitVec.getLsbD_extractLsb', BitVec.getLsbD_append, hj, decide_true, Bool.true_and]
      repeat (first | rw [if_pos (by omega)] | rw [if_neg (by omega)])
      congr 1
      omega

/-- `RM` survives the first word that carries it (30_encoding R87). -/
theorem rmBits_svp64Word (r : BitVec 24) : rmBits (svp64Word r) = r := by
  apply BitVec.eq_of_getLsbD_eq
  intro j hj
  simp only [rmBits, svp64Word, field_getLsbD, BitVec.getLsbD_append]
  interval_cases j <;> simp

/-- The fields of `RM`'s bits (30_encoding R91, R92), one lemma each. -/
theorem toBits_maskmode (rm : Rm) : field rm.toBits 0 1 = rm.maskmode.toBit := by
  rw [Rm.toBits, field_append_left _ _ _ _ (by decide), field_append_left _ _ _ _ (by decide), field_append_left _ _ _ _ (by decide), field_append_left _ _ _ _ (by decide), field_append_left _ _ _ _ (by decide), field_append_left _ _ _ _ (by decide)]
  exact field_whole _

theorem toBits_mask (rm : Rm) : field rm.toBits 1 3 = rm.mask := by
  rw [Rm.toBits, field_append_left _ _ _ _ (by decide), field_append_left _ _ _ _ (by decide), field_append_left _ _ _ _ (by decide), field_append_left _ _ _ _ (by decide), field_append_left _ _ _ _ (by decide),
    field_append_right _ _ _ _ (by decide) (by decide)]
  exact field_whole _

theorem toBits_elwidth (rm : Rm) : field rm.toBits 4 2 = rm.elwidth := by
  rw [Rm.toBits, field_append_left _ _ _ _ (by decide), field_append_left _ _ _ _ (by decide), field_append_left _ _ _ _ (by decide), field_append_left _ _ _ _ (by decide),
    field_append_right _ _ _ _ (by decide) (by decide)]
  exact field_whole _

theorem toBits_elwidthSrc (rm : Rm) : field rm.toBits 6 2 = rm.elwidthSrc := by
  rw [Rm.toBits, field_append_left _ _ _ _ (by decide), field_append_left _ _ _ _ (by decide), field_append_left _ _ _ _ (by decide),
    field_append_right _ _ _ _ (by decide) (by decide)]
  exact field_whole _

theorem toBits_subvl (rm : Rm) : field rm.toBits 8 2 = rm.subvl := by
  rw [Rm.toBits, field_append_left _ _ _ _ (by decide), field_append_left _ _ _ _ (by decide),
    field_append_right _ _ _ _ (by decide) (by decide)]
  exact field_whole _

theorem toBits_extra (rm : Rm) : field rm.toBits 10 9 = rm.extra := by
  rw [Rm.toBits, field_append_left _ _ _ _ (by decide),
    field_append_right _ _ _ _ (by decide) (by decide)]
  exact field_whole _

theorem toBits_mode (rm : Rm) : field rm.toBits 19 5 = rm.mode := by
  rw [Rm.toBits,
    field_append_right _ _ _ _ (by decide) (by decide)]
  exact field_whole _

/-- The fields of the Remapped Encoding survive its bits (30_encoding R91, R92). -/
theorem ofBits_toBits (rm : Rm) : Rm.ofBits rm.toBits = rm := by
  have h : (if rm.maskmode.toBit == 1 then MaskMode.cr else MaskMode.int) = rm.maskmode := by
    cases rm.maskmode <;> rfl
  simp only [Rm.ofBits, toBits_maskmode, toBits_mask, toBits_elwidth, toBits_elwidthSrc, toBits_subvl,
    toBits_extra, toBits_mode, h]

/-- The bits of the Remapped Encoding survive its fields. -/
theorem toBits_ofBits (r : BitVec 24) : (Rm.ofBits r).toBits = r := by
  have h : (if field r 0 1 == 1 then MaskMode.cr else MaskMode.int).toBit = field r 0 1 := by
    generalize field r 0 1 = b
    revert b
    decide
  simp only [Rm.toBits, Rm.ofBits, h]
  apply BitVec.eq_of_getLsbD_eq
  intro j hj
  simp only [field_getLsbD, BitVec.getLsbD_append]
  interval_cases j <;> simp

/-- The Remapped Encoding is read back from the first word that carries it. -/
theorem rm_toWord (rm : Rm) : Rm.ofBits (rmBits rm.toWord) = rm := by
  rw [Rm.toWord, rmBits_svp64Word, ofBits_toBits]

/-- The first word of a Remapped Encoding is an SVP64 one (30_encoding R85). -/
theorem isSvp64_svp64Word (r : BitVec 24) : isSvp64 (svp64Word r) = true := by
  have h1 : field (svp64Word r) 0 6 = 1 := by
    apply BitVec.eq_of_getLsbD_eq
    intro j hj
    simp only [svp64Word, field_getLsbD, BitVec.getLsbD_append]
    interval_cases j <;> simp
  have h2 : field (svp64Word r) 7 1 = 1 := by
    apply BitVec.eq_of_getLsbD_eq
    intro j hj
    simp only [svp64Word, field_getLsbD, BitVec.getLsbD_append]
    interval_cases j
    simp
  have h3 : field (svp64Word r) 9 1 = 1 := by
    apply BitVec.eq_of_getLsbD_eq
    intro j hj
    simp only [svp64Word, field_getLsbD, BitVec.getLsbD_append]
    interval_cases j
    simp
  simp [isSvp64, isExt01, h1, h2, h3]

/-- The fields of the suffix word `add` (43_vector_loop R207). -/
theorem addWord_fields (rt ra rb : BitVec 5) (oe rc : BitVec 1) :
    field (addWord rt ra rb oe rc) 0 6 = 31 ∧ field (addWord rt ra rb oe rc) 6 5 = rt ∧
      field (addWord rt ra rb oe rc) 11 5 = ra ∧ field (addWord rt ra rb oe rc) 16 5 = rb ∧
      field (addWord rt ra rb oe rc) 21 1 = oe ∧ field (addWord rt ra rb oe rc) 22 9 = 266 ∧
      field (addWord rt ra rb oe rc) 31 1 = rc := by
  refine ⟨?_, ?_, ?_, ?_, ?_, ?_, ?_⟩ <;>
  · apply BitVec.eq_of_getLsbD_eq
    intro j hj
    simp only [addWord, field_getLsbD, BitVec.getLsbD_append]
    interval_cases j <;> simp

/-- The first word of an SVP64 instruction has EXT01. -/
theorem isExt01_toWord (rm : Rm) : isExt01 rm.toWord = true := by
  have h := isSvp64_svp64Word rm.toBits
  rw [isSvp64, Bool.and_eq_true, Bool.and_eq_true] at h
  exact h.1.1

/-- The suffix word `add` is the plain one when OE and Rc are 0. -/
theorem isPlainAdd_addWord (rt ra rb : BitVec 5) (oe rc : BitVec 1) :
    isPlainAdd (addWord rt ra rb oe rc) = (oe == 0#1 && rc == 0#1) := by
  have h1 := (addWord_fields rt ra rb oe rc).1
  have h2 : field (addWord rt ra rb oe rc) 21 11 = oe ++ 266#9 ++ rc := by
    rw [addWord]
    apply BitVec.eq_of_getLsbD_eq
    intro j hj
    simp only [field_getLsbD, BitVec.getLsbD_append]
    interval_cases j <;> simp
  rw [isPlainAdd, h1, h2]
  clear h1 h2
  revert oe rc
  decide

/-- The suffix word `add` has no EXT01. -/
theorem isExt01_addWord (rt ra rb : BitVec 5) (oe rc : BitVec 1) :
    isExt01 (addWord rt ra rb oe rc) = false := by
  rw [isExt01, (addWord_fields rt ra rb oe rc).1]
  decide

/-- The bytes of two words, the first with EXT01, decode as the pair. -/
theorem decode_pair (w0 w1 : IWord) (rest : List Byte) (h : isExt01 w0 = true) :
    decode (bytesOfWords [w0, w1] ++ rest) = .ok (decodePair w0 w1, rest) := by
  obtain ⟨a0, a1, a2, a3, ha, ha'⟩ := wordOfBytes_bytesOfWord Config.ifetchLE w0
  obtain ⟨b0, b1, b2, b3, hb, hb'⟩ := wordOfBytes_bytesOfWord Config.ifetchLE w1
  simp [bytesOfWords, ha, hb, decode, ha', hb', h]

/-- The bytes of one word without EXT01 decode as it does. -/
theorem decode_single (w : IWord) (rest : List Byte) (h : isExt01 w = false) :
    decode (bytesOfWords [w] ++ rest) = (decodeScalar w).map fun i => (i, rest) := by
  obtain ⟨a0, a1, a2, a3, ha, ha'⟩ := wordOfBytes_bytesOfWord Config.ifetchLE w
  simp [bytesOfWords, ha, decode, ha', h]
  cases decodeScalar w <;> rfl

/-- A 6-bit cell differs from `c` where their first `k` bits do. -/
theorem cell_ne {w : IWord} (k : Nat) (hk : k ≤ 6) (c : BitVec 6) (h : field w 6 k ≠ field c 0 k) :
    (field w 6 6 == c) = false := by
  simp only [beq_eq_false_iff_ne, ne_eq]
  rintro rfl
  exact h (by rw [field_field _ _ _ _ _ (by omega) (by omega)])

/-- A word is its first `k` bits followed by the others. -/
theorem word_eq_append {w : IWord} (k m : Nat) (hk : k + m = 32) (c : BitVec k) (h : field w 0 k = c) :
    w = (c ++ field w k m).cast hk := by
  apply BitVec.eq_of_getLsbD_eq
  intro j hj
  subst h
  simp only [BitVec.getLsbD_cast, BitVec.getLsbD_append, field_getLsbD]
  split
  · rename_i h
    simp [h, show 32 - k - m + j = j by omega]
  · rename_i h
    simp [show j - m < k by omega, show 32 - k + (j - m) = j by omega]

end Sys2Proof
end

