-- ==== Sys2Proof/Laws/Elements.lean ====
section
/-!
SUPPORT. Laws/Elements.lean: reading and writing one element of a register file (10_state R36, R37).
-/

namespace Sys2Proof.Machine

theorem Width.bits_mul_per (w : Width) : w.bits * w.per = 64 := by cases w <;> rfl

theorem Width.bits_pos (w : Width) : 0 < w.bits := by cases w <;> decide

theorem Width.per_pos (w : Width) : 0 < w.per := by cases w <;> decide

theorem Width.ones_getLsbD (w : Width) (j : Nat) : w.ones.getLsbD j = decide (j < w.bits) := by
  by_cases h : j < 64
  · have key : ∀ j : Fin 64, w.ones.getLsbD j.val = decide (j.val < w.bits) := by cases w <;> decide
    exact key ⟨j, h⟩
  · have : ¬ j < w.bits := by cases w <;> simp [Width.bits] <;> omega
    simp [this, BitVec.getLsbD_of_ge _ _ (Nat.le_of_not_lt h)]

theorem Width.wrap_getLsbD (w : Width) (v : Word) (j : Nat) :
    (w.wrap v).getLsbD j = (decide (j < w.bits) && v.getLsbD j) := by
  simp [Width.wrap, Width.ones_getLsbD, Bool.and_comm]

theorem Width.wrap_wrap (w : Width) (v : Word) : w.wrap (w.wrap v) = w.wrap v := by
  apply BitVec.eq_of_getLsbD_eq
  intro j _
  simp [Width.wrap_getLsbD]

/-- Wrapping at width `w` is reduction modulo `2^w` (43_vector_loop R211). -/
theorem Width.wrap_toNat (w : Width) (v : Word) : (w.wrap v).toNat = v.toNat % 2 ^ w.bits := by
  have h : w.ones.toNat = 2 ^ w.bits - 1 := by cases w <;> rfl
  rw [Width.wrap, BitVec.toNat_and, h, Nat.and_two_pow_sub_one_eq_mod]

theorem extractElem_getLsbD (r : Word) (k : Nat) (w : Width) (j : Nat) :
    (extractElem r k w).getLsbD j = (decide (j < w.bits) && r.getLsbD (w.bits * k + j)) := by
  simp [extractElem, Width.wrap_getLsbD]

theorem insertElem_getLsbD (r : Word) (k : Nat) (w : Width) (v : Word) (j : Nat) (hj : j < 64) :
    (insertElem r k w v).getLsbD j =
      if w.bits * k ≤ j ∧ j < w.bits * k + w.bits then v.getLsbD (j - w.bits * k) else r.getLsbD j := by
  simp only [insertElem, BitVec.getLsbD_or, BitVec.getLsbD_and, BitVec.getLsbD_not,
    BitVec.getLsbD_shiftLeft, Width.wrap_getLsbD, Width.ones_getLsbD, hj, decide_true, Bool.true_and]
  by_cases h1 : w.bits * k ≤ j
  · by_cases h2 : j < w.bits * k + w.bits
    · have : j - w.bits * k < w.bits := by omega
      simp [h1, h2, this, Nat.not_lt.mpr h1]
    · have : ¬ (j - w.bits * k < w.bits) := by omega
      simp [h2, this]
  · simp [h1, Nat.lt_of_not_le h1]

/-- The element just written reads back as the value written, wrapped. -/
theorem extract_insert_same (r : Word) (k : Nat) (w : Width) (v : Word) (h : k < w.per) :
    extractElem (insertElem r k w v) k w = w.wrap v := by
  apply BitVec.eq_of_getLsbD_eq
  intro j _
  rw [extractElem_getLsbD, Width.wrap_getLsbD]
  by_cases hj : j < w.bits
  · have : w.bits * k + j < 64 := by
      have := Width.bits_mul_per w
      nlinarith [Nat.mul_le_mul_left w.bits (Nat.succ_le_of_lt h)]
    rw [insertElem_getLsbD _ _ _ _ _ this]
    simp [hj]
  · simp [hj]

/-- Another element of the same register is not changed. -/
theorem extract_insert_other (r : Word) (k k' : Nat) (w : Width) (v : Word) (h : k ≠ k') :
    extractElem (insertElem r k w v) k' w = extractElem r k' w := by
  apply BitVec.eq_of_getLsbD_eq
  intro j _
  rw [extractElem_getLsbD, extractElem_getLsbD]
  by_cases hj : j < w.bits
  · by_cases h64 : w.bits * k' + j < 64
    · rw [insertElem_getLsbD _ _ _ _ _ h64, if_neg]
      rintro ⟨h1, h2⟩
      rcases Nat.lt_or_gt_of_ne h with h | h
      · have := Nat.mul_le_mul_left w.bits (Nat.succ_le_of_lt h)
        rw [Nat.mul_succ] at this
        omega
      · have := Nat.mul_le_mul_left w.bits (Nat.succ_le_of_lt h)
        rw [Nat.mul_succ] at this
        omega
    · simp [BitVec.getLsbD_of_ge _ _ (Nat.le_of_not_lt h64)]
  · simp [hj]

/-- An element exists when the register it lies in does. -/
theorem elemGet_isSome {f : RegFile} {g e : Nat} {w : Width} :
    (elemGet f g e w).isSome ↔ g + e / w.per < 128 := by
  unfold elemGet; split <;> simp_all

theorem elemSet_isSome {f : RegFile} {g e : Nat} {w : Width} {v : Word} :
    (elemSet f g e w v).isSome ↔ g + e / w.per < 128 := by
  unfold elemSet; split <;> simp_all

theorem elemGet_elemSet_same {f f' : RegFile} {g e : Nat} {w : Width} {v : Word}
    (h : elemSet f g e w v = some f') : elemGet f' g e w = some (w.wrap v) := by
  unfold elemSet at h
  split at h
  · rename_i hr
    cases h
    simp [elemGet, hr, extract_insert_same _ _ _ _ (Nat.mod_lt _ w.per_pos)]
  · cases h

/-- Another element at the same width, counted from the same register, is not changed. -/
theorem elemGet_elemSet_other {f f' : RegFile} {g e e' : Nat} {w : Width} {v : Word}
    (h : elemSet f g e w v = some f') (he : e ≠ e') : elemGet f' g e' w = elemGet f g e' w := by
  unfold elemSet at h
  split at h
  · rename_i hr
    cases h
    unfold elemGet
    split
    · by_cases hd : e / w.per = e' / w.per
      · have hm : e % w.per ≠ e' % w.per := fun hm => he (by
          rw [← Nat.div_add_mod e w.per, ← Nat.div_add_mod e' w.per, hd, hm])
        simp [hd, extract_insert_other _ _ _ _ _ hm]
      · rw [Vector.getElem_set_ne]
        omega
    · rfl
  · cases h

/-- Registers other than the element's are not changed. -/
theorem elemSet_getElem {f f' : RegFile} {g e r : Nat} {w : Width} {v : Word}
    (h : elemSet f g e w v = some f') (hr : r < 128) (hne : r ≠ g + e / w.per) : f'[r] = f[r] := by
  unfold elemSet at h
  split at h
  · cases h
    rw [Vector.getElem_set_ne]
    omega
  · cases h

/-- At 64 bits an element is a whole register. -/
theorem insertElem_w64 (r v : Word) : insertElem r 0 .w64 v = v := by
  apply BitVec.eq_of_getLsbD_eq
  intro j hj
  rw [insertElem_getLsbD _ _ _ _ _ hj]
  simp [Width.bits, hj]

theorem wrap_w64 (v : Word) : Width.w64.wrap v = v := by
  apply BitVec.eq_of_getLsbD_eq
  intro j hj
  rw [Width.wrap_getLsbD]
  simp [Width.bits, hj]

theorem elemGet_w64 (f : RegFile) (g e : Nat) (h : g + e < 128) : elemGet f g e .w64 = some f[g + e] := by
  simp [elemGet, Width.per, h, Nat.mod_one, extractElem, wrap_w64]

theorem elemSet_w64 (f : RegFile) (g e : Nat) (v : Word) (h : g + e < 128) :
    elemSet f g e .w64 v = some (f.set (g + e) v) := by
  simp [elemSet, Width.per, h, Nat.mod_one, insertElem_w64]

end Sys2Proof.Machine
end

