-- ==== Sys2Proof/Laws/Fetch.lean ====
section
/-!
SUPPORT. Laws/Fetch.lean: all that instruction fetch can answer.
-/

namespace Sys2Proof.Machine

/-- A read of `n` bytes gives `n` bytes. -/
theorem readBytes_length {m : Memory} {a : Word} {n : Nat} {bs : List Byte} (h : m.readBytes a n = some bs) :
    bs.length = n := by
  induction n generalizing a bs with
  | zero => cases h; rfl
  | succ n ih =>
    unfold Memory.readBytes at h
    split at h
    · cases h
      rw [List.length_cons, ih ‹_›]
    · cases h

/-- The four bytes of a word in memory. -/
theorem readBytes_four {m : Memory} {a : Word} {bs : List Byte} (h : m.readBytes a 4 = some bs) :
    ∃ b0 b1 b2 b3, bs = [b0, b1, b2, b3] := by
  match bs, readBytes_length h with
  | [b0, b1, b2, b3], _ => exact ⟨b0, b1, b2, b3, rfl⟩

/-- The word fetched is that of its four bytes (20_memory R62). -/
theorem fetchWord_eq_some {le : Bool} {m : Memory} {a : Word} {w : IWord} :
    fetchWord le m a = some w ↔
      ∃ b0 b1 b2 b3, m.readBytes a 4 = some [b0, b1, b2, b3] ∧ wordOfBytes le b0 b1 b2 b3 = w := by
  unfold fetchWord
  split
  · rename_i h
    simp [h]
  · rename_i h
    exact ⟨(fun e => nomatch e), fun ⟨_, _, _, _, e, _⟩ => absurd e (h _ _ _ _)⟩

/-- All that a fetch can answer: with EXT01 the instruction of both words, without it `add` or a word of BASE's
(20_memory R62, R63, 30_encoding R82, R97). -/
theorem fetchInstr_ok {s : State} {x : Fetched} (h : fetchInstr s = .ok x) :
    s.pc.toNat % 4 = 0 ∧ ∃ w0, fetchWord Config.ifetchLE s.mem s.pc = some w0 ∧
      ((isExt01 w0 = true ∧ ∃ w1, fetchWord Config.ifetchLE s.mem (s.pc + 4) = some w1 ∧
          x = .instr (decodePair w0 w1)) ∨
        (isExt01 w0 = false ∧ isPlainAdd w0 = true ∧
          x = .instr (.add (field w0 6 5) (field w0 11 5) (field w0 16 5))) ∨
        (isExt01 w0 = false ∧ isPlainAdd w0 = false ∧ x = .base w0)) := by
  unfold fetchInstr fetchBytes at h
  split at h
  · cases h
  · refine ⟨by omega, ?_⟩
    cases hb : s.mem.readBytes s.pc 4 with
    | none => simp [hb] at h
    | some bs =>
      obtain ⟨b0, b1, b2, b3, rfl⟩ := readBytes_four hb
      refine ⟨_, fetchWord_eq_some.mpr ⟨_, _, _, _, hb, rfl⟩, ?_⟩
      cases he : isExt01 (wordOfBytes Config.ifetchLE b0 b1 b2 b3) with
      | false =>
        cases hp : isPlainAdd (wordOfBytes Config.ifetchLE b0 b1 b2 b3) <;>
          simp [hb, he, decode, decodeScalar, hp] at h <;> simp [h]
      | true =>
        cases hc : s.mem.readBytes (s.pc + 4) 4 with
        | none => rw [hb] at h; dsimp only at h; rw [he, if_pos rfl, hc] at h; cases h
        | some cs =>
          obtain ⟨c0, c1, c2, c3, rfl⟩ := readBytes_four hc
          rw [hb] at h
          dsimp only at h
          rw [he, if_pos rfl, hc] at h
          simp [decode, he] at h
          exact .inl ⟨rfl, _, fetchWord_eq_some.mpr ⟨_, _, _, _, hc, rfl⟩, h.symm⟩

/-- A word without EXT01 that is not `add` is fetched as BASE's (30_encoding R97). -/
theorem fetchInstr_base {s : State} {w : IWord} (ha : s.pc.toNat % 4 = 0)
    (hf : fetchWord Config.ifetchLE s.mem s.pc = some w) (he : isExt01 w = false)
    (hp : isPlainAdd w = false) : fetchInstr s = .ok (.base w) := by
  obtain ⟨b0, b1, b2, b3, hb, rfl⟩ := fetchWord_eq_some.mp hf
  simp [fetchInstr, fetchBytes, ha, hb, he, hp, decode, decodeScalar]

end Sys2Proof.Machine
end

