-- ==== Sys2Proof/Laws/Loop.lean ====
section
/-!
SUPPORT. Laws/Loop.lean: what an element operation and the element loop can change.
-/

namespace Sys2Proof.Machine

/-- The two states differ at most in the register files: all an element operation may do. -/
structure SameBase (s t : State) : Prop where
  svstate : t.svstate = s.svstate
  msr : t.msr = s.msr
  pc : t.pc = s.pc
  mem : t.mem = s.mem
  hart : t.hart = s.hart
  base : t.base = s.base
  steps : t.steps = s.steps

theorem SameBase.refl (s : State) : SameBase s s := ⟨rfl, rfl, rfl, rfl, rfl, rfl, rfl⟩

theorem SameBase.trans {s t u : State} (h : SameBase s t) (h' : SameBase t u) : SameBase s u :=
  ⟨h'.svstate.trans h.svstate, h'.msr.trans h.msr, h'.pc.trans h.pc, h'.mem.trans h.mem,
    h'.hart.trans h.hart, h'.base.trans h.base, h'.steps.trans h.steps⟩

@[simp] theorem Loc.width_fpr (n : BitVec 7) (v : Bool) (dflt : Width) (ew : BitVec 2) :
    (⟨.fpr n, v⟩ : Loc).width dflt ew = (fpWidth ew).getD .w64 := rfl

@[simp] theorem Loc.width_gpr (n : BitVec 7) (v : Bool) (dflt : Width) (ew : BitVec 2) :
    (⟨.gpr n, v⟩ : Loc).width dflt ew = intWidth dflt ew := rfl

@[simp] theorem resultWidth_cons (l : Loc) (ls : List Loc) (dflt : Width) (ew : BitVec 2) :
    resultWidth (l :: ls) dflt ew = l.width dflt ew := rfl

/-- All that writing one operand can do. -/
theorem writeLoc_cases {s t : State} {l : Loc} {w : Width} {i : Nat} {v : Word}
    (h : s.writeLoc l w i v = some t) :
    (∃ n f, l.place = .gpr n ∧ elemSet s.gpr n.toNat (l.index i) w v = some f ∧ t = s.setGpr f) ∨
    (∃ n f, l.place = .fpr n ∧ elemSet s.fpr n.toNat (l.index i) w v = some f ∧ t = s.setFpr f) ∨
    (∃ c x, l.crIndex i = some c ∧ ∃ hc : c < 128, t = s.setCrf (s.crf.set c x)) := by
  unfold State.writeLoc at h
  split at h
  · rename_i n e
    obtain ⟨f, hf, rfl⟩ := Option.map_eq_some_iff.mp h
    exact .inl ⟨n, f, e, hf, rfl⟩
  · rename_i n e
    obtain ⟨f, hf, rfl⟩ := Option.map_eq_some_iff.mp h
    exact .inr (.inl ⟨n, f, e, hf, rfl⟩)
  · rename_i n e
    split at h
    · rename_i hc
      cases h
      exact .inr (.inr ⟨_, _, by simp [Loc.crIndex, e], hc, rfl⟩)
    · cases h
  · rename_i n e
    split at h
    · rename_i hc
      cases h
      exact .inr (.inr ⟨_, _, by simp [Loc.crIndex, e], hc, rfl⟩)
    · cases h

theorem writeLoc_sameBase {s t : State} {l : Loc} {w : Width} {i : Nat} {v : Word}
    (h : s.writeLoc l w i v = some t) : SameBase s t := by
  rcases writeLoc_cases h with ⟨_, _, _, _, rfl⟩ | ⟨_, _, _, _, rfl⟩ | ⟨_, _, _, _, rfl⟩ <;>
    exact ⟨rfl, rfl, rfl, rfl, rfl, rfl, rfl⟩

/-- A property that every write of one of the destinations keeps is kept by writing them all. -/
theorem writeLocs_induct {P : State → Prop} {ls : List Loc} {d : Width} {ew : BitVec 2} {i : Nat}
    (hP : ∀ l ∈ ls, ∀ v s t, P s → s.writeLoc l (l.width d ew) i v = some t → P t)
    {vs : List Word} {s t : State} (hs : P s) (h : s.writeLocs ls d ew i vs = some t) : P t := by
  induction ls generalizing vs s with
  | nil => cases vs <;> (cases h; exact hs)
  | cons l rest ih =>
    cases vs with
    | nil => cases h; exact hs
    | cons v vs =>
      unfold State.writeLocs at h
      split at h
      · rename_i s' hs'
        exact ih (fun l hl => hP l (List.mem_cons_of_mem _ hl)) (hP l List.mem_cons_self v s s' hs hs') h
      · cases h

theorem elementOp_sameBase {op : ElementOp} {srcs dsts : List Loc} {d : Width} {es ed : BitVec 2} {i : Nat}
    {s t : State} (h : elementOp op srcs dsts d es ed i s = some t) : SameBase s t := by
  unfold elementOp at h
  split at h
  · exact writeLocs_induct (P := SameBase s) (fun _ _ _ _ _ hs h => hs.trans (writeLoc_sameBase h))
      (SameBase.refl s) h
  · cases h

section Loop

variable {op : ElementOp} {srcs dsts : List Loc} {d : Width} {es ed : BitVec 2}

theorem elementLoop_nil (i : Nat) (s : State) : elementLoop op srcs dsts d es ed [] i s = some s := rfl

theorem elementLoop_disabled (dm : List Bool) (i : Nat) (s : State) :
    elementLoop op srcs dsts d es ed (false :: dm) i s = elementLoop op srcs dsts d es ed dm (i + 1) s := rfl

/-- An enabled element with a vector destination: its operation, then the rest of the loop. -/
theorem elementLoop_enabled (hv : dsts.any Loc.isVec = true) (dm : List Bool) (i : Nat) (s : State) :
    elementLoop op srcs dsts d es ed (true :: dm) i s =
      (elementOp op srcs dsts d es ed i s).bind (elementLoop op srcs dsts d es ed dm (i + 1)) := by
  simp only [elementLoop, hv, if_true]
  cases elementOp op srcs dsts d es ed i s <;> rfl

/-- An enabled element with scalar destinations only: its operation ends the loop. -/
theorem elementLoop_enabled_scalar (hv : dsts.any Loc.isVec = false) (dm : List Bool) (i : Nat)
    (s : State) :
    elementLoop op srcs dsts d es ed (true :: dm) i s = elementOp op srcs dsts d es ed i s := by
  simp only [elementLoop, hv]
  cases elementOp op srcs dsts d es ed i s <;> rfl

/-- The induction over the loop, once: a property that every element operation of an enabled element keeps
is kept by the loop. -/
theorem elementLoop_induct {P : State → Prop} {dm : List Bool} {i : Nat}
    (hP : ∀ k, dm[k]? = some true → ∀ s t, P s → elementOp op srcs dsts d es ed (i + k) s = some t → P t)
    {s t : State} (hs : P s) (h : elementLoop op srcs dsts d es ed dm i s = some t) : P t := by
  induction dm generalizing i s with
  | nil => cases h; exact hs
  | cons b dm ih =>
    have step : ∀ k, dm[k]? = some true → ∀ s t, P s →
        elementOp op srcs dsts d es ed (i + 1 + k) s = some t → P t := fun k hk s t hs h =>
      hP (k + 1) (by simpa using hk) s t hs (by rwa [show i + (k + 1) = i + 1 + k by omega])
    cases b with
    | false => exact ih step hs (by rwa [elementLoop_disabled] at h)
    | true =>
      by_cases hv : dsts.any Loc.isVec = true
      · rw [elementLoop_enabled hv] at h
        obtain ⟨s', hop, h⟩ := Option.bind_eq_some_iff.mp h
        exact ih step (hP 0 rfl s s' hs hop) h
      · rw [elementLoop_enabled_scalar (by simpa using hv)] at h
        exact hP 0 rfl s t hs h

theorem elementLoop_sameBase {dm : List Bool} {i : Nat} {s t : State}
    (h : elementLoop op srcs dsts d es ed dm i s = some t) : SameBase s t :=
  elementLoop_induct (P := SameBase s) (fun _ _ _ _ hs h => hs.trans (elementOp_sameBase h))
    (SameBase.refl s) h

/-- A loop with no enabled element changes nothing (43_vector_loop R201 d). -/
theorem elementLoop_all_disabled {dm : List Bool} {i : Nat} {s : State} (h : ∀ b ∈ dm, b = false) :
    elementLoop op srcs dsts d es ed dm i s = some s := by
  induction dm generalizing i with
  | nil => rfl
  | cons b dm ih =>
    rw [h b List.mem_cons_self, elementLoop_disabled]
    exact ih fun b hb => h b (List.mem_cons_of_mem _ hb)

end Loop

end Sys2Proof.Machine
end

