-- ==== Sys2Proof/Laws/PerInstr.lean ====
section
/-!
SUPPORT. Laws/PerInstr.lean: families of facts about each instruction as syntax, one lemma per constructor.
-/

namespace Sys2Proof.Laws.Length

/-- The instruction's length in words: one for the unprefixed `add`, two for every other
(30_encoding R80). -/
def Statement (i : Instr) : Prop := (encode i).length = match i with | .add _ _ _ => 1 | _ => 2

theorem svSuffix (rm : Rm) (w1 : IWord) : Statement (.svSuffix rm w1) := rfl

theorem v31_8ls (low : BitVec 23) (w1 : IWord) : Statement (.v31_8ls low w1) := rfl

theorem v31_mls (low : BitVec 23) (w1 : IWord) : Statement (.v31_mls low w1) := rfl

theorem v31_8rr (low : BitVec 20) (w1 : IWord) : Statement (.v31_8rr low w1) := rfl

theorem v31_mrr (low : BitVec 20) (w1 : IWord) : Statement (.v31_mrr low w1) := rfl

theorem v31_mmirr (low : BitVec 20) (w1 : IWord) : Statement (.v31_mmirr low w1) := rfl

theorem cell001xxx (low : BitVec 23) (w1 : IWord) : Statement (.cell001xxx low w1) := rfl

theorem cell101xxx (low : BitVec 23) (w1 : IWord) : Statement (.cell101xxx low w1) := rfl

theorem cell0110xx (low : BitVec 22) (w1 : IWord) : Statement (.cell0110xx low w1) := rfl

theorem cell010001 (low : BitVec 20) (w1 : IWord) : Statement (.cell010001 low w1) := rfl

theorem cell010010 (low : BitVec 20) (w1 : IWord) : Statement (.cell010010 low w1) := rfl

theorem cell010011 (low : BitVec 20) (w1 : IWord) : Statement (.cell010011 low w1) := rfl

theorem cell110001 (low : BitVec 20) (w1 : IWord) : Statement (.cell110001 low w1) := rfl

theorem cell110010 (low : BitVec 20) (w1 : IWord) : Statement (.cell110010 low w1) := rfl

theorem cell110011 (low : BitVec 20) (w1 : IWord) : Statement (.cell110011 low w1) := rfl

theorem cell111000 (low : BitVec 20) (w1 : IWord) : Statement (.cell111000 low w1) := rfl

theorem cell111010 (low : BitVec 20) (w1 : IWord) : Statement (.cell111010 low w1) := rfl

theorem cell111011 (low : BitVec 20) (w1 : IWord) : Statement (.cell111011 low w1) := rfl

theorem svAdd (rm : Rm) (rt ra rb : BitVec 5) : Statement (.svAdd rm rt ra rb) := rfl

theorem add (rt ra rb : BitVec 5) : Statement (.add rt ra rb) := rfl

end Sys2Proof.Laws.Length
end

