-- ==== Sys2Proof/Laws/Svp64.lean ====
section
/-!
SUPPORT. Laws/Svp64.lean: what a prefixed instruction can answer, and `sv.add` in terms of elements of the
GPR file.
-/

namespace Sys2Proof.Machine

/-- All that a prefixed instruction's steps 7 to 11 can answer as a next state. -/
theorem execute_next {d : Suffix} {op : ElementOp} {rm : Rm} {s t : State}
    (h : d.execute op rm s = .next t) :
    (s.readVl = 0 ∧ t = s.advance 8) ∨
    (s.readVl ≠ 0 ∧ maskRefusal rm.maskmode rm.mask s.readVl = none ∧
      ¬ (rm.maskmode = .cr ∧
        writesPredicate (d.locs rm .dest) (predVector rm.maskmode rm.mask s.readVl s) = true) ∧
      ∃ s', elementLoop op (d.locs rm .src) (d.locs rm .dest) d.defaultWidth rm.elwidthSrc rm.elwidth
          (predVector rm.maskmode rm.mask s.readVl s) 0 s = some s' ∧
        t = s'.advance 8) := by
  unfold Suffix.execute at h
  dsimp only at h
  split at h
  · cases h; exact .inl ⟨‹_›, rfl⟩
  · split at h
    · cases h
    · split at h
      · cases h
      · split at h
        · cases h
        · cases h; exact .inr ⟨‹_›, ‹_›, ‹_›, _, ‹_›, rfl⟩

/-- All that a prefixed instruction can answer as a next state: the trap, or the loop's result with pc past
both words. -/
theorem run_next {d : Suffix} {rm : Rm} {w0 w1 : IWord} {s t : State} (h : d.run rm w0 w1 s = .next t) :
    (d.reserved rm = true ∧ t = s.trap w0 (some w1)) ∨
    (d.reserved rm = false ∧ d.refusal rm s.pc = none ∧
      ∃ op, d.op = some op ∧ d.execute op rm s = .next t) := by
  unfold Suffix.run at h
  split at h
  · cases h; exact .inl ⟨‹_›, rfl⟩
  · split at h
    · cases h
    · exact .inr ⟨Bool.eq_false_iff.mpr ‹_›, ‹_›, _, ‹_›, h⟩
    · cases h

/-- A reserved field traps. -/
theorem run_of_reserved {d : Suffix} {rm : Rm} {w0 w1 : IWord} {s : State} (h : d.reserved rm = true) :
    d.run rm w0 w1 s = .next (s.trap w0 (some w1)) := by
  rw [Suffix.run, if_pos h, raiseIllegal]

/-- With no reserved field, what step 6 refuses is refused. -/
theorem run_of_refusal {d : Suffix} {rm : Rm} {w0 w1 : IWord} {s : State} {r : Refusal}
    (h : d.reserved rm = false) (hr : d.refusal rm s.pc = some r) : d.run rm w0 w1 s = .refused r := by
  rw [Suffix.run, if_neg (by simp [h]), hr]

/-- A suffix without an element operation is never executed (43_vector_loop R212). -/
theorem run_of_no_op {d : Suffix} {rm : Rm} {w0 w1 : IWord} {s : State} (h : d.reserved rm = false)
    (hop : d.op = none) : ∃ r, d.run rm w0 w1 s = .refused r := by
  cases hr : d.refusal rm s.pc with
  | some r => exact ⟨r, run_of_refusal h hr⟩
  | none => exact ⟨.suffixNotInstantiated, by rw [Suffix.run, if_neg (by simp [h]), hr, hop]⟩

/-- A prefixed instruction's result, other than the trap, is the register files changed and pc past both
words. -/
theorem execute_next_sameBase {d : Suffix} {op : ElementOp} {rm : Rm} {s t : State}
    (h : d.execute op rm s = .next t) : ∃ s', SameBase s s' ∧ t = s'.advance 8 := by
  rcases execute_next h with ⟨_, rfl⟩ | ⟨_, _, _, s', hl, rfl⟩
  · exact ⟨s, SameBase.refl s, rfl⟩
  · exact ⟨s', elementLoop_sameBase hl, rfl⟩

/-! ## sv.add -/

/-- The destination of `sv.add`: register number and tag (43_vector_loop R208). -/
abbrev svAddRt (rm : Rm) (rt : BitVec 5) : BitVec 7 × Bool := decodeReg rt (field rm.extra 0 3)

/-- The first source of `sv.add`. -/
abbrev svAddRa (rm : Rm) (ra : BitVec 5) : BitVec 7 × Bool := decodeReg ra (field rm.extra 3 3)

/-- The second source of `sv.add`. -/
abbrev svAddRb (rm : Rm) (rb : BitVec 5) : BitVec 7 × Bool := decodeReg rb (field rm.extra 6 3)

theorem addSuffix_dests (rm : Rm) (rt ra rb : BitVec 5) (oe rc : Bool) :
    (addSuffix rt ra rb oe rc).locs rm .dest = [⟨.gpr (svAddRt rm rt).1, (svAddRt rm rt).2⟩] := rfl

theorem addSuffix_srcs (rm : Rm) (rt ra rb : BitVec 5) (oe rc : Bool) :
    (addSuffix rt ra rb oe rc).locs rm .src =
      [⟨.gpr (svAddRa rm ra).1, (svAddRa rm ra).2⟩, ⟨.gpr (svAddRb rm rb).1, (svAddRb rm rb).2⟩] := rfl

/-- No field of `sv.add` has a reserved value (43_vector_loop R208). -/
theorem addSuffix_reserved (rm : Rm) (rt ra rb : BitVec 5) (oe rc : Bool) :
    (addSuffix rt ra rb oe rc).reserved rm = false := by
  have h : (addSuffix rt ra rb oe rc).reservedExtra rm = false := by
    simp only [Suffix.reservedExtra, addSuffix, Option.any_some, Bool.or_eq_false_iff,
      List.any_eq_false]
    refine ⟨fun k hk => ?_, rfl⟩
    have : k < 3 := by simpa [addSuffix, Layout.slots] using hk
    interval_cases k <;> simp [Layout.slots]
  rw [Suffix.reserved, h]
  simp [Suffix.reservedFpWidth, Suffix.reservedFpSingle, addSuffix, OperandField.isFpr]

/-- When `sv.add` passes the refusals of step 6. -/
theorem addSuffix_refusal_none (rm : Rm) (rt ra rb : BitVec 5) (pc : Word) :
    (addSuffix rt ra rb false false).refusal rm pc = none ↔
      pc.toNat % 64 ≠ 60 ∧ rm.mode = 0 ∧ rm.subvl = 0 ∧ rm.elwidth = rm.elwidthSrc := by
  simp only [Suffix.refusal, addSuffix]
  split_ifs <;> simp_all [Suffix.crOnly, OperandField.isCr, OperandField.isFpr, Layout.isTwin]

/-- A loop that writes no CR field overwrites no predicate. -/
theorem writesPredicate_gpr (n : BitVec 7) (v : Bool) (dm : List Bool) :
    writesPredicate [⟨.gpr n, v⟩] dm = false := by
  simp [writesPredicate, Loc.crIndex]

/-- One element operation of `sv.add` (43_vector_loop R208). -/
theorem add_elementOp (pa pb pt : BitVec 7 × Bool) (d : Width) (es ed : BitVec 2) (i : Nat) (s : State) :
    elementOp .add [⟨.gpr pa.1, pa.2⟩, ⟨.gpr pb.1, pb.2⟩] [⟨.gpr pt.1, pt.2⟩] d es ed i s =
      (elemGet s.gpr pa.1.toNat (if pa.2 then i else 0) (intWidth d es)).bind fun a =>
      (elemGet s.gpr pb.1.toNat (if pb.2 then i else 0) (intWidth d es)).bind fun b =>
      (elemSet s.gpr pt.1.toNat (if pt.2 then i else 0) (intWidth d ed) ((intWidth d ed).wrap (a + b))).map
        s.setGpr := by
  simp only [elementOp, State.readLocs, State.readLoc, Loc.index, Loc.width_gpr, resultWidth_cons]
  cases elemGet s.gpr pa.1.toNat (if pa.2 then i else 0) (intWidth d es) with
  | none => simp
  | some a =>
    cases elemGet s.gpr pb.1.toNat (if pb.2 then i else 0) (intWidth d es) with
    | none => simp
    | some b =>
      simp only [ElementOp.eval, State.writeLocs, State.writeLoc, Loc.index, Loc.width_gpr, Option.bind_some]
      cases elemSet s.gpr pt.1.toNat (if pt.2 then i else 0) (intWidth d ed)
        ((intWidth d ed).wrap (a + b)) <;> simp

/-- `sv.add` once its checks have passed: the loop over the GPR file, then pc past both words. -/
theorem svAdd_run {rm : Rm} {rt ra rb : BitVec 5} {s : State} (hpc : s.pc.toNat % 64 ≠ 60)
    (hm : rm.mode = 0) (hs : rm.subvl = 0) (hw : rm.elwidth = rm.elwidthSrc) :
    execSvAdd rm rt ra rb s = (addSuffix rt ra rb false false).execute .add rm s := by
  have hr := (addSuffix_refusal_none rm rt ra rb s.pc).mpr ⟨hpc, hm, hs, hw⟩
  rw [execSvAdd, Suffix.run, addSuffix_reserved, hr]
  rfl

/-- `sv.add` with a form the spec does not execute is refused (43_vector_loop R208). -/
theorem svAdd_refused {rm : Rm} {rt ra rb : BitVec 5} {s : State}
    (h : ¬ (s.pc.toNat % 64 ≠ 60 ∧ rm.mode = 0 ∧ rm.subvl = 0 ∧ rm.elwidth = rm.elwidthSrc)) :
    ∃ r, execSvAdd rm rt ra rb s = .refused r := by
  rw [← addSuffix_refusal_none rm rt ra rb] at h
  obtain ⟨r, hr⟩ := Option.ne_none_iff_exists'.mp h
  refine ⟨r, ?_⟩
  rw [execSvAdd, Suffix.run, addSuffix_reserved, hr]
  rfl

/-- `sv.add` with VL = 0 does nothing but advance pc (43_vector_loop R193). -/
theorem svAdd_execute_zero {rm : Rm} {rt ra rb : BitVec 5} {s : State} (h : s.readVl = 0) :
    (addSuffix rt ra rb false false).execute .add rm s = .next (s.advance 8) := by
  simp [Suffix.execute, h]

/-- `sv.add` with VL at least 1 and a mask within its source: the element loop. -/
theorem svAdd_execute {rm : Rm} {rt ra rb : BitVec 5} {s : State} (h : s.readVl ≠ 0)
    (hm : maskRefusal rm.maskmode rm.mask s.readVl = none) :
    (addSuffix rt ra rb false false).execute .add rm s =
      match elementLoop .add
          [⟨.gpr (svAddRa rm ra).1, (svAddRa rm ra).2⟩, ⟨.gpr (svAddRb rm rb).1, (svAddRb rm rb).2⟩]
          [⟨.gpr (svAddRt rm rt).1, (svAddRt rm rt).2⟩] .w64 rm.elwidthSrc rm.elwidth
          (predVector rm.maskmode rm.mask s.readVl s) 0 s with
      | some s' => .next (s'.advance 8)
      | none => .refused .elementPastEnd := by
  unfold Suffix.execute
  dsimp only
  rw [if_neg h, hm]
  simp only [addSuffix_dests, addSuffix_srcs, writesPredicate_gpr, Bool.false_eq_true, and_false, if_false]
  change (match elementLoop .add _ _ .w64 rm.elwidthSrc rm.elwidth _ 0 s with
    | none => _ | some s' => _) = _
  split <;> simp_all

end Sys2Proof.Machine
end

