-- ==== Sys2Proof/Laws/Step.lean ====
section
/-!
SUPPORT. Laws/Step.lean: all that an instruction, and a step, can answer as a next state.
-/

namespace Sys2Proof.Machine

set_option maxRecDepth 20000 in
/-- No word matches two rows of SuffixTable. -/
theorem suffixRows_disjoint :
    suffixRows.Pairwise (fun r q => (r.pattern ^^^ q.pattern) &&& (r.mask &&& q.mask) ≠ 0) := by decide

/-- A word that matches two rows leaves no fixed bit in which they differ. -/
theorem xor_patterns_eq_zero (w m n : IWord) : ((w &&& m) ^^^ (w &&& n)) &&& (m &&& n) = 0 := by
  ext i
  simp only [BitVec.getElem_and, BitVec.getElem_xor]
  grind

/-- SuffixTable is read off any row the word matches, whatever its place. -/
theorem suffixTable_of_row {r : SuffixRow} {w : IWord} (hr : r ∈ suffixRows)
    (hw : w &&& r.mask = r.pattern) : suffixTable w = some (r.name.entry w) := by
  unfold suffixTable
  cases hf : suffixRows.find? fun r => w &&& r.mask == r.pattern with
  | none => exact absurd hw (by simpa using List.find?_eq_none.mp hf r hr)
  | some q =>
    have hq : w &&& q.mask = q.pattern := by simpa using List.find?_some hf
    have : q = r := by
      by_contra hne
      have : Std.Symm fun r q : SuffixRow => (r.pattern ^^^ q.pattern) &&& (r.mask &&& q.mask) ≠ 0 :=
        ⟨fun a b h => by rwa [BitVec.xor_comm, BitVec.and_comm b.mask]⟩
      exact suffixRows_disjoint.forall (List.mem_of_find?_eq_some hf) hr hne
        (by rw [← hq, ← hw, xor_patterns_eq_zero])
    simp [this]

/-- The one suffix of SuffixTable with an element operation is `add` (43_vector_loop R207). -/
theorem suffixTable_op {w1 : IWord} {d : Suffix} {op : ElementOp}
    (h : suffixTable w1 = some (.vectoriseable d)) (hop : d.op = some op) :
    op = .add ∧ ∃ rt ra rb oe rc, d = addSuffix rt ra rb oe rc := by
  obtain ⟨r, -, hr⟩ := Option.map_eq_some_iff.mp h
  cases hn : r.name <;> rw [hn] at hr <;> simp only [SuffixName.entry] at hr <;> cases hr
  case add => cases hop; exact ⟨rfl, _, _, _, _, _, rfl⟩
  all_goals cases hop

/-- A suffix with Rc = 1 or OE = 1 is not executed (43_vector_loop R198, R207). -/
theorem refusal_none_rc_oe {d : Suffix} {rm : Rm} {pc : Word} (h : d.refusal rm pc = none) :
    d.rc = false ∧ d.oe = false := by
  unfold Suffix.refusal at h
  split_ifs at h
  simp_all

/-- The result of a prefixed `add` is the GPR file changed and pc past both words. -/
theorem add_execute_next {rm : Rm} {rt ra rb : BitVec 5} {oe rc : Bool} {s t : State}
    (h : (addSuffix rt ra rb oe rc).execute .add rm s = .next t) :
    ∃ f : RegFile, t = (s.setGpr f).advance 8 := by
  rcases execute_next h with ⟨_, rfl⟩ | ⟨_, _, _, s', hl, rfl⟩
  · exact ⟨s.gpr, rfl⟩
  · have hP : ∃ f : RegFile, s' = s.setGpr f := by
      refine elementLoop_induct (P := fun x => ∃ f : RegFile, x = s.setGpr f) ?_ ⟨s.gpr, rfl⟩ hl
      rintro k - u v ⟨f, rfl⟩ ho
      rw [addSuffix_dests, addSuffix_srcs, add_elementOp] at ho
      simp only [Option.bind_eq_some_iff, Option.map_eq_some_iff] at ho
      obtain ⟨_, _, _, _, f', _, rfl⟩ := ho
      exact ⟨f', rfl⟩
    obtain ⟨f, rfl⟩ := hP
    exact ⟨f, rfl⟩

/-- All that the meaning of an instruction can answer as a next state: the trap, with the words of its
encoding; a change of the GPR file with pc past both words of an SVP64 instruction; or the unprefixed
`add`. -/
theorem exec_next {i : Instr} {s t : State} (h : exec i s = .next t) :
    (∃ w0 w1, encode i = [w0, w1] ∧ t = s.trap w0 (some w1)) ∨
    ((∃ rm, (∃ w1, i = .svSuffix rm w1) ∨ ∃ rt ra rb, i = .svAdd rm rt ra rb) ∧
      ∃ f : RegFile, t = (s.setGpr f).advance 8) ∨
    (∃ rt ra rb, i = .add rt ra rb ∧ t = (s.setGpr5 rt (s.gpr5 ra + s.gpr5 rb)).advance 4) := by
  cases i with
  | add rt ra rb => cases h; exact .inr (.inr ⟨rt, ra, rb, rfl, rfl⟩)
  | svAdd rm rt ra rb =>
    rcases run_next (show (addSuffix rt ra rb false false).run rm _ _ s = .next t from h) with
      ⟨hr, _⟩ | ⟨_, _, op, hop, hx⟩
    · rw [addSuffix_reserved] at hr; cases hr
    · cases hop
      exact .inr (.inl ⟨⟨rm, .inr ⟨rt, ra, rb, rfl⟩⟩, add_execute_next hx⟩)
  | svSuffix rm w1 =>
    change execSvSuffix rm w1 s = _ at h
    unfold execSvSuffix at h
    split at h
    · cases h; exact .inl ⟨_, _, rfl, rfl⟩
    · split at h
      · split at h
        · cases h
        · cases h; exact .inl ⟨_, _, rfl, rfl⟩
      · cases h; exact .inl ⟨_, _, rfl, rfl⟩
      · rename_i d hd
        rcases run_next h with ⟨_, rfl⟩ | ⟨_, hn, op, hop, hx⟩
        · exact .inl ⟨_, _, rfl, rfl⟩
        · obtain ⟨rfl, rt, ra, rb, oe, rc, rfl⟩ := suffixTable_op hd hop
          exact .inr (.inl ⟨⟨rm, .inl ⟨w1, rfl⟩⟩, add_execute_next hx⟩)
  | _ low w1 => cases h; exact .inl ⟨_, _, rfl, rfl⟩

/-- Only GPRs, pc and the hart's condition change (10_state R42, 43_vector_loop R204). -/
theorem exec_next_frame {i : Instr} {s t : State} (h : exec i s = .next t) :
    t.fpr = s.fpr ∧ t.crf = s.crf ∧ t.svstate = s.svstate ∧ t.msr = s.msr ∧ t.mem = s.mem ∧
      t.base = s.base := by
  rcases exec_next h with ⟨_, _, _, rfl⟩ | ⟨_, _, rfl⟩ | ⟨_, _, _, _, rfl⟩ <;>
    exact ⟨rfl, rfl, rfl, rfl, rfl, rfl⟩

/-- A step that answers a next state is, on a running hart, the meaning of the instruction fetched or what
BASE does with the word fetched. -/
theorem step_next {s t : State} (h : step s = .next t) :
    s.hart = .running ∧
      ((∃ i, fetchInstr s = .ok (.instr i) ∧ exec i s = .next t) ∨
        ∃ w, fetchInstr s = .ok (.base w) ∧ execBase w none s = .next t) := by
  unfold step at h
  split at h
  · cases h
  · split at h
    · exact ⟨‹_›, .inl ⟨_, ‹_›, h⟩⟩
    · exact ⟨‹_›, .inr ⟨_, ‹_›, h⟩⟩
    · cases h

/-- pc + 4 and pc + 8 stay multiples of 4 (10_state R49). -/
theorem advance_aligned {a : Word} (h : a.toNat % 4 = 0) (n : Nat) (hn : n = 4 ∨ n = 8) :
    (a + BitVec.ofNat 64 n).toNat % 4 = 0 := by
  rw [BitVec.toNat_add, BitVec.toNat_ofNat]
  rcases hn with rfl | rfl <;> omega

end Sys2Proof.Machine
end

