-- ==== Sys2Proof/Tests/Slice0.lean ====
section
/-!
SUPPORT. Tests/Slice0.lean: the model's own tests. Expected results are those of 95_test_vectors and of the
tables of the spec. The `witness_` theorems show states and operands that meet the hypotheses of the
obligations, clause by clause.
-/

namespace Sys2Proof.Tests

open Sys2Proof.Machine Sys2Proof.Reference

set_option maxRecDepth 20000

/-! ## Helpers -/

/-- The state after reset with VL and some GPRs set. -/
def mk (vl : Fin 128) (regs : List (Nat × Nat)) : State :=
  (State.reset.setSvstate ⟨vl⟩).setGpr
    (regs.foldl (fun f r => f.setIfInBounds r.1 (BitVec.ofNat 64 r.2)) State.reset.gpr)

/-- `mk` with the CR fields 32 to 35 of 95_test_vectors section 5. -/
def mkCr (vl : Fin 128) (regs : List (Nat × Nat)) : State :=
  let s := mk vl regs
  s.setCrf ((((s.crf.set 32 ⟨false, false, true, false⟩).set 33 ⟨true, false, false, false⟩).set 34
    ⟨false, false, true, true⟩).set 35 ⟨false, true, false, false⟩)

/-- The outcome is a next state with the GPRs listed and pc past 8 bytes. -/
def gives (o : Out) (regs : List (Nat × Nat)) : Bool :=
  match o with
  | .next t => regs.all (fun r => t.gpr[r.1]? == some (BitVec.ofNat 64 r.2)) && t.pc == 8
  | .fault _ => false
  | .refused _ => false

/-- The outcome is the trap with these words, and pc is where it was. -/
def traps (o : Out) (w0 w1 : IWord) : Bool :=
  match o with
  | .next t => t.hart == .trapped ⟨.illegalInstruction, 0, w0, some w1⟩ && t.pc == 0
  | .fault _ => false
  | .refused _ => false

/-- The outcome is this refusal. -/
def refuses (o : Out) (r : Refusal) : Bool :=
  match o with
  | .next _ => false
  | .fault _ => false
  | .refused r' => r == r'

/-- The two words run as one instruction. -/
def run (w0 w1 : IWord) (s : State) : Out := exec (decodePair w0 w1) s

/-- `sv.add *r8,*r16,*r24`'s prefix, no predicate. -/
def allVec : Rm := ⟨.int, 0, 0, 0, 0, 0b100100100, 0⟩

/-! ## WellFormed and the decoder -/

theorem test_wellFormed_refuses_add_suffix :
    Instr.WellFormed (.svSuffix (Rm.ofBits 0) 0x7C642A14) = false := by decide

theorem test_wellFormed_accepts_other_suffix :
    Instr.WellFormed (.svSuffix (Rm.ofBits 0) 0x7C642A15) = true := by decide

theorem test_nregs : Config.nregs = 128 := by decide

theorem test_decode_svSuffix :
    decodePair 0x05403FE0 0x44000002 = .svSuffix ⟨.int, 0, 0, 0, 0, 0b111111111, 0⟩ 0x44000002 := by decide

theorem test_decode_rm_fields :
    Rm.ofBits (rmBits 0x07400000) = ⟨.cr, 0, 0, 0, 0, 0, 0⟩ ∧
    Rm.ofBits (rmBits 0x05F00000) = ⟨.int, 7, 0, 0, 0, 0, 0⟩ ∧
    Rm.ofBits (rmBits 0x054C0000) = ⟨.int, 0, 3, 0, 0, 0, 0⟩ ∧
    Rm.ofBits (rmBits 0x05430000) = ⟨.int, 0, 0, 3, 0, 0, 0⟩ ∧
    Rm.ofBits (rmBits 0x0540C000) = ⟨.int, 0, 0, 0, 3, 0, 0⟩ ∧
    Rm.ofBits (rmBits 0x0540001F) = ⟨.int, 0, 0, 0, 0, 0, 31⟩ := by decide

theorem test_decode_v31 :
    decodePair 0x04400000 1 = .v31_8ls 0x400000 1 ∧ decodePair 0x06000001 1 = .v31_mls 1 1 ∧
    decodePair 0x05000002 1 = .v31_8rr 2 1 ∧ decodePair 0x07000003 1 = .v31_mrr 3 1 ∧
    decodePair 0x07900004 1 = .v31_mmirr 4 1 := by decide

theorem test_decode_cells :
    decodePair 0x04800000 1 = .cell001xxx 0 1 ∧ decodePair 0x06C00000 1 = .cell101xxx 0x400000 1 ∧
    decodePair 0x05800000 1 = .cell0110xx 0 1 ∧ decodePair 0x05100000 1 = .cell010001 0 1 ∧
    decodePair 0x05200000 1 = .cell010010 0 1 ∧ decodePair 0x05300000 1 = .cell010011 0 1 ∧
    decodePair 0x07100000 1 = .cell110001 0 1 ∧ decodePair 0x07200000 1 = .cell110010 0 1 ∧
    decodePair 0x07300000 1 = .cell110011 0 1 ∧ decodePair 0x07800000 1 = .cell111000 0 1 ∧
    decodePair 0x07A00000 1 = .cell111010 0 1 ∧ decodePair 0x07B00000 1 = .cell111011 0 1 := by decide

theorem test_decode_svAdd : decodePair 0x05402480 0x7C443214 = .svAdd allVec 2 4 6 := by decide

theorem test_decode_add : decodeScalar 0x7C642A14 = .ok (.add 3 4 5) := by decide

/-- The bytes of program P1's first instruction (95_test_vectors section 8). -/
theorem test_decode_bytes :
    decode [0x80, 0x24, 0x40, 0x05, 0x14, 0x32, 0x44, 0x7C] = .ok (.svAdd allVec 2 4 6, []) := by decide

theorem test_decodeTableWord_svAdd :
    decodeTableWord 64 0x054000007C000214 = some (.svAdd (Rm.ofBits 0) 0 0 0) := by decide

/-! ## Registers (95_test_vectors sections 3, 4 and 6) -/

theorem test_decodeReg :
    decodeReg 5 (specOf3 0b011) = (101, false) ∧ decodeReg 25 (specOf3 0b101) = (101, true) ∧
    decodeReg 31 (specOf3 0b111) = (127, true) ∧ decodeReg 31 (specOf2 0b01) = (63, false) ∧
    decodeReg 31 (specOf2 0b11) = (126, true) := by decide

theorem test_decodeCr :
    decodeCrField 5 (specOf3 0b101) = (84, true) ∧ decodeCrField 7 (specOf2 0b11) = (120, true) ∧
    decodeCrBit 0b10110 (specOf3 0b101) = (338, true) ∧ decodeCrBit 0b10110 (specOf3 0b000) = (22, false) := by
  decide

theorem test_elements :
    let f := (mk 0 [(16, 0x0004000300020001), (17, 0xFFFF800070006000)]).gpr
    elemGet f 16 3 .w16 = some 4 ∧ elemGet f 16 4 .w16 = some 0x6000 ∧ elemGet f 16 9 .w8 = some 0x60 ∧
    elemGet f 127 2 .w32 = none ∧ (elemSet f 8 1 .w8 0xEE).map (fun g => g[8]) = some 0xEE00 := by decide

theorem test_intPred :
    (predVector .int 0b010 8 (mk 8 [(3, 0xB5)])) = [true, false, true, false, true, true, false, true] ∧
    (predVector .int 0b001 4 (mk 4 [(3, 2)])) = [false, false, true, false] := by decide

theorem test_crPred :
    predVector .cr 0b001 4 (mkCr 4 []) = [true, false, true, true] ∧
    predVector .cr 0b110 4 (mkCr 4 []) = [false, false, true, false] := by decide

/-! ## sv.add and add (95_test_vectors section 6) -/

theorem test_A1 : gives (run 0x05402480 0x7C443214 (mk 4 [(16, 1), (17, 2), (18, 3),
    (19, 0xFFFFFFFFFFFFFFFF), (24, 10), (25, 20), (26, 30), (27, 1)]))
    [(8, 11), (9, 22), (10, 33), (11, 0)] = true := by decide

theorem test_A5 : gives (run 0x056A2480 0x7C443214 (mk 8 [(3, 0xB5), (16, 0x0004000300020001),
    (17, 0xFFFF800070006000), (24, 0x0040003000200010), (25, 0x00018000F0001000),
    (8, 0xAAAAAAAAAAAAAAAA), (9, 0xBBBBBBBBBBBBBBBB)]))
    [(8, 0xAAAA0033AAAA0011), (9, 0x0000BBBB60007000)] = true := by decide

theorem test_A6 : gives (run 0x054F2480 0x7C443214 (mk 3 [(16, 0x0000000000FF80FF),
    (24, 0x0000000000018001), (8, 0x7777777777777777)])) [(8, 0x7777777777000000)] = true := by decide

theorem test_A7 : gives (run 0x05452480 0x7C443214 (mk 3 [(16, 0x00000002FFFFFFFF),
    (17, 0xDEADBEEF00000003), (24, 0x0000002000000001), (25, 0x1234567800000030),
    (8, 0x5555555555555555), (9, 0x6666666666666666)]))
    [(8, 0x0000002200000000), (9, 0x6666666600000033)] = true := by decide

theorem test_A9 : gives (run 0x05C00480 0x7C643214 (mk 4 [(10, 0xC), (16, 1), (17, 2), (18, 3), (19, 4),
    (24, 10), (25, 20), (26, 30), (27, 40)])) [(3, 33)] = true := by decide

theorem test_A10 : gives (run 0x05402C80 0x7C421214 (mk 3 [(8, 1)]))
    [(9, 2), (10, 4), (11, 8), (12, 0)] = true := by decide

theorem test_A11 : gives (run 0x07C02480 0x7C443214 (mkCr 4 [(16, 1), (17, 2), (18, 3), (19, 4),
    (24, 10), (25, 20), (26, 30), (27, 40), (8, 0xEE), (9, 0xEE), (10, 0xEE), (11, 0xEE)]))
    [(8, 11), (9, 0xEE), (10, 33), (11, 0xEE)] = true := by decide

theorem test_A14 : gives (run 0x05401A60 0x7C80FA14 (mk 5 [(64, 5), (127, 6)])) [(100, 11)] = true := by
  decide

theorem test_add_step :
    (match step ((mk 1 [(4, 7), (5, 0xFFFFFFFFFFFFFFFF)]).withFetchWord 32 0x7C642A14) with
      | .next t => t.gpr[3] == 6 && t.pc == 4
      | .fault _ => false
      | .refused _ => false) = true := by decide

/-! ## Traps and refusals (95_test_vectors section 7) -/

theorem test_empty_cells_trap :
    traps (run 0x04800000 5 State.reset) 0x04800000 5 = true ∧
    traps (run 0x06800001 5 State.reset) 0x06800001 5 = true ∧
    traps (run 0x05B00000 5 State.reset) 0x05B00000 5 = true ∧
    traps (run 0x05100000 5 State.reset) 0x05100000 5 = true ∧
    traps (run 0x05200000 5 State.reset) 0x05200000 5 = true ∧
    traps (run 0x05300000 5 State.reset) 0x05300000 5 = true := by decide

theorem test_empty_cells_trap_11xxxx :
    traps (run 0x07100000 5 State.reset) 0x07100000 5 = true ∧
    traps (run 0x07200000 5 State.reset) 0x07200000 5 = true ∧
    traps (run 0x07300000 5 State.reset) 0x07300000 5 = true ∧
    traps (run 0x07800000 5 State.reset) 0x07800000 5 = true ∧
    traps (run 0x07A00000 5 State.reset) 0x07A00000 5 = true ∧
    traps (run 0x07B00000 5 State.reset) 0x07B00000 5 = true := by decide

theorem test_v31_traps :
    traps (run 0x04000000 5 State.reset) 0x04000000 5 = true ∧
    traps (run 0x06000000 5 State.reset) 0x06000000 5 = true ∧
    traps (run 0x05000000 5 State.reset) 0x05000000 5 = true ∧
    traps (run 0x07000000 5 State.reset) 0x07000000 5 = true ∧
    traps (run 0x07900000 5 State.reset) 0x07900000 5 = true := by decide

theorem test_suffix_traps :
    traps (run 0x05400000 0x05400000 State.reset) 0x05400000 0x05400000 = true ∧
    traps (run 0x05400000 0x00000000 State.reset) 0x05400000 0x00000000 = true ∧
    traps (run 0x05400000 0x44000002 (mk 4 [])) 0x05400000 0x44000002 = true := by decide

/-- Prefixed branches (43_vector_loop R213), and loads and stores (R214), are refused, and so is a prefixed FP
form (60_exceptions R225), but for an FP form ending in "s" at width f16 (40_rm_width_subvl_mode R118). The words
are the Power ISA's `b .`, `lwz r3,0(r4)`, `stwu r1,-16(r1)`, `ldx r3,r4,r5`, `lfd f1,0(r2)`, `fsubs f1,f2,f3`. -/
theorem test_loads_stores_branches_refused :
    refuses (run 0x05400000 0x48000000 State.reset) .suffixNotInstantiated = true ∧
    refuses (run 0x05400000 0x80640000 State.reset) .suffixNotInstantiated = true ∧
    refuses (run 0x05400000 0x9421FFF0 State.reset) .twinPredication = true ∧
    refuses (run 0x05400000 0x7C64282A State.reset) .twinPredication = true ∧
    refuses (run 0x05400000 0xC8220000 State.reset) .suffixNotInstantiated = true ∧
    refuses (run 0x05400000 0xEC221828 State.reset) .suffixNotInstantiated = true ∧
    traps (run 0x054A0000 0xEC221828 State.reset) 0x054A0000 0xEC221828 = true := by decide

theorem test_refusals :
    refuses (run 0x05400001 0x7C642A14 State.reset) .mode = true ∧
    refuses (run 0x05404000 0x7C642A14 State.reset) .subvl = true ∧
    refuses (run 0x05440000 0x7C642A14 State.reset) .mixedElwidth = true ∧
    refuses (run 0x05400000 0x7C642A15 State.reset) .rc1 = true ∧
    refuses (run 0x05400000 0x7C642E14 State.reset) .oe1 = true := by decide

/-- R116 and R192: ELWIDTH = 0b11 traps whatever the role of the FP operand, here the sources of `fcmpu 0,f1,f2`
and `stfd f1,0(r2)`; ELWIDTH_SRC = 0b11 does not trap `lfd f1,0(r2)`, which has no FP source. -/
theorem test_bf16_source_operand :
    traps (run 0x054C0000 0xFC011000 State.reset) 0x054C0000 0xFC011000 = true ∧
    traps (run 0x054C0000 0xD8220000 State.reset) 0x054C0000 0xD8220000 = true ∧
    refuses (run 0x05430000 0xC8220000 State.reset) .mixedElwidth = true := by decide

/-- The draft `maddedu` and `divmod2du` have no row (42_extra_registers R154) and are refused (93 U11). -/
theorem test_draft_refused :
    suffixTable 0x10642972 = none ∧ suffixTable 0x1064297A = none ∧
    refuses (run 0x05400000 0x10642972 State.reset) .suffixNotInstantiated = true ∧
    refuses (run 0x05400000 0x1064297A State.reset) .suffixNotInstantiated = true := by decide

/-- R118 and R207: the names of `fabs f1,f2` and `fnabs f1,f2` end in "s", that of `fmr f1,f2` does not. -/
theorem test_fabs_f16_traps :
    traps (run 0x054A0000 0xFC201210 State.reset) 0x054A0000 0xFC201210 = true ∧
    traps (run 0x054A0000 0xFC201110 State.reset) 0x054A0000 0xFC201110 = true ∧
    refuses (run 0x054A0000 0xFC201090 State.reset) .fpElwidth = true := by decide

/-- R120 and D29: `crand 3,4,5`, `mcrf 1,2`, `mcrxrx 1` and `bc 12,2,.` under ELWIDTH or ELWIDTH_SRC not zero, and
under zero; `b .` has no CR operand. -/
theorem test_cr_only :
    refuses (run 0x05440000 0x4C642A02 State.reset) .crOpElwidthBits = true ∧
    refuses (run 0x05410000 0x4C642A02 State.reset) .crOpElwidthBits = true ∧
    refuses (run 0x05400000 0x4C642A02 State.reset) .suffixNotInstantiated = true ∧
    refuses (run 0x054F0000 0x4C880000 State.reset) .crOpElwidthBits = true ∧
    refuses (run 0x054F0000 0x7C800480 State.reset) .crOpElwidthBits = true ∧
    refuses (run 0x054A0000 0x41820000 State.reset) .crOpElwidthBits = true ∧
    refuses (run 0x054A0000 0x48000000 State.reset) .suffixNotInstantiated = true := by decide

/-- R115: FPR[1] holds two 32-bit halves. An FPR operand of a suffix whose own width is 32 is read whole at
DEFAULT, and by halves at f32. -/
theorem test_fpr_width :
    let s := State.reset.setFpr (State.reset.fpr.set 1 0x1111111122222222)
    s.readLocs [⟨.fpr 1, true⟩] .w32 0b00 0 = some [0x1111111122222222] ∧
    s.readLocs [⟨.fpr 1, true⟩] .w32 0b01 1 = some [0x11111111] ∧
    (⟨.gpr 1, true⟩ : Loc).width .w32 0b00 = .w32 := by decide

/-- A prefixed instruction advances BASE's timers, a no-op with VL = 0 too (60_exceptions R231). -/
theorem test_svAdd_advances_timers :
    (match run 0x05402480 0x7C443214 State.reset with
      | .next t => t.steps == 1 && t.base == 0
      | .fault _ => false
      | .refused _ => false) = true := by decide

/-- A trap of two words resumes at pc + 8 (60_exceptions R227), one of one word at pc + 4 (log 36). -/
theorem test_resume :
    (State.reset.trap 0x05400000 (some 0)).resumeAfterEmulation.pc = 8 ∧
    (State.reset.trap 0 none).resumeAfterEmulation.pc = 4 := by decide

theorem test_writeVl_128 :
    State.reset.writeVl 0 none 128 id = .next (State.reset.trap 0 none) := rfl

theorem test_refusals_by_state :
    refuses (run 0x05403480 0x7FE43214 (mk 4 [])) .elementPastEnd = true ∧
    gives (run 0x05403480 0x7FE43214 (mk 2 [(16, 1), (25, 5)])) [(126, 1), (127, 5)] = true ∧
    refuses (run 0x05602480 0x7C443214 (mk 65 [])) .intPredicateBeyondBit63 = true ∧
    refuses (run 0x07402480 0x7C443214 (mk 97 [])) .crPredicateBeyondCr127 = true ∧
    refuses (run 0x05402480 0x7C443214 ((mk 4 []).setPc 60)) .crosses64 = true := by decide

/-! ## Witnesses of the obligations' hypotheses -/

theorem witness_DecodeEncodeRoundTrip :
    Instr.WellFormed (.svSuffix allVec 0x44000002) = true ∧ Instr.WellFormed (.svAdd allVec 2 4 6) = true := by
  decide

theorem witness_EncodeDecodeRoundTrip :
    decode [0x14, 0x2A, 0x64, 0x7C, 0xFF] = .ok (.add 3 4 5, [0xFF]) := by decide

theorem witness_PrefixOpcodeMapDecides :
    (0x04000000 : IWord).toNat / 2 ^ 26 = 1 ∧ (0x07FFFFFF : IWord).toNat / 2 ^ 26 = 1 := by decide

theorem witness_RemappedEncodingAsNumbers : isSvp64 0x07FFFFFF = true := by decide

theorem witness_LengthFromPrimaryOpcode :
    decode [0x80, 0x24, 0x40, 0x05, 0x14, 0x32, 0x44, 0x7C] = .ok (.svAdd allVec 2 4 6, []) ∧
    decode [0x14, 0x2A, 0x64, 0x7C] = .ok (.add 3 4 5, []) := by decide

theorem witness_ElementReadIsSumOfBytes :
    inFile 127 7 .w8 ∧ inFile 0 127 .w64 ∧ ¬ inFile 127 8 .w8 ∧ ¬ inFile 0 128 .w64 := by decide

theorem witness_ElementWriteChangesItsBytesOnly :
    inFile 127 3 .w16 ∧ elemOffset 127 3 .w16 = 1022 ∧ (1021 < 1024 ∧ 1021 < elemOffset 127 3 .w16) := by
  decide

theorem witness_FprAndCrOperandAccess :
    (inFile (127#7).toNat (idx (0, false) 9) .w64 ∧ inFile (100#7).toNat (idx (0, true) 27) .w64 ∧
      ¬ inFile (100#7).toNat (idx (0, true) 28) .w64) ∧
    ((127#7).toNat + idx (0, false) 9 < 128 ∧ (120#7).toNat + idx (0, true) 7 < 128 ∧
      128 ≤ (120#7).toNat + idx (0, true) 8) ∧
    ((511#9).toNat / 4 + idx (0, false) 9 < 128 ∧ (480#9).toNat / 4 + idx (0, true) 7 < 128 ∧
      128 ≤ (480#9).toNat / 4 + idx (0, true) 8) := by decide

theorem witness_WidthTables : (0b10 : BitVec 2) ≠ 0b11 := by decide

theorem witness_LayoutTable : (Slot.rsrc3, 16) ∈ layoutStart .rm1P3S1D := by decide

theorem witness_PredicateTables :
    ((⟨.cr, 0, 0, 0, 0, 0, 0⟩ : Rm).maskmode = .cr → 95 < 96) ∧
    ((⟨.int, 2, 0, 0, 0, 0, 0⟩ : Rm).maskmode = .cr → 200 < 96) := by decide

theorem witness_MaskPastItsSourceRefused :
    (svForm ⟨.int, 2, 0, 0, 0, 0, 0⟩ (mk 65 []) ∧ ¬ maskFits ⟨.int, 2, 0, 0, 0, 0, 0⟩ (mk 65 [])) ∧
    (svForm ⟨.cr, 0, 0, 0, 0, 0, 0⟩ (mk 97 []) ∧ ¬ maskFits ⟨.cr, 0, 0, 0, 0, 0, 0⟩ (mk 97 [])) := by decide

theorem witness_AddUsesLowRegistersOnly :
    (∀ r : Fin 32, (mk 9 [(32, 1), (127, 2)]).gpr[r.val] = (mk 1 []).gpr[r.val]) ∧
    (mk 9 [(32, 1), (127, 2)]).pc = (mk 1 []).pc ∧
    (∃ t, exec (.add 3 4 5) (mk 1 []) = .next t) ∧
    ∃ t, exec (.add 3 4 5) (mk 9 [(32, 1), (127, 2)]) = .next t :=
  ⟨by decide, by decide, ⟨_, rfl⟩, ⟨_, rfl⟩⟩

theorem witness_SvAddIsItsPseudocode :
    refSvAdd ⟨.int, 0, 0, 0, 0, 0b100100100, 1⟩ 2 4 6 (mk 2 []) = none ∧
    (refSvAdd allVec 2 4 6 (mk 2 [(16, 1), (24, 10)])).map (fun t => t.gpr[8]) = some 11 := by decide

theorem witness_SvAddCompletes :
    svForm allVec (mk 2 []) ∧ maskFits allVec (mk 2 []) ∧ operandFits (svRt allVec 31) allVec (mk 2 []) ∧
    operandFits (svRa allVec 4) allVec (mk 2 []) ∧ operandFits (svRb allVec 6) allVec (mk 2 []) := by decide

theorem witness_SvAddCompletes_masks :
    maskFits ⟨.int, 7, 0, 0, 0, 0, 0⟩ (mk 64 []) ∧ maskFits ⟨.cr, 7, 0, 0, 0, 0, 0⟩ (mk 96 []) ∧
    maskFits ⟨.int, 1, 0, 0, 0, 0, 0⟩ (mk 127 []) := by decide

theorem witness_ScalarIdentity : (mk 1 []).readVl = 1 ∧ (mk 1 []).pc.toNat % 64 ≠ 60 := by decide

theorem witness_ZeroVlIsNoop : svForm allVec (mk 0 []) ∧ (mk 0 []).readVl = 0 := by decide

theorem witness_AllVectorAdd :
    svForm allVec (mk 4 []) ∧ allVec.maskmode = .int ∧ allVec.mask = 0 ∧ (svRt allVec 31).2 = true ∧
    (svRa allVec 4).2 = true ∧ (svRb allVec 6).2 = true ∧ operandFits (svRt allVec 31) allVec (mk 4 []) ∧
    operandFits (svRa allVec 4) allVec (mk 4 []) ∧ operandFits (svRb allVec 6) allVec (mk 4 []) ∧
    noFeedForward (svRt allVec 31) (svRa allVec 4) allVec (mk 4 []) ∧
    noFeedForward (svRt allVec 31) (svRb allVec 6) allVec (mk 4 []) := by decide

theorem witness_SvAddFrame : ∃ t, exec (.svAdd allVec 2 4 6) (mk 2 []) = .next t := ⟨_, rfl⟩

theorem witness_MaskIsReadBeforeTheLoop :
    let rm : Rm := ⟨.int, 2, 0, 0, 0, 0b100000000, 0⟩
    let s := mk 4 [(3, 5)]
    svForm rm s ∧ maskFits rm s ∧ (svRt rm 0).2 = true ∧ (svRa rm 4).2 = false ∧ (svRb rm 5).2 = false ∧
    operandFits (svRt rm 0) rm s ∧ 8 * (svRt rm 0).1 + s.readVl * ((svWidth rm).bits / 8) ≤ 8 * (svRa rm 4).1 ∧
    8 * (svRt rm 0).1 + s.readVl * ((svWidth rm).bits / 8) ≤ 8 * (svRb rm 5).1 ∧
    enabled rm s 0 = true ∧ enabled rm s 3 = false := by decide

theorem witness_ScalarDestinationTakesFirstEnabled :
    let rm : Rm := ⟨.int, 4, 0, 0, 0, 0b000100100, 0⟩
    let s := mk 4 [(10, 0xC)]
    svForm rm s ∧ maskFits rm s ∧ (svRt rm 3).2 = false ∧ 2 < s.readVl ∧ enabled rm s 2 = true ∧
    (∀ j < 2, enabled rm s j = false) ∧ inFile (svRa rm 4).1 (idx (svRa rm 4) 2) (svWidth rm) ∧
    inFile (svRb rm 6).1 (idx (svRb rm 6) 2) (svWidth rm) := by decide

theorem witness_OneHotBeyondVlChangesNothing :
    let rm : Rm := ⟨.int, 1, 0, 0, 0, 0b100100100, 0⟩
    svForm rm (mk 4 [(3, 4)]) ∧ rm.maskmode = .int ∧ rm.mask = 0b001 ∧
    (mk 4 [(3, 4)]).readVl ≤ (mk 4 [(3, 4)]).gpr[3].toNat := by decide

theorem witness_OverlapFeedsForward :
    let rm : Rm := ⟨.int, 0, 0, 0, 0, 0b101100100, 0⟩
    svForm rm (mk 3 []) ∧ rm.maskmode = .int ∧ rm.mask = 0 ∧ rm.elwidth = 0 ∧ svRt rm 31 = (124 + 1, true) ∧
    svRa rm 31 = (124, true) ∧ svRb rm 31 = (124, true) ∧ 124 + (mk 3 []).readVl < 128 := by decide

theorem witness_ElementPastEndRefused :
    let s := mk 5 []
    svForm allVec s ∧ maskFits allVec s ∧ (svRt allVec 31).2 = true ∧ 4 < s.readVl ∧
    enabled allVec s 4 = true ∧ ¬ inFile (svRt allVec 31).1 4 (svWidth allVec) ∧
    ¬ inFile (svRa allVec 31).1 (idx (svRa allVec 31) 4) (svWidth allVec) ∧
    ¬ inFile (svRb allVec 31).1 (idx (svRb allVec 31) 4) (svWidth allVec) := by decide

theorem witness_SuffixAddIsSvAdd :
    svForm allVec (mk 4 []) ∧ maskFits allVec (mk 4 []) ∧ operandFits (svRt allVec 2) allVec (mk 4 []) ∧
    operandFits (svRa allVec 4) allVec (mk 4 []) ∧ operandFits (svRb allVec 31) allVec (mk 4 []) := by decide

theorem witness_SuffixNotInTableTraps :
    (0x05400000 : IWord).toNat / 2 ^ 26 = 1 ∧ suffixTable 0x7C642850 = none ∧
    (0x7C642850 : IWord).toNat / 2 ^ 26 ≠ 1 ∧ (0x7C642850 : IWord) ≠ 0 ∧ isDraft 0x7C642850 = false ∧
    isDraft 0x10642972 = true ∧
    (0x7C642828 : IWord).toNat / 2 ^ 26 = 31 ∧ (0x7C642828 : IWord).toNat / 2 % 1024 ∈ reserveOrAtomic := by
  decide

theorem witness_UnVectoriseableSuffixTraps : suffixTable 0x44000022 = some .unVectoriseable := by decide

/-- The description of the suffix `fadds f1,f2,f3`. -/
def fadds : Suffix :=
  { namedSuffix none [⟨.dest, .rdest, .fpr 1⟩, ⟨.src, .rsrc1, .fpr 3⟩] .w64 false with fpSingle := true }

theorem witness_FpSingleAtHalfWidthTraps :
    suffixTable 0xEC22182A = some (.vectoriseable fadds) ∧ fadds.fpSingle = true ∧
    (⟨.int, 0, 2, 2, 0, 0, 0⟩ : Rm).elwidth = 0b10 ∧ (⟨.int, 0, 3, 3, 0, 0, 0⟩ : Rm).elwidth = 0b11 := by
  decide

theorem witness_Bf16Traps :
    suffixTable 0xEC22182A = some (.vectoriseable fadds) ∧
    (⟨.dest, .rdest, .fpr 1⟩ : Operand) ∈ fadds.operands ∧ (⟨.src, .rsrc1, .fpr 3⟩ : Operand) ∈ fadds.operands ∧
    (⟨.int, 0, 3, 0, 0, 0, 0⟩ : Rm).elwidth = 0b11 ∧ (⟨.int, 0, 0, 3, 0, 0, 0⟩ : Rm).elwidthSrc = 0b11 := by
  decide

/-- A description with one unused sub-field, Rsrc2, in `RM-1P-2S1D`. -/
def oneSource : Suffix :=
  namedSuffix (some .rm1P2S1D) [⟨.dest, .rdest, .gpr 1⟩, ⟨.src, .rsrc1, .gpr 2⟩] .w64 false

theorem witness_UnusedExtraBitsTrap :
    (oneSource.layout = some .rm1P2S1D ∧ (Slot.rsrc2, 16) ∈ layoutStart .rm1P2S1D ∧
      (∀ o ∈ oneSource.operands, o.slot ≠ .rsrc2) ∧ Layout.rm1P2S1D.isExtra3 = true ∧
      (field (1 : BitVec 9) (16 - 10) 3).toNat ≠ 0) ∧
    (namedSuffix (some .rm1P3S1D) [] .w64 false).layout = some .rm1P3S1D ∧
    (namedSuffix (some .rm1P3S1D) [] .w64 false).extra2Mode = false ∧ (1 : BitVec 9).toNat % 2 = 1 := by decide

/-- The description of the suffix `stw r1,0(r2)`. -/
def stw : Suffix := namedSuffix (some .rm2P2S) [⟨.src, .rsrc1, .gpr 1⟩, ⟨.src, .rsrc2, .gpr 2⟩] .w32 false

theorem witness_TwinPredicationRefused : hasTwinLayout stw ∧ stw.reserved allVec = false :=
  ⟨⟨.rm2P2S, rfl, rfl⟩, by decide⟩

theorem witness_NamedSuffixNeverExecutes :
    (suffixTable 0x90220000 = some (.vectoriseable stw) ∧ stw.op = none ∧ stw.reserved allVec = false) ∧
    suffixTable 0xEC22182A = some (.vectoriseable fadds) ∧ fadds.op = none ∧
    fadds.reserved ⟨.int, 0, 3, 3, 0, 0, 0⟩ = true := by decide

/-- `b`, `lwz`, `ldx`, `lhaux`; `lfd` under a bf16 width traps. -/
theorem witness_LoadStoreBranchSuffixesRefused :
    (isLoadStoreBranch 0x48000000 = true ∧ movesFpr 0x48000000 = false) ∧
    (isLoadStoreBranch 0x80640000 = true ∧ movesFpr 0x80640000 = false) ∧
    (isLoadStoreBranch 0x7C64282A = true ∧ movesFpr 0x7C64282A = false) ∧
    (isLoadStoreBranch 0x7C6422EE = true ∧ allVec.elwidth ≠ 0b11 ∧ allVec.elwidthSrc ≠ 0b11) ∧
    isLoadStoreBranch 0xC8220000 = true ∧
    traps (exec (.svSuffix ⟨.int, 0, 3, 3, 0, 0, 0⟩ 0xC8220000) State.reset) 0x054F0000 0xC8220000 = true := by
  decide

theorem witness_RecordAndOverflowFormsRefused : (1 : BitVec 1) = 1 ∨ (0 : BitVec 1) = 1 := by decide

/-- A description whose destination is a vector of CR fields, for R145. -/
def crDest : Suffix :=
  namedSuffix (some .rm1P2S1D) [⟨.dest, .rdest, .crField 2⟩, ⟨.src, .rsrc1, .gpr 1⟩, ⟨.src, .rsrc2, .gpr 2⟩] .w64
    false

theorem witness_CrPredicateNeverOverwritten :
    let rm : Rm := ⟨.cr, 1, 0, 0, 0, 0b100000000, 0⟩
    (⟨.crField 32, true⟩ : Loc) ∈ crDest.locs rm .dest ∧ 3 < (mk 4 []).readVl ∧ maskFits rm (mk 4 []) ∧
    enabled rm (mk 4 []) 3 = true ∧ (⟨.crField 32, true⟩ : Loc).crIndex 3 = some 35 ∧
    35 < 32 + (mk 4 []).readVl ∧
    ∀ j : Fin 4, sourcesFit crDest rm (mk 4 []) j ∧ destsFit crDest rm (mk 4 []) j := by decide

/-- A description with one source, which is a vector. -/
def crDestOneSource : Suffix :=
  namedSuffix (some .rm1P2S1D) [⟨.dest, .rdest, .crField 2⟩, ⟨.src, .rsrc1, .gpr 31⟩] .w64 false

/-- R226: an element past the end is refused although the loop would also overwrite its predicate. -/
theorem witness_CrPredicateNeverOverwritten_refused :
    let rm : Rm := ⟨.cr, 0, 0, 0, 0, 0b100111000, 0⟩
    let s := mkCr 4 []
    maskFits rm s ∧ enabled rm s 0 = false ∧ enabled rm s 1 = true ∧ ¬ sourcesFit crDestOneSource rm s 1 ∧
    (⟨.crField 32, true⟩ : Loc) ∈ crDestOneSource.locs rm .dest ∧
    refuses (crDestOneSource.execute .add rm s) .elementPastEnd = true := by decide

theorem witness_CrPredicateNeverOverwritten_next :
    ∃ t, crDest.execute .add ⟨.cr, 1, 0, 0, 0, 0b000000000, 0⟩ (mk 4 []) = .next t := ⟨_, rfl⟩

theorem witness_EmptyCellsTrap :
    (0x04800000 : IWord).toNat / 2 ^ 26 = 1 ∧ cellOf 0x04800000 = some .empty ∧
    (0x07BFFFFF : IWord).toNat / 2 ^ 26 = 1 ∧ cellOf 0x07BFFFFF = some .empty := by decide

theorem witness_V31CellsTrapWithoutBase :
    encode (.v31_8ls 5 7) = [0x04000005, 7] ∧
    (0x07900000 : IWord).toNat / 2 ^ 26 = 1 ∧
    cellOf 0x07900000 ∈ [some .c8LS, some .cMLS, some .c8RR, some .cMRR, some .cMMIRR] := by decide

theorem witness_TrapIsPrecise :
    State.reset.hart = .running ∧ ∃ t, exec (.cell001xxx 0 0) State.reset = .next t ∧ t.hart ≠ .running :=
  ⟨rfl, _, rfl, by decide⟩

theorem witness_TrapDependsOnWordsAlone :
    State.reset.hart = .running ∧ (mk 4 [(3, 1)]).hart = .running ∧
    ∃ t, exec (.svSuffix allVec 0) State.reset = .next t ∧ t.hart ≠ .running :=
  ⟨rfl, rfl, _, rfl, by decide⟩

theorem witness_PcAdvancesByLength :
    (∃ t, exec (.add 3 4 5) (State.reset.setPc 0xFFFFFFFFFFFFFFFC) = .next t ∧ t.hart = .running) ∧
    ∃ t, exec (.svAdd allVec 2 4 6) (mk 2 []) = .next t ∧ t.hart = .running :=
  ⟨⟨_, rfl, rfl⟩, ⟨_, rfl, rfl⟩⟩

theorem witness_OnlyGprsPcAndHartChange :
    (∃ t, exec (.add 3 4 5) State.reset = .next t) ∧
    (∃ t, step (State.reset.withFetchWord 32 0x7C642A14) = .next t) ∧
    fetchInstr (State.reset.withFetchWord 32 0x7C642A14) = .ok (.instr (.add 3 4 5)) :=
  ⟨⟨_, rfl⟩, ⟨_, rfl⟩, by rfl⟩

theorem witness_CrossingBlockRefused : (State.reset.setPc 124).pc.toNat % 64 = 60 := by decide

/-- A description whose operands are all CR fields. -/
def crMove : Suffix :=
  namedSuffix (some .rm2P1S1D) [⟨.dest, .rdest, .crField 1⟩, ⟨.src, .rsrc1, .crField 2⟩] .w64 false

theorem crMove_allCr : allCr crMove :=
  ⟨by simp [crMove, namedSuffix], fun o h => .inl (by
    simp only [crMove, namedSuffix, List.mem_cons, List.not_mem_nil, or_false] at h
    rcases h with rfl | rfl
    · exact ⟨1, rfl⟩
    · exact ⟨2, rfl⟩)⟩

theorem stw_not_allCr : ¬ allCr stw := fun h =>
  match h.2 _ (List.mem_cons_self ..) with
  | .inl ⟨_, e⟩ => OperandField.noConfusion e
  | .inr ⟨_, e⟩ => OperandField.noConfusion e

theorem witness_FormsRefused :
    (stw.reserved ⟨.int, 0, 0, 0, 0, 0, 31⟩ = false ∧ (State.reset.setPc 60).pc.toNat % 64 = 60) ∧
    (State.reset.pc.toNat % 64 ≠ 60 ∧ (⟨.int, 0, 0, 0, 0, 0, 31⟩ : Rm).mode ≠ 0) ∧
    (stw.reserved ⟨.int, 0, 0, 0, 3, 0, 0⟩ = false ∧ (⟨.int, 0, 0, 0, 3, 0, 0⟩ : Rm).mode = 0 ∧
      (⟨.int, 0, 0, 0, 3, 0, 0⟩ : Rm).subvl ≠ 0) ∧
    (stw.reserved ⟨.int, 0, 0, 1, 0, 0, 0⟩ = false ∧ (⟨.int, 0, 0, 1, 0, 0, 0⟩ : Rm).subvl = 0 ∧
      (⟨.int, 0, 0, 1, 0, 0, 0⟩ : Rm).elwidth ≠ (⟨.int, 0, 0, 1, 0, 0, 0⟩ : Rm).elwidthSrc) ∧
    (crMove.reserved ⟨.int, 0, 1, 0, 0, 0, 0⟩ = false ∧ (⟨.int, 0, 1, 0, 0, 0, 0⟩ : Rm).elwidth ≠ 0) ∧
    fadds.reserved ⟨.int, 0, 1, 1, 0, 0, 0⟩ = false ∧ (⟨.int, 0, 1, 1, 0, 0, 0⟩ : Rm).elwidth ≠ 0 := by decide

/-- `bc`, `mcrf`, `crxor`, `bctar`, `mcrxrx` at the word before the last of a block. -/
theorem witness_FormsRefused_crOnly :
    isCrOnlyWord 0x41820000 = true ∧ isCrOnlyWord 0x4C880000 = true ∧ isCrOnlyWord 0x4CC63182 = true ∧
    isCrOnlyWord 0x4E800460 = true ∧ isCrOnlyWord 0x7C800480 = true ∧
    (State.reset.setPc 56).pc.toNat % 64 ≠ 60 ∧ (⟨.int, 0, 0, 2, 0, 0, 0⟩ : Rm).mode = 0 ∧
    (⟨.int, 0, 0, 2, 0, 0, 0⟩ : Rm).subvl = 0 ∧ (⟨.int, 0, 0, 2, 0, 0, 0⟩ : Rm).elwidthSrc ≠ 0 := by decide

/-- No field is reserved, widths are equal and not zero: twin predication, Rc = 1. -/
theorem witness_FormsRefused_widths :
    (stw.reserved ⟨.int, 0, 1, 1, 0, 0, 0⟩ = false ∧ hasTwinLayout stw ∧ ¬ allCr stw ∧ ¬ hasFpr stw) ∧
    (addSuffix 1 2 3 false true).reserved ⟨.int, 0, 2, 2, 0, 0, 0⟩ = false ∧
    ¬ hasFpr (addSuffix 1 2 3 false true) :=
  ⟨⟨by decide, ⟨.rm2P2S, rfl, rfl⟩, stw_not_allCr, by simp [hasFpr, stw, namedSuffix]⟩, by decide,
    by simp [hasFpr, addSuffix]⟩

/-- No field is reserved, all widths are zero: Rc = 1, OE = 1, no operation. -/
theorem witness_FormsRefused_rest :
    ((addSuffix 1 2 3 false true).reserved (Rm.ofBits 0) = false ∧ (addSuffix 1 2 3 false true).rc = true) ∧
    ((addSuffix 1 2 3 true false).reserved (Rm.ofBits 0) = false ∧ (addSuffix 1 2 3 true false).oe = true) ∧
    (fadds.reserved (Rm.ofBits 0) = false ∧ fadds.op = none) ∧
    ¬ hasTwinLayout (addSuffix 1 2 3 false true) ∧ ¬ hasTwinLayout fadds :=
  ⟨by decide, by decide, by decide, fun ⟨_, h, e⟩ => (by cases h; cases e), fun ⟨_, h, _⟩ => (by cases h)⟩

/-- The bytes of `add r3,r4,r5`, placed at address 0. -/
def addBytes : List Byte := [0x14, 0x2A, 0x64, 0x7C]

theorem witness_StepRunsDecodedInstruction :
    let s := State.reset.withFetchBytes addBytes
    s.hart = .running ∧ s.pc.toNat % 4 = 0 ∧
    (∀ k : Fin 4, s.mem.read (s.pc + BitVec.ofNat 64 k.val).toNat = some addBytes[k]) ∧
    decode addBytes = .ok (.add 3 4 5, []) := by decide

theorem witness_UnprefixedBaseWordRunsBase :
    let s := State.reset.withFetchWord 32 0x44000002
    s.hart = .running ∧ s.pc.toNat % 4 = 0 ∧ fetchWord Config.ifetchLE s.mem s.pc = some 0x44000002 ∧
    isExt01 0x44000002 = false ∧ isPlainAdd 0x44000002 = false := by decide

/-- Another state of which BASE sees the same: it differs in r32. -/
theorem witness_UnprefixedBaseWordRunsBase_view :
    let s := State.reset.withFetchWord 32 0x44000002
    let s' := s.setGpr (s.gpr.set 32 1)
    s'.hart = .running ∧ s'.baseView = s.baseView ∧ s'.steps = s.steps ∧ s' ≠ s := by decide

theorem witness_TrappedHartStays :
    (State.reset.trap 0 none).hart = .trapped ⟨.illegalInstruction, 0, 0, none⟩ := rfl

theorem witness_StepKeepsInv :
    (State.reset.withFetchWord 64 0x04800000).Inv ∧
    ∃ t, step (State.reset.withFetchWord 64 0x04800000) = .next t ∧ t.hart ≠ .running :=
  ⟨⟨by decide, by decide, fun _ h => by cases h⟩, _, rfl, by decide⟩

theorem witness_FetchWordByteOrder :
    let m := (State.reset.withFetchBytes addBytes).mem
    m.read (0 : Word).toNat = some 0x14 ∧ m.read ((0 : Word) + 1).toNat = some 0x2A ∧
    m.read ((0 : Word) + 2).toNat = some 0x64 ∧ m.read ((0 : Word) + 3).toNat = some 0x7C := by decide

theorem witness_DataByteOrderIsMsrLe :
    (8 : Nat) ≤ 2 ^ 64 ∧ (∀ k : Fin 8, 0x100 ≠ ((0 : Word) + BitVec.ofNat 64 k.val).toNat) ∧
    State.reset.mem.wf := by decide

theorem witness_WriteVlSupportsUpTo127 : 127 ≤ 127 ∧ 127 < 128 := by decide

theorem witness_EmulatorResumesPastBothWords :
    State.reset.hart = .running ∧ ∃ t, exec (.v31_8ls 0 0) State.reset = .next t ∧ t.hart ≠ .running :=
  ⟨rfl, _, rfl, by decide⟩

end Sys2Proof.Tests
end

section
/-!
PROOFS. The cells of a first word: its bits 6:11 decide what a 64-bit instruction is
(30_encoding R83, R85), and the empty cells trap (R94).
-/

namespace Sys2Proof

open Reference Machine

/-! ## Fields as numbers and as parts of a word -/

theorem field_toNat {n : Nat} (w : BitVec n) (start len : Nat) :
    (field w start len).toNat = w.toNat / 2 ^ (n - start - len) % 2 ^ len := by
  rw [field, BitVec.extractLsb'_toNat, Nat.shiftRight_eq_div_pow]

/-- Two fields that follow one another are one field. -/
theorem field_append_field {n : Nat} (w : BitVec n) (a l m : Nat) (h : a + l + m ≤ n) :
    field w a l ++ field w (a + l) m = field w a (l + m) := by
  simp only [field]
  rw [BitVec.extractLsb'_append_extractLsb'_eq_extractLsb' (by omega)]
  congr 1
  omega

/-- Concatenations of equal widths are equal part by part. -/
theorem append_eq_append_iff {n m : Nat} {x x' : BitVec n} {y y' : BitVec m} :
    x ++ y = x' ++ y' ↔ x = x' ∧ y = y' := by
  constructor
  · intro h
    have hx := congrArg (field · 0 n) h
    have hy := congrArg (field · n m) h
    simpa [field_append_left, field_append_right, field_whole] using And.intro hx hy
  · rintro ⟨rfl, rfl⟩
    rfl

/-- High bits in front of low bits, as the sum of the two. -/
theorem append_eq_add {n m : Nat} (x : BitVec n) (y : BitVec m) {k : BitVec (n + m)} (hk : x ++ 0#m = k) :
    x ++ y = k + y.setWidth (n + m) := by
  apply BitVec.eq_of_toNat_eq
  have hlt : x.toNat * 2 ^ m + y.toNat < 2 ^ (n + m) := append_toNat x y ▸ (x ++ y).isLt
  have hy : y.toNat % 2 ^ (n + m) = y.toNat := Nat.mod_eq_of_lt (by omega)
  rw [← hk, BitVec.toNat_add, append_toNat, append_toNat, BitVec.toNat_setWidth, hy, BitVec.toNat_zero,
    Nat.add_zero, Nat.mod_eq_of_lt hlt]

/-! ## The cell of a first word -/

theorem isExt01_iff_toNat {w : IWord} : isExt01 w = true ↔ w.toNat / 2 ^ 26 = 1 := by
  rw [isExt01, beq_iff_eq, ← BitVec.toNat_inj, field_toNat]
  have hw := w.isLt
  rw [Nat.mod_eq_of_lt (by omega)]
  rfl

/-- A field of bits 6:11 is one of the cell. -/
theorem field_of_cell (w : IWord) (a len : Nat) (h : a + len ≤ 6) :
    field w (6 + a) len = field (field w 6 6) a len :=
  (field_field w 6 6 a len h (by decide)).symm

theorem isSvp64_of_ext01 {w : IWord} (h : isExt01 w = true) :
    isSvp64 w = (field (field w 6 6) 1 1 == 1 && field (field w 6 6) 3 1 == 1) := by
  rw [isSvp64, h, Bool.true_and, field_of_cell w 1 1 (by decide), field_of_cell w 3 1 (by decide)]

/-- The cell of the map numbered `c` (30_encoding R83): bits 6:8 are the row, bits 9:11 the column. -/
def cellNumbered (c : BitVec 6) : Option Cell :=
  (prefixMap[c.toNat / 8]?).bind fun row => row[c.toNat % 8]?

theorem cellOf_eq_cellNumbered (w : IWord) : cellOf w = cellNumbered (field w 6 6) := by
  have hrow : w.toNat / 2 ^ 23 % 8 = (field w 6 6).toNat / 8 := by rw [field_toNat]; omega
  have hcol : w.toNat / 2 ^ 20 % 8 = (field w 6 6).toNat % 8 := by rw [field_toNat]; omega
  rw [cellOf, hrow, hcol, cellNumbered]

theorem cellNumbered_isSome (c : BitVec 6) : (cellNumbered c).isSome = true := by
  revert c
  decide

/-- Every test of the decoder on the first word is one on its cell, so the 64 cells are the cases. -/
theorem instrCell_decodePair {w0 : IWord} (w1 : IWord) (h : isExt01 w0 = true) :
    instrCell (decodePair w0 w1) = cellOf w0 := by
  have h3 := field_of_cell w0 0 3 (by decide)
  have h4 := field_of_cell w0 0 4 (by decide)
  rw [cellOf_eq_cellNumbered]
  simp only [decodePair, apply_ite instrCell, isSvp64_of_ext01 h, h3, h4]
  simp only [instrCell, ite_self]
  generalize field w0 6 6 = c
  revert c
  decide

/-! ## The mask of an SVP64 word -/

/-- A word cut at the ends of its primary opcode and of its cell. -/
theorem word_eq_opcode_cell_low (w : IWord) : w = field w 0 6 ++ (field w 6 6 ++ field w 12 20) := by
  rw [field_append_field w 6 6 20 (by decide), field_append_field w 0 6 26 (by decide)]
  exact (field_whole w).symm

/-- The mask keeps the primary opcode and the cell's second and fourth bits. -/
theorem and_svp64Mask_eq_iff (w : IWord) :
    w &&& 0xFD400000 = 0x05400000 ↔ field w 0 6 = 1 ∧ field w 6 6 &&& 0b010100 = 0b010100 := by
  have hmask : (0xFD400000 : IWord) = 0b111111#6 ++ (0b010100#6 ++ 0#20) := by decide
  have hpat : (0x05400000 : IWord) = 1#6 ++ (0b010100#6 ++ 0#20) := by decide
  conv_lhs => rw [word_eq_opcode_cell_low w, hmask, hpat]
  rw [BitVec.and_append, BitVec.and_append, append_eq_append_iff, append_eq_append_iff]
  have hones : field w 0 6 &&& 0b111111#6 = field w 0 6 := BitVec.and_allOnes
  simp [hones]

/-- The two bits of the cell that R85 tests, as a mask. -/
theorem cell_bits_iff_mask (c : BitVec 6) :
    (field c 1 1 == 1 && field c 3 1 == 1) = true ↔ c &&& 0b010100 = 0b010100 := by
  revert c
  decide

theorem isSvp64_iff_toNat (w : IWord) : isSvp64 w = true ↔
    w.toNat / 2 ^ 26 = 1 ∧ w.toNat / 2 ^ 24 % 2 = 1 ∧ w.toNat / 2 ^ 22 % 2 = 1 := by
  rw [isSvp64, Bool.and_eq_true, Bool.and_eq_true, isExt01_iff_toNat, beq_iff_eq, beq_iff_eq, and_assoc,
    ← BitVec.toNat_inj, ← BitVec.toNat_inj, field_toNat, field_toNat]
  rfl

theorem isSvp64_iff_mask (w : IWord) : isSvp64 w = true ↔ w &&& 0xFD400000 = 0x05400000 := by
  rw [and_svp64Mask_eq_iff, ← cell_bits_iff_mask, ← field_of_cell w 1 1 (by decide),
    ← field_of_cell w 3 1 (by decide)]
  simp [isSvp64, isExt01, and_assoc]

/-! ## The words of a decoded pair -/

/-- The fields of `RM`'s bits lie in the first word (30_encoding R87). -/
theorem svp64Word_rmBits {w : IWord} (h : isSvp64 w = true) : svp64Word (rmBits w) = w := by
  simp only [isSvp64, isExt01, Bool.and_eq_true, beq_iff_eq] at h
  obtain ⟨⟨hext, h7⟩, h9⟩ := h
  have b6 : field (rmBits w) 0 1 = field w 6 1 := by
    rw [rmBits, field_append_left _ _ _ _ (by decide), field_append_left _ _ _ _ (by decide), field_whole]
  have b8 : field (rmBits w) 1 1 = field w 8 1 := by
    rw [rmBits, field_append_left _ _ _ _ (by decide), field_append_right _ _ _ _ (by decide) (by decide)]
    exact field_whole _
  have b10 : field (rmBits w) 2 22 = field w 10 22 := by
    rw [rmBits, field_append_right _ _ _ _ (by decide) (by decide)]
    exact field_whole _
  rw [svp64Word, b6, b8, b10, show (1#6) = field w 0 6 from hext.symm, show (1#1) = field w 7 1 from h7.symm,
    field_append_field w 0 6 1 (by decide), field_append_field w 0 7 1 (by decide),
    field_append_field w 0 8 1 (by decide), show field w 7 1 = field w 9 1 from h7.trans h9.symm,
    field_append_field w 0 9 1 (by decide), field_append_field w 0 10 22 (by decide)]
  exact field_whole w

/-- The fields of the plain `add` are its word (43_vector_loop R207). -/
theorem addWord_of_isPlainAdd {w : IWord} (h : isPlainAdd w = true) :
    addWord (field w 6 5) (field w 11 5) (field w 16 5) 0#1 0#1 = w := by
  simp only [isPlainAdd, Bool.and_eq_true, beq_iff_eq] at h
  obtain ⟨hpo, hxo⟩ := h
  have hoe : (0#1) = field w 21 1 := by rw [← field_field w 21 11 0 1 (by decide) (by decide), hxo]; rfl
  have h266 : (266#9) = field w 22 9 := by rw [← field_field w 21 11 1 9 (by decide) (by decide), hxo]; rfl
  have hrc : (0#1) = field w 31 1 := by rw [← field_field w 21 11 10 1 (by decide) (by decide), hxo]; rfl
  calc addWord (field w 6 5) (field w 11 5) (field w 16 5) 0#1 0#1
      = field w 0 6 ++ field w 6 5 ++ field w 11 5 ++ field w 16 5 ++ field w 21 1 ++ field w 22 9 ++
          field w 31 1 := by rw [← hoe, ← h266, ← hrc, hpo]; rfl
    _ = w := by
      rw [field_append_field w 0 6 5 (by decide), field_append_field w 0 11 5 (by decide),
        field_append_field w 0 16 5 (by decide), field_append_field w 0 21 1 (by decide),
        field_append_field w 0 22 9 (by decide), field_append_field w 0 31 1 (by decide)]
      exact field_whole w

/-- A first word with EXT01 is its primary opcode, the next `k` bits and the others. -/
theorem ext01_append_low {w : IWord} {k : Nat} {c : BitVec k} (m : Nat) (hkm : 6 + k + m = 32)
    (h : isExt01 w = true) (hc : (field w 6 k == c) = true) :
    (1#6 ++ c ++ field w (6 + k) m).cast hkm = w := by
  refine (word_eq_append (6 + k) m hkm _ ?_).symm
  rw [← field_append_field w 0 6 k (by omega), show field w 0 6 = 1#6 from eq_of_beq h]
  exact congrArg (1#6 ++ ·) (eq_of_beq hc)

/-- The decoder's tests leave its last line one cell. -/
theorem decodePair_tests_or_last_cell {w : IWord} (h : isExt01 w = true) :
    (isSvp64 w || field w 6 3 == 0b000 || field w 6 3 == 0b100 || field w 6 6 == 0b010000 ||
      field w 6 6 == 0b110000 || field w 6 6 == 0b111001 || field w 6 3 == 0b001 || field w 6 3 == 0b101 ||
      field w 6 4 == 0b0110 || field w 6 6 == 0b010001 || field w 6 6 == 0b010010 ||
      field w 6 6 == 0b010011 || field w 6 6 == 0b110001 || field w 6 6 == 0b110010 ||
      field w 6 6 == 0b110011 || field w 6 6 == 0b111000 || field w 6 6 == 0b111010 ||
      field w 6 6 == 0b111011) = true := by
  rw [isSvp64_of_ext01 h, field_of_cell w 0 3 (by decide), field_of_cell w 0 4 (by decide)]
  generalize field w 6 6 = c
  revert c
  decide

/-- What both branches of a test of the decoder are encoded as. -/
theorem encode_ite {p : Prop} [Decidable p] {i j : Instr} {ws : List IWord} (hi : p → encode i = ws)
    (hj : ¬ p → encode j = ws) : encode (if p then i else j) = ws := by
  split
  · exact hi ‹_›
  · exact hj ‹_›

/-- A decoded pair is encoded as the words it was decoded from. -/
theorem encode_decodePair {w0 : IWord} (w1 : IWord) (h : isExt01 w0 = true) :
    encode (decodePair w0 w1) = [w0, w1] := by
  have cell (k m : Nat) (c : BitVec k) (hkm : 6 + k + m = 32) (hc : (field w0 6 k == c) = true) :
      [(1#6 ++ c ++ field w0 (6 + k) m).cast hkm, w1] = [w0, w1] := by
    rw [ext01_append_low m hkm h hc]
  unfold decodePair
  refine encode_ite (fun hsv => ?svp64) fun nsv =>
    encode_ite (cell 3 23 0b000 rfl) fun n000 =>
    encode_ite (cell 3 23 0b100 rfl) fun n100 =>
    encode_ite (cell 6 20 0b010000 rfl) fun n010000 =>
    encode_ite (cell 6 20 0b110000 rfl) fun n110000 =>
    encode_ite (cell 6 20 0b111001 rfl) fun n111001 =>
    encode_ite (cell 3 23 0b001 rfl) fun n001 =>
    encode_ite (cell 3 23 0b101 rfl) fun n101 =>
    encode_ite (cell 4 22 0b0110 rfl) fun n0110 =>
    encode_ite (cell 6 20 0b010001 rfl) fun n010001 =>
    encode_ite (cell 6 20 0b010010 rfl) fun n010010 =>
    encode_ite (cell 6 20 0b010011 rfl) fun n010011 =>
    encode_ite (cell 6 20 0b110001 rfl) fun n110001 =>
    encode_ite (cell 6 20 0b110010 rfl) fun n110010 =>
    encode_ite (cell 6 20 0b110011 rfl) fun n110011 =>
    encode_ite (cell 6 20 0b111000 rfl) fun n111000 =>
    encode_ite (cell 6 20 0b111010 rfl) fun n111010 =>
    cell 6 20 0b111011 rfl ?last
  case svp64 =>
    have hw0 : (Rm.ofBits (rmBits w0)).toWord = w0 := by rw [Rm.toWord, toBits_ofBits, svp64Word_rmBits hsv]
    refine encode_ite (fun hadd => ?_) fun _ => ?_
    · rw [encode, hw0, addWord_of_isPlainAdd hadd]
    · rw [encode, hw0]
  case last =>
    simpa only [nsv, n000, n100, n010000, n110000, n111001, n001, n101, n0110, n010001, n010010, n010011,
      n110001, n110010, n110011, n111000, n111010, Bool.false_or] using decodePair_tests_or_last_cell h

/-! ## The trap of the empty cells -/

/-- The trap of an instruction with two words (60_exceptions R222, R223). -/
theorem raiseIllegalOf_eq_trapped {i : Instr} {w0 w1 : IWord} (h : encode i = [w0, w1]) (s : State) :
    raiseIllegalOf i s = .next (trapped s w0 w1) := by
  rw [raiseIllegalOf, h]
  rfl

/-- The meaning of each of the twelve instructions of the empty cells is the trap (30_encoding R94). -/
theorem exec_of_empty_cell {i : Instr} (h : instrCell i = some .empty) (s : State) :
    exec i s = raiseIllegalOf i s := by
  cases i with
  | svSuffix | svAdd | v31_8ls | v31_mls | v31_8rr | v31_mrr | v31_mmirr | add => cases h
  | cell001xxx | cell101xxx | cell0110xx | cell010001 | cell010010 | cell010011 | cell110001 | cell110010
    | cell110011 | cell111000 | cell111010 | cell111011 => rfl

theorem exec_empty_cell_trapped {i : Instr} {w0 w1 : IWord} (h : instrCell i = some .empty)
    (he : encode i = [w0, w1]) (s : State) : exec i s = .next (trapped s w0 w1) :=
  (exec_of_empty_cell h s).trans (raiseIllegalOf_eq_trapped he s)

/-! ## The obligations -/

/-- Settles O3: the decoder reads no more of the first word than its cell. -/
theorem prefixOpcodeMapDecides : Obligations.PrefixOpcodeMapDecides := by
  unfold Obligations.PrefixOpcodeMapDecides
  refine ⟨fun w0 w1 h => ⟨?_, instrCell_decodePair w1 (isExt01_iff_toNat.mpr h)⟩, by decide⟩
  rw [cellOf_eq_cellNumbered]
  exact cellNumbered_isSome _

/-- Settles O4: the test is on three fields, and the mask is the one that keeps them. -/
theorem svp64RecognisedByMask : Obligations.Svp64RecognisedByMask := by
  unfold Obligations.Svp64RecognisedByMask
  exact fun w0 => ⟨isSvp64_iff_toNat w0, isSvp64_iff_mask w0⟩

/-- Settles O42: a word of an empty cell is decoded to an instruction of that cell, whose words are the word and
the one after it; the trap records both. -/
theorem emptyCellsTrap : Obligations.EmptyCellsTrap := by
  unfold Obligations.EmptyCellsTrap
  constructor
  · intro w0 w1 s hext hcell
    have h := isExt01_iff_toNat.mpr hext
    exact exec_empty_cell_trapped ((instrCell_decodePair w1 h).trans hcell) (encode_decodePair w1 h) s
  · intro a b c w1 s
    and_intros
    all_goals
      refine exec_empty_cell_trapped rfl ?_ s
      exact congrArg (· :: [w1]) (append_eq_add _ _ rfl)

end Sys2Proof
end

section
/-!
PROOFS. Element widths and the sub-vector length, value by value of their two-bit fields
(40_rm_width_subvl_mode R113, R115, R123), and the width of an FPR operand of the element loop.
-/

namespace Sys2Proof

open Machine

/-! ## The width of an integer operand -/

@[simp] theorem intWidth_default (d : Width) : intWidth d 0b00#2 = d := rfl

@[simp] theorem intWidth_word (d : Width) : intWidth d 0b01#2 = .w32 := rfl

@[simp] theorem intWidth_halfword (d : Width) : intWidth d 0b10#2 = .w16 := rfl

@[simp] theorem intWidth_byte (d : Width) : intWidth d 0b11#2 = .w8 := rfl

/-! ## The width of a floating-point operand -/

/-- The value of `bf16` is the one without a width (R115, R116). -/
theorem fpWidth_eq_none_iff {ew : BitVec 2} : fpWidth ew = none ↔ ew = 0b11 := by
  revert ew
  decide

/-- The loop's fall-back width of an FPR operand is for `bf16` alone; every other value has its own in the table. -/
theorem some_width_fpr {ew : BitVec 2} (h : ew ≠ 0b11) (n : BitVec 7) (v : Bool) (d : Width) :
    some ((⟨.fpr n, v⟩ : Loc).width d ew) = fpWidth ew := by
  obtain ⟨w, hw⟩ := Option.ne_none_iff_exists'.mp (mt fpWidth_eq_none_iff.mp h)
  rw [Loc.width_fpr, hw, Option.getD_some]

/-! ## The obligation -/

/-- Settles O14: the tables hold value by value; an operand of the loop reads the table of its own file, the
FPR's wherever that table has a width. -/
theorem widthTables : Obligations.WidthTables := by
  unfold Obligations.WidthTables
  refine ⟨fun d n v ew => ⟨Loc.width_gpr n v d ew, fun h => some_width_fpr h n v d⟩, fun d => ?int, ?fpAndSubvl⟩
  case int => simp [Width.bits]
  case fpAndSubvl => decide

end Sys2Proof
end

section
/-!
PROOFS. The register number, CR field or CR bit and the tag of an operand, from its field of the suffix and
its EXTRA sub-field (42_extra_registers R165 to R174).
-/

namespace Sys2Proof

open Reference Machine

/-! ## The tag and the two low bits of a sub-field -/

/-- The tag is the most significant of the three bits (R165). -/
theorem tag_eq_one_iff {spec : BitVec 3} : field spec 0 1 = 1#1 ↔ 4 ≤ spec.toNat := by
  rw [← BitVec.toNat_inj, field_toNat, BitVec.toNat_ofNat]
  omega

theorem specLow_toNat (spec : BitVec 3) : (field spec 1 2).toNat = spec.toNat % 4 := by
  rw [field_toNat, Nat.pow_zero, Nat.div_one]
  rfl

/-- A scalar's tag is zero, so its low bits are the whole value. -/
theorem specLow_toNat_of_scalar {spec : BitVec 3} (h : ¬ 4 ≤ spec.toNat) :
    (field spec 1 2).toNat = spec.toNat := by
  rw [specLow_toNat, Nat.mod_eq_of_lt (by omega)]

theorem specTag_append (tag : BitVec 1) (low : BitVec 2) : field (tag ++ low) 0 1 = tag := by
  rw [field_append_left _ _ _ _ (by decide), field_whole]

theorem specLow_append (tag : BitVec 1) (low : BitVec 2) : field (tag ++ low) 1 2 = low := by
  rw [field_append_right _ _ _ _ (by decide) (by decide)]
  exact field_whole low

/-! The four values of EXTRA2 are rows `000`, `001`, `100` and `110` of EXTRA3 (R167). -/

@[simp] theorem specOf2_scalarLow : specOf2 0b00#2 = 0b000#3 := rfl

@[simp] theorem specOf2_scalarHigh : specOf2 0b01#2 = 0b001#3 := rfl

@[simp] theorem specOf2_vectorLow : specOf2 0b10#2 = 0b100#3 := rfl

@[simp] theorem specOf2_vectorHigh : specOf2 0b11#2 = 0b110#3 := rfl

/-! ## The register of a GPR or FPR operand -/

theorem decodeReg_of_vector {spec : BitVec 3} (h : field spec 0 1 = 1#1) (f : BitVec 5) :
    decodeReg f spec = (f ++ field spec 1 2, true) := if_pos h

theorem decodeReg_of_scalar {spec : BitVec 3} (h : field spec 0 1 ≠ 1#1) (f : BitVec 5) :
    decodeReg f spec = (field spec 1 2 ++ f, false) := if_neg h

/-- `DecodeReg` in numbers is the table of R166. -/
theorem decodeReg_eq_refReg (f : BitVec 5) (spec : BitVec 3) :
    ((decodeReg f spec).1.toNat, (decodeReg f spec).2) = refReg f spec := by
  by_cases hv : 4 ≤ spec.toNat
  · rw [decodeReg_of_vector (tag_eq_one_iff.mpr hv), refReg, if_pos hv, append_toNat, specLow_toNat, Nat.mul_comm]
    rfl
  · rw [decodeReg_of_scalar (mt tag_eq_one_iff.mp hv), refReg, if_neg hv, append_toNat,
      specLow_toNat_of_scalar hv, Nat.mul_comm]
    rfl

/-- A vector can start at any register: the upper five bits are the operand's field, the lower two the
sub-field's (R166). -/
theorem decodeReg_reaches_vector (n : BitVec 7) :
    decodeReg (field n 0 5) (1#1 ++ field n 5 2) = (n, true) := by
  rw [decodeReg_of_vector (specTag_append _ _), specLow_append, field_append_field n 0 5 2 (by decide)]
  exact congrArg (·, true) (field_whole n)

/-- A scalar can be any register: the lower five bits are the operand's field, the upper two the sub-field's
(R166). -/
theorem decodeReg_reaches_scalar (n : BitVec 7) :
    decodeReg (field n 2 5) (0#1 ++ field n 0 2) = (n, false) := by
  have htag : field (0#1 ++ field n 0 2) 0 1 ≠ 1#1 := by rw [specTag_append]; decide
  rw [decodeReg_of_scalar htag, specLow_append, field_append_field n 0 2 5 (by decide)]
  exact congrArg (·, false) (field_whole n)

/-! ## The CR field and the CR bit of a CR operand -/

theorem decodeCrField_of_vector {spec : BitVec 3} (h : field spec 0 1 = 1#1) (f : BitVec 3) :
    decodeCrField f spec = (f ++ field spec 1 2 ++ 0#2, true) := if_pos h

theorem decodeCrField_of_scalar {spec : BitVec 3} (h : field spec 0 1 ≠ 1#1) (f : BitVec 3) :
    decodeCrField f spec = (0#2 ++ field spec 1 2 ++ f, false) := if_neg h

/-- `DecodeCRField` in numbers is the table of R171, by the formula of R174. -/
theorem decodeCrField_toNat (f spec : BitVec 3) :
    ((decodeCrField f spec).1.toNat, (decodeCrField f spec).2) =
      if 4 ≤ spec.toNat then (16 * f.toNat + 4 * (spec.toNat % 4), true)
      else (8 * spec.toNat + f.toNat, false) := by
  by_cases hv : 4 ≤ spec.toNat
  · rw [decodeCrField_of_vector (tag_eq_one_iff.mpr hv), if_pos hv, append_toNat, append_toNat, specLow_toNat,
      BitVec.toNat_zero, Prod.mk.injEq]
    exact ⟨by omega, rfl⟩
  · rw [decodeCrField_of_scalar (mt tag_eq_one_iff.mp hv), if_neg hv, append_toNat, append_toNat,
      specLow_toNat_of_scalar hv, BitVec.toNat_zero, Prod.mk.injEq]
    exact ⟨by omega, rfl⟩

/-- The CR field that a CR bit lies in is numbered by the bit's upper three bits (R174). -/
theorem field_zero_three_eq_ofNat (ba : BitVec 5) : field ba 0 3 = BitVec.ofNat 3 (ba.toNat / 4) := by
  apply BitVec.eq_of_toNat_eq
  rw [field_toNat, BitVec.toNat_ofNat]
  rfl

/-- A CR bit is the bit of the same number, modulo 4, of the CR field its upper three bits name (R170). -/
theorem decodeCrBit_toNat (ba : BitVec 5) (spec : BitVec 3) :
    (decodeCrBit ba spec).1.toNat =
      4 * (decodeCrField (BitVec.ofNat 3 (ba.toNat / 4)) spec).1.toNat + ba.toNat % 4 := by
  rw [decodeCrBit, field_zero_three_eq_ofNat, append_toNat, field_toNat, Nat.mul_comm, Nat.pow_zero, Nat.div_one]
  rfl

theorem decodeCrBit_tag (ba : BitVec 5) (spec : BitVec 3) :
    (decodeCrBit ba spec).2 = (decodeCrField (BitVec.ofNat 3 (ba.toNat / 4)) spec).2 := by
  rw [decodeCrBit, field_zero_three_eq_ofNat]

/-! ## The obligations -/

/-- Settles O11: the EXTRA3 table is `DecodeReg` in numbers, the EXTRA2 table is four of its rows, and each
register number is cut where the tag says. -/
theorem registerDecodeTables : Obligations.RegisterDecodeTables := by
  unfold Obligations.RegisterDecodeTables
  refine ⟨decodeReg_eq_refReg, fun f => ?extra2, fun n v => ?reach⟩
  case extra2 =>
    simp [decodeReg_eq_refReg, refReg]
  case reach =>
    cases v with
    | true => exact ⟨_, _, decodeReg_reaches_vector n⟩
    | false => exact ⟨_, _, decodeReg_reaches_scalar n⟩

/-- Settles O12: the EXTRA3 table is `DecodeCRField` in numbers, the EXTRA2 table is four of its rows, and a CR
bit is decoded by way of its field. -/
theorem crOperandDecode : Obligations.CrOperandDecode := by
  unfold Obligations.CrOperandDecode
  refine ⟨decodeCrField_toNat, fun f => ?extra2,
    fun ba spec => ⟨decodeCrBit_toNat ba spec, decodeCrBit_tag ba spec⟩⟩
  case extra2 =>
    simp [decodeCrField_toNat]

end Sys2Proof
end

section
/-!
PROOFS. Decoder and encoder are inverse to one another, and `RM` and the word that carries it as numbers
(30_encoding R82, R86, R87).
-/

namespace Sys2Proof

open Reference Machine

/-! ## Instructions from their words -/

/-- The fields of a first word of which the primary opcode and the first `k` cell bits are fixed. -/
theorem fields_of_fixed_append {k m : Nat} {w : BitVec (6 + k + m)} (p : BitVec (6 + k)) (low : BitVec m)
    (hw : p ++ low = w) :
    field w 0 6 = field p 0 6 ∧ field w 6 k = field p 6 k ∧ field w (6 + k) m = low := by
  subst hw
  refine ⟨field_append_left _ _ _ _ (by omega), field_append_left _ _ _ _ (by omega), ?_⟩
  rw [field_append_right _ _ _ _ (by omega) (by omega), Nat.sub_self, field_whole]

/-- A cell is not the one numbered `c` where their first `k` bits differ. -/
theorem cell_beq_of_fixed_bits {w : IWord} {k : Nat} {p : BitVec k} (hw : field w 6 k = p) (hk : k ≤ 6)
    (c : BitVec 6) (hp : p ≠ field c 0 k) : (field w 6 6 == c) = false :=
  cell_ne k hk c (hw ▸ hp)

theorem isSvp64_eq_false_of_bit7 {w : IWord} (h : field w 7 1 = 0) : isSvp64 w = false := by
  simp [isSvp64, h]

theorem isSvp64_eq_false_of_bit9 {w : IWord} (h : field w 9 1 = 0) : isSvp64 w = false := by
  simp [isSvp64, h]

/-- The decoder gives back every well-formed instruction of two words from its words. -/
theorem decodePair_of_encode {i : Instr} {w0 w1 : IWord} (hwf : i.WellFormed = true)
    (h : encode i = [w0, w1]) : isExt01 w0 = true ∧ decodePair w0 w1 = i := by
  cases i with
  | add => cases h
  | svSuffix rm w1 =>
    cases h
    have hplain : isPlainAdd w1 = false := by simpa [Instr.WellFormed] using hwf
    refine ⟨isExt01_toWord rm, ?_⟩
    simp [decodePair, Rm.toWord, isSvp64_svp64Word, hplain, rmBits_svp64Word, ofBits_toBits]
  | svAdd rm rt ra rb =>
    cases h
    obtain ⟨-, hrt, hra, hrb, -⟩ := addWord_fields rt ra rb 0#1 0#1
    refine ⟨isExt01_toWord rm, ?_⟩
    simp [decodePair, Rm.toWord, isSvp64_svp64Word, isPlainAdd_addWord, rmBits_svp64Word, ofBits_toBits,
      hrt, hra, hrb]
  | v31_8rr low w1 | v31_mrr low w1 | v31_mmirr low w1 | cell010001 low w1 | cell010010 low w1
    | cell010011 low w1 | cell110001 low w1 | cell110010 low w1 | cell110011 low w1 | cell111000 low w1
    | cell111010 low w1 | cell111011 low w1 =>
    obtain ⟨hw0, rfl⟩ : _ ++ low = w0 ∧ w1 = _ := by simpa [encode] using h
    obtain ⟨hpo, hcell, hlow⟩ := fields_of_fixed_append (k := 6) _ low hw0
    have hext : isExt01 w0 = true := congrArg (· == 1) hpo
    refine ⟨hext, ?_⟩
    simp only [decodePair, isSvp64_of_ext01 hext, field_of_cell _ 0 3 (by decide),
      field_of_cell _ 0 4 (by decide), hcell, hlow]
    rfl
  | v31_8ls low w1 | v31_mls low w1 | cell001xxx low w1 | cell101xxx low w1 =>
    obtain ⟨hw0, rfl⟩ : _ ++ low = w0 ∧ w1 = _ := by simpa [encode] using h
    obtain ⟨hpo, hcell, hlow⟩ := fields_of_fixed_append (k := 3) _ low hw0
    have hbit : field w0 7 1 = 0 := by
      rw [← field_field w0 6 3 1 1 (by decide) (by decide), hcell]
      rfl
    have n8rr := cell_beq_of_fixed_bits hcell (by decide) 0b010000 (by decide)
    have nmrr := cell_beq_of_fixed_bits hcell (by decide) 0b110000 (by decide)
    have nmmirr := cell_beq_of_fixed_bits hcell (by decide) 0b111001 (by decide)
    refine ⟨congrArg (· == 1) hpo, ?_⟩
    rw [decodePair, isSvp64_eq_false_of_bit7 hbit, n8rr, nmrr, nmmirr, hcell, hlow]
    rfl
  | cell0110xx low w1 =>
    obtain ⟨hw0, rfl⟩ : _ ++ low = w0 ∧ w1 = _ := by simpa [encode] using h
    obtain ⟨hpo, hcell, hlow⟩ := fields_of_fixed_append (k := 4) _ low hw0
    have hrow : field w0 6 3 = 0b011 := by
      rw [← field_field w0 6 4 0 3 (by decide) (by decide), hcell]
      rfl
    have hbit : field w0 9 1 = 0 := by
      rw [← field_field w0 6 4 3 1 (by decide) (by decide), hcell]
      rfl
    have n8rr := cell_beq_of_fixed_bits hcell (by decide) 0b010000 (by decide)
    have nmrr := cell_beq_of_fixed_bits hcell (by decide) 0b110000 (by decide)
    have nmmirr := cell_beq_of_fixed_bits hcell (by decide) 0b111001 (by decide)
    refine ⟨congrArg (· == 1) hpo, ?_⟩
    rw [decodePair, isSvp64_eq_false_of_bit9 hbit, hrow, n8rr, nmrr, nmmirr, hcell, hlow]
    rfl

/-- Both branches of a test of the decoder are well-formed. -/
theorem wellFormed_ite {p : Prop} [Decidable p] {i j : Instr} (hi : p → i.WellFormed = true)
    (hj : ¬ p → j.WellFormed = true) : (if p then i else j).WellFormed = true := by
  split
  · exact hi ‹_›
  · exact hj ‹_›

/-- The decoder answers well-formed instructions: it takes the plain `add` out before it makes an `svSuffix`. -/
theorem wellFormed_decodePair (w0 w1 : IWord) : (decodePair w0 w1).WellFormed = true := by
  unfold decodePair
  refine wellFormed_ite (fun _ => wellFormed_ite (fun _ => rfl) fun hadd => ?suffix) fun _ => ?cells
  case suffix => simpa [Instr.WellFormed] using hadd
  case cells =>
    iterate 16 refine wellFormed_ite (fun _ => rfl) fun _ => ?_
    rfl

/-! ## Bytes and words -/

theorem bytesOfWords_pair (w0 w1 : IWord) :
    bytesOfWords [w0, w1] = bytesOfWords [w0] ++ bytesOfWords [w1] := rfl

theorem bytesOfWords_length (ws : List IWord) : (bytesOfWords ws).length = 4 * ws.length := by
  induction ws with
  | nil => rfl
  | cons w ws ih =>
    have hw : (bytesOfWord Config.ifetchLE w).length = 4 := rfl
    rw [bytesOfWords, List.flatMap_cons, List.length_append, hw, ← bytesOfWords, ih, List.length_cons]
    omega

theorem bytesOfWords_wordOfBytes (b0 b1 b2 b3 : Byte) :
    bytesOfWords [wordOfBytes Config.ifetchLE b0 b1 b2 b3] = [b0, b1, b2, b3] := by
  rw [bytesOfWords, List.flatMap_singleton, bytesOfWord_wordOfBytes]

/-- All that the decoder can accept: the bytes of a word with EXT01 and of a second one, or those of the plain
`add` (30_encoding R82, R97). -/
theorem decode_ok {bytes rest : List Byte} {i : Instr} (h : decode bytes = .ok (i, rest)) :
    (∃ w0 w1, isExt01 w0 = true ∧ bytes = bytesOfWords [w0, w1] ++ rest ∧ i = decodePair w0 w1) ∨
    ∃ w, isExt01 w = false ∧ isPlainAdd w = true ∧ bytes = bytesOfWords [w] ++ rest ∧
      i = .add (field w 6 5) (field w 11 5) (field w 16 5) := by
  unfold decode at h
  split at h
  case h_2 => cases h
  case h_1 b0 b1 b2 b3 rest' =>
    dsimp only at h
    split at h
    case isTrue hext =>
      split at h
      · cases h
        refine .inl ⟨_, _, hext, ?_, rfl⟩
        rw [bytesOfWords_pair, bytesOfWords_wordOfBytes, bytesOfWords_wordOfBytes]
        rfl
      · cases h
    case isFalse hext =>
      unfold decodeScalar at h
      split_ifs at h with hadd
      · cases h
        refine .inr ⟨_, by simpa using hext, hadd, ?_, rfl⟩
        rw [bytesOfWords_wordOfBytes]
        rfl

/-! ## `RM` and its word as numbers -/

/-- R87 in numbers. -/
theorem rmBits_toNat (w : IWord) : (rmBits w).toNat =
    w.toNat / 2 ^ 25 % 2 * 2 ^ 23 + w.toNat / 2 ^ 23 % 2 * 2 ^ 22 + w.toNat % 2 ^ 22 := by
  rw [rmBits, append_toNat, append_toNat, field_toNat, field_toNat, field_toNat]
  omega

/-- R86 in numbers: the constant bits, and `RM[0]`, `RM[1]` and `RM[2:23]` at their places. -/
theorem svp64Word_toNat (rm : BitVec 24) : (svp64Word rm).toNat =
    0x05400000 + rm.toNat / 2 ^ 23 % 2 * 2 ^ 25 + rm.toNat / 2 ^ 22 % 2 * 2 ^ 23 + rm.toNat % 2 ^ 22 := by
  simp only [svp64Word, append_toNat, field_toNat, BitVec.toNat_ofNat]
  omega

/-! ## The obligations -/

/-- Settles O1: an instruction of two words is decoded from them, and the plain `add` from its one. -/
theorem decodeEncodeRoundTrip : Obligations.DecodeEncodeRoundTrip := by
  unfold Obligations.DecodeEncodeRoundTrip
  intro i rest hwf
  have pair (w0 w1 : IWord) (h : encode i = [w0, w1]) : decode (encodeBytes i ++ rest) = .ok (i, rest) := by
    obtain ⟨hext, hi⟩ := decodePair_of_encode hwf h
    rw [encodeBytes, h, decode_pair w0 w1 rest hext, hi]
  cases i with
  | add rt ra rb =>
    obtain ⟨-, hrt, hra, hrb, -⟩ := addWord_fields rt ra rb 0#1 0#1
    have hplain : isPlainAdd (addWord rt ra rb 0#1 0#1) = true := isPlainAdd_addWord rt ra rb 0#1 0#1
    rw [encodeBytes, encode, decode_single _ _ (isExt01_addWord rt ra rb 0#1 0#1), decodeScalar, if_pos hplain,
      hrt, hra, hrb]
    rfl
  | _ => exact pair _ _ rfl

/-- Settles O2: the words the decoder read are those of the instruction it answers. -/
theorem encodeDecodeRoundTrip : Obligations.EncodeDecodeRoundTrip := by
  unfold Obligations.EncodeDecodeRoundTrip
  intro bytes i rest h
  obtain ⟨w0, w1, hext, rfl, rfl⟩ | ⟨w, -, hadd, rfl, rfl⟩ := decode_ok h
  · exact ⟨by rw [encodeBytes, encode_decodePair w1 hext], wellFormed_decodePair w0 w1⟩
  · exact ⟨by rw [encodeBytes, encode, addWord_of_isPlainAdd hadd], rfl⟩

/-- Settles O5: both directions are cut at the bits R86 and R87 name. -/
theorem remappedEncodingAsNumbers : Obligations.RemappedEncodingAsNumbers := by
  unfold Obligations.RemappedEncodingAsNumbers
  exact ⟨rmBits_toNat, svp64Word_toNat, rmBits_svp64Word, fun _ => svp64Word_rmBits⟩

/-- Settles O6: the decoder takes two words with EXT01 and one without. -/
theorem lengthFromPrimaryOpcode : Obligations.LengthFromPrimaryOpcode := by
  unfold Obligations.LengthFromPrimaryOpcode
  intro bytes i rest h
  obtain ⟨w0, w1, hext, rfl, rfl⟩ | ⟨w, hext, hadd, rfl, rfl⟩ := decode_ok h
  · refine ⟨w0, by rw [encode_decodePair w1 hext]; rfl, ?_⟩
    rw [if_pos (isExt01_iff_toNat.mp hext), List.length_append, bytesOfWords_length, Nat.add_comm]
    rfl
  · refine ⟨w, by rw [encode, addWord_of_isPlainAdd hadd]; rfl, ?_⟩
    rw [if_neg (mt isExt01_iff_toNat.mpr (by simp [hext])), List.length_append, bytesOfWords_length, Nat.add_comm]
    rfl

/-- Settles O7: each word is run through the decoder. -/
theorem sampleWordsDecode : Obligations.SampleWordsDecode := by
  unfold Obligations.SampleWordsDecode
  decide

end Sys2Proof
end

section
/-!
PROOFS. Looking a suffix up: which words a row of SuffixTable takes, and the meaning of `sv.<suffix>` by what the
table holds (43_vector_loop R191, R205 to R207, 30_encoding R96).
-/

namespace Sys2Proof

open Reference Machine

/-! ## The words of a row -/

/-- A mask that keeps the primary opcode and one more field. -/
theorem and_mask_eq_iff {m l r : Nat} (w : BitVec (6 + m + l + r)) (po : BitVec 6) (xo : BitVec l) :
    w &&& (BitVec.allOnes 6 ++ 0#m ++ BitVec.allOnes l ++ 0#r) = po ++ 0#m ++ xo ++ 0#r ↔
      field w 0 6 = po ∧ field w (6 + m) l = xo := by
  have hw : w = field w 0 6 ++ field w 6 m ++ field w (6 + m) l ++ field w (6 + m + l) r := by
    have h1 := field_append_field w 0 6 m (by omega)
    have h2 := field_append_field w 0 (6 + m) l (by omega)
    have h3 := field_append_field w 0 (6 + m + l) r (by omega)
    simp only [Nat.zero_add] at h1 h2 h3
    rw [h1, h2, h3, field_whole]
  conv_lhs => rw [hw]
  simp only [BitVec.and_append, append_eq_append_iff, BitVec.and_allOnes, BitVec.and_zero, and_true]

theorem dRow_matches {w : IWord} {po : BitVec 6} {name : SuffixName} :
    w &&& (dRow po name).mask = (dRow po name).pattern ↔ field w 0 6 = po := by
  have h := and_mask_eq_iff (m := 26) (l := 0) (r := 0) w po 0#0
  simp only [BitVec.append_zero_width, BitVec.of_length_zero, and_true] at h
  exact h

theorem dsRow_matches {w : IWord} {po : BitVec 6} {xo : BitVec 2} {name : SuffixName} :
    w &&& (dsRow po xo name).mask = (dsRow po xo name).pattern ↔ field w 0 6 = po ∧ field w 30 2 = xo := by
  have h := and_mask_eq_iff (m := 24) (l := 2) (r := 0) w po xo
  simp only [BitVec.append_zero_width] at h
  exact h

theorem vaRow_matches {w : IWord} {xo : BitVec 6} {name : SuffixName} :
    w &&& (vaRow xo name).mask = (vaRow xo name).pattern ↔ field w 0 6 = 4 ∧ field w 26 6 = xo := by
  have h := and_mask_eq_iff (m := 20) (l := 6) (r := 0) w 4 xo
  simp only [BitVec.append_zero_width] at h
  exact h

theorem xRow_matches {w : IWord} {po : BitVec 6} {xo : BitVec 10} {name : SuffixName} :
    w &&& (xRow po xo name).mask = (xRow po xo name).pattern ↔ field w 0 6 = po ∧ field w 21 10 = xo :=
  and_mask_eq_iff (m := 15) (l := 10) (r := 1) w po xo

theorem addRow_matches {w : IWord} :
    w &&& addRow.mask = addRow.pattern ↔ field w 0 6 = 31 ∧ field w 22 9 = 266 :=
  and_mask_eq_iff (m := 16) (l := 9) (r := 1) w 31 266

/-! The fields that rows fix, from the word as a number. -/

theorem field_eq_ofNat {n : Nat} (w : BitVec n) (start len : Nat) :
    field w start len = BitVec.ofNat len (w.toNat / 2 ^ (n - start - len)) := by
  apply BitVec.eq_of_toNat_eq
  rw [field_toNat, BitVec.toNat_ofNat]

theorem opcode_eq_ofNat {w : IWord} {po : Nat} (h : w.toNat / 2 ^ 26 = po) : field w 0 6 = BitVec.ofNat 6 po :=
  h ▸ field_eq_ofNat w 0 6

theorem extendedOpcode_eq_ofNat {w : IWord} {xo : Nat} (h : w.toNat / 2 % 1024 = xo) :
    field w 21 10 = BitVec.ofNat 10 xo := by
  rw [field_eq_ofNat, ← h]
  apply BitVec.eq_of_toNat_eq
  rw [BitVec.toNat_ofNat, BitVec.toNat_ofNat, Nat.mod_mod_of_dvd _ (by decide)]
  rfl

/-! ## The words of no row -/

/-- A word is in no row if its fixed bits differ from those of every row. -/
theorem suffixTable_eq_none {w : IWord} {q : SuffixRow} (hw : w &&& q.mask = q.pattern)
    (hq : ∀ r ∈ suffixRows, (r.pattern ^^^ q.pattern) &&& (r.mask &&& q.mask) ≠ 0) : suffixTable w = none := by
  rw [suffixTable, Option.map_eq_none_iff, List.find?_eq_none]
  intro r hr hmatch
  exact hq r hr (by rw [← eq_of_beq hmatch, ← hw, xor_patterns_eq_zero])

set_option maxRecDepth 20000 in
/-- No instruction of 32 bits has primary opcode 1 (30_encoding R82). -/
theorem suffixTable_of_ext01 {w : IWord} (h : isExt01 w = true) : suffixTable w = none :=
  suffixTable_eq_none (q := dRow 1 .add) (dRow_matches.mpr (eq_of_beq h)) (by decide)

set_option maxRecDepth 20000 in
/-- Load-reserve, store-conditional and atomic instructions have no row (20_memory R69). -/
theorem suffixTable_of_reserveOrAtomic {w : IWord} (hpo : w.toNat / 2 ^ 26 = 31)
    (hxo : w.toNat / 2 % 1024 ∈ reserveOrAtomic) : suffixTable w = none := by
  have hrows : ∀ xo ∈ reserveOrAtomic, ∀ r ∈ suffixRows,
      (r.pattern ^^^ (xRow 31 (BitVec.ofNat 10 xo) .add).pattern) &&&
        (r.mask &&& (xRow 31 (BitVec.ofNat 10 xo) .add).mask) ≠ 0 := by decide
  exact suffixTable_eq_none (xRow_matches.mpr ⟨opcode_eq_ofNat hpo, extendedOpcode_eq_ofNat rfl⟩) (hrows _ hxo)

theorem isDraftWord_eq_isDraft (w : IWord) : isDraftWord w = isDraft w := by
  have hpo : field w 0 6 = 4 ↔ w.toNat / 2 ^ 26 = 4 := by
    rw [← BitVec.toNat_inj, field_toNat, Nat.mod_eq_of_lt (by omega)]
    rfl
  have hxo (xo : BitVec 6) : field w 26 6 = xo ↔ w.toNat % 64 = xo.toNat := by
    rw [← BitVec.toNat_inj, field_toNat, Nat.pow_zero, Nat.div_one]
    exact Iff.rfl
  have hrow (xo : BitVec 6) : (w &&& 0xFC00003F == 4#6 ++ 0#20 ++ xo) =
      (w.toNat / 2 ^ 26 == 4 && w.toNat % 64 == xo.toNat) := by
    rw [Bool.eq_iff_iff, beq_iff_eq, Bool.and_eq_true, beq_iff_eq, beq_iff_eq, ← hpo, ← hxo]
    exact vaRow_matches (name := .add)
  rw [isDraft, Bool.and_or_distrib_left]
  exact congrArg₂ _ (hrow 50) (hrow 58)

set_option maxRecDepth 20000 in
/-- The draft `maddedu` and `divmod2du` have no row (42_extra_registers R154). -/
theorem suffixTable_of_draft {w : IWord} (h : isDraftWord w = true) : suffixTable w = none := by
  obtain h | h := Bool.or_eq_true_iff.mp h
  · exact suffixTable_eq_none (q := vaRow 50 .add) (eq_of_beq h) (by decide)
  · exact suffixTable_eq_none (q := vaRow 58 .add) (eq_of_beq h) (by decide)

/-! ## The meaning of `sv.<suffix>` by what the table holds -/

section ByTable

variable {rm : Rm} {w1 : IWord} {s : State}

theorem exec_svSuffix_of_ext01 (h : isExt01 w1 = true) :
    exec (.svSuffix rm w1) s = .next (trapped s rm.toWord w1) := by
  change execSvSuffix rm w1 s = _
  rw [execSvSuffix, if_pos h]
  rfl

/-- A word of a row has no EXT01, so the row alone says what is done. -/
theorem exec_svSuffix_of_row {d : Suffix} (h : suffixTable w1 = some (.vectoriseable d)) :
    exec (.svSuffix rm w1) s = d.run rm rm.toWord w1 s := by
  have hext : isExt01 w1 ≠ true := fun he => by simp [suffixTable_of_ext01 he] at h
  change execSvSuffix rm w1 s = _
  rw [execSvSuffix, if_neg hext, h]

theorem exec_svSuffix_of_unVectoriseable (h : suffixTable w1 = some .unVectoriseable) :
    exec (.svSuffix rm w1) s = .next (trapped s rm.toWord w1) := by
  change execSvSuffix rm w1 s = _
  rw [execSvSuffix, h, ite_self]
  rfl

theorem exec_svSuffix_of_base (h : suffixTable w1 = none) (hext : isExt01 w1 = false)
    (hbase : isBaseWord w1 = true) : exec (.svSuffix rm w1) s = .refused .suffixNotInstantiated := by
  change execSvSuffix rm w1 s = _
  rw [execSvSuffix, hext, h]
  simp [hbase]

theorem exec_svSuffix_of_not_base (h : suffixTable w1 = none) (hbase : isBaseWord w1 = false) :
    exec (.svSuffix rm w1) s = .next (trapped s rm.toWord w1) := by
  change execSvSuffix rm w1 s = _
  rw [execSvSuffix, h]
  simp only [hbase]
  exact ite_self _

/-- All that `sv.<suffix>` can be, whatever the state: the trap, the refusal of a word BASE has and the table
has not, or its description's checks and loop. -/
theorem exec_svSuffix_cases (rm : Rm) (w1 : IWord) :
    (∀ s, exec (.svSuffix rm w1) s = .next (trapped s rm.toWord w1)) ∨
    (∀ s, exec (.svSuffix rm w1) s = .refused .suffixNotInstantiated) ∨
    ∃ d : Suffix, ∀ s, exec (.svSuffix rm w1) s = d.run rm rm.toWord w1 s := by
  cases htab : suffixTable w1 with
  | some e =>
    cases e with
    | unVectoriseable => exact .inl fun _ => exec_svSuffix_of_unVectoriseable htab
    | vectoriseable d => exact .inr (.inr ⟨d, fun _ => exec_svSuffix_of_row htab⟩)
  | none =>
    cases hext : isExt01 w1 with
    | true => exact .inl fun _ => exec_svSuffix_of_ext01 hext
    | false =>
      cases hbase : isBaseWord w1 with
      | true => exact .inr (.inl fun _ => exec_svSuffix_of_base htab hext hbase)
      | false => exact .inl fun _ => exec_svSuffix_of_not_base htab hbase

end ByTable

/-! ## The row `add` -/

/-- The row of `add` takes all four of its forms (43_vector_loop R207). -/
theorem suffixTable_addWord (rt ra rb : BitVec 5) (oe rc : BitVec 1) :
    suffixTable (addWord rt ra rb oe rc) = some (.vectoriseable (addSuffix rt ra rb (oe == 1) (rc == 1))) := by
  obtain ⟨hpo, hrt, hra, hrb, hoe, hxo, hrc⟩ := addWord_fields rt ra rb oe rc
  rw [suffixTable_of_row (r := addRow) (List.mem_cons_self ..) (addRow_matches.mpr ⟨hpo, hxo⟩)]
  simp only [addRow, SuffixName.entry, SuffixName.description, hrt, hra, hrb, hoe, hrc]

end Sys2Proof
end

section
/-!
PROOFS. The checks on a suffix: what makes a field reserved and so traps, and the names of the refusals
(43_vector_loop R192, R202, 40_rm_width_subvl_mode R116 to R120, 42_extra_registers R179, R180).
-/

namespace Sys2Proof

open Reference Machine

/-! ## Where the sub-fields lie -/

theorem layout_slots (l : Layout) : (layoutStart l).map Prod.fst = l.slots := by
  cases l <;> rfl

/-- The `k`-th sub-field begins `k` sub-fields after `RM[10]` (42_extra_registers R180). -/
theorem layoutStart_position (l : Layout) : ∀ p ∈ layoutStart l, ∃ k < l.slots.length,
    l.slots[k]? = some p.1 ∧ l.slots.idxOf p.1 = k ∧ p.2 - 10 = (if l.isExtra3 then 3 else 2) * k := by
  cases l <;> decide

theorem spec_of_layoutStart {l : Layout} {p : Slot × Nat} (hp : p ∈ layoutStart l) (extra : BitVec 9) :
    l.spec extra p.1 = if l.isExtra3 then specOf3 (field extra (p.2 - 10) 3)
      else specOf2 (field extra (p.2 - 10) 2) := by
  obtain ⟨k, -, -, hidx, hpos⟩ := layoutStart_position l p hp
  rw [Layout.spec, Layout.specAt, hidx, hpos]
  cases l.isExtra3 <;> rfl

theorem subfield_of_layoutStart {l : Layout} {p : Slot × Nat} (hp : p ∈ layoutStart l) (extra : BitVec 9) :
    ∃ k < l.slots.length, l.slots[k]? = some p.1 ∧ l.subfield extra k =
      if l.isExtra3 then (field extra (p.2 - 10) 3).toNat else (field extra (p.2 - 10) 2).toNat := by
  obtain ⟨k, hk, hslot, -, hpos⟩ := layoutStart_position l p hp
  refine ⟨k, hk, hslot, ?_⟩
  rw [Layout.subfield, hpos]
  cases l.isExtra3 <;> rfl

/-! ## Reserved fields -/

section Reserved

variable {d : Suffix} {rm : Rm}

/-- `bf16` is reserved on an FP operand, in ELWIDTH whatever its role and in ELWIDTH_SRC on a source (R116). -/
theorem reservedFpWidth_iff : d.reservedFpWidth rm = true ↔
    ∃ o ∈ d.operands, o.field.isFpr = true ∧ (rm.elwidth = 0b11 ∨ o.role = .src ∧ rm.elwidthSrc = 0b11) := by
  simp [Suffix.reservedFpWidth, fpWidth_eq_none_iff]

theorem reservedFpSingle_iff : d.reservedFpSingle rm = true ↔
    d.fpSingle = true ∧ (rm.elwidth = 0b10 ∨ rm.elwidth = 0b11) := by
  simp [Suffix.reservedFpSingle]

/-- R179, for a suffix whose layout is known. -/
theorem reservedExtra_iff : d.reservedExtra rm = true ↔ ∃ l, d.layout = some l ∧
    ((∃ k < l.slots.length, l.subfield rm.extra k ≠ 0 ∧ ∀ o ∈ d.operands, l.slots[k]? ≠ some o.slot) ∨
      (l.extra2Mode rm.extra = some 1 ∧ d.extra2Mode = false)) := by
  cases hl : d.layout with
  | none => simp [Suffix.reservedExtra, hl]
  | some l => simp [Suffix.reservedExtra, hl]

theorem reserved_iff : d.reserved rm = true ↔
    d.reservedFpWidth rm = true ∨ d.reservedFpSingle rm = true ∨ d.reservedExtra rm = true := by
  simp [Suffix.reserved, or_assoc]

/-- A suffix that gives every sub-field of its layout an operand has no sub-field to reserve. -/
theorem reservedExtra_of_slots_used (h : ∀ l, d.layout = some l →
    (∀ slot ∈ l.slots, ∃ o ∈ d.operands, o.slot = slot) ∧ l.extra2Mode rm.extra ≠ some 1) :
    d.reservedExtra rm = false := by
  rw [Bool.eq_false_iff, Ne, reservedExtra_iff]
  rintro ⟨l, hl, ⟨k, hk, -, hunused⟩ | ⟨hmode, -⟩⟩
  · obtain ⟨o, ho, hslot⟩ := (h l hl).1 l.slots[k] (List.getElem_mem hk)
    exact hunused o ho (by rw [hslot, List.getElem?_eq_getElem hk])
  · exact (h l hl).2 hmode

end Reserved

/-! ## The names of the refusals -/

theorem isFpr_iff {f : OperandField} : f.isFpr = true ↔ ∃ r, f = .fpr r := by
  cases f <;> simp [OperandField.isFpr]

theorem isCr_iff {o : Operand} : o.field.isCr = true ↔ isCrOperand o := by
  cases h : o.field <;> simp [OperandField.isCr, isCrOperand, h]

theorem crOnly_iff {d : Suffix} : d.crOnly = true ↔ allCr d := by
  simp [Suffix.crOnly, isCr_iff]

theorem any_isFpr_iff {d : Suffix} : (d.operands.any fun o => o.field.isFpr) = true ↔ hasFpr d := by
  simp [isFpr_iff]

theorem any_isTwin_iff {d : Suffix} : d.layout.any Layout.isTwin = true ↔ hasTwinLayout d := by
  cases h : d.layout <;> simp [hasTwinLayout, h]

theorem not_allCr_of_hasFpr {d : Suffix} (h : hasFpr d) : ¬ allCr d := by
  obtain ⟨o, ho, f, hf⟩ := h
  rintro ⟨-, hcr⟩
  obtain ⟨g, hg⟩ | ⟨g, hg⟩ := hcr o ho <;> simp [hf] at hg

/-- A GPR operand is none of the CR file. -/
theorem not_allCr_addSuffix (rt ra rb : BitVec 5) (oe rc : Bool) : ¬ allCr (addSuffix rt ra rb oe rc) := by
  rw [← crOnly_iff]
  simp [Suffix.crOnly, addSuffix, OperandField.isCr]

section Refusals

variable {d : Suffix} {rm : Rm} {w0 w1 : IWord} {s : State}

theorem run_crosses64 (hres : d.reserved rm = false) (hpc : s.pc.toNat % 64 = 60) :
    d.run rm w0 w1 s = .refused .crosses64 :=
  run_of_refusal hres (if_pos hpc)

theorem run_mode (hres : d.reserved rm = false) (hpc : s.pc.toNat % 64 ≠ 60) (hm : rm.mode ≠ 0) :
    d.run rm w0 w1 s = .refused .mode :=
  run_of_refusal hres (by rw [Suffix.refusal, if_neg hpc, if_pos hm])

theorem run_subvl (hres : d.reserved rm = false) (hpc : s.pc.toNat % 64 ≠ 60) (hm : rm.mode = 0)
    (hs : rm.subvl ≠ 0) : d.run rm w0 w1 s = .refused .subvl :=
  run_of_refusal hres (by rw [Suffix.refusal, if_neg hpc, if_neg (not_not.mpr hm), if_pos hs])

/-- The refusals that follow those of pc, MODE and SUBVL (43_vector_loop R202). -/
theorem refusal_of_form (hpc : s.pc.toNat % 64 ≠ 60) (hm : rm.mode = 0) (hs : rm.subvl = 0) :
    (allCr d → rm.elwidth ≠ 0 ∨ rm.elwidthSrc ≠ 0 → d.refusal rm s.pc = some .crOpElwidthBits) ∧
    (¬ allCr d → rm.elwidth ≠ rm.elwidthSrc → d.refusal rm s.pc = some .mixedElwidth) ∧
    (rm.elwidth = rm.elwidthSrc → rm.elwidth ≠ 0 → hasFpr d → d.refusal rm s.pc = some .fpElwidth) ∧
    (rm.elwidth = rm.elwidthSrc → rm.elwidth = 0 ∨ ¬ allCr d ∧ ¬ hasFpr d →
      (hasTwinLayout d → d.refusal rm s.pc = some .twinPredication) ∧
      (¬ hasTwinLayout d → d.rc = true → d.refusal rm s.pc = some .rc1) ∧
      (¬ hasTwinLayout d → d.rc = false → d.oe = true → d.refusal rm s.pc = some .oe1) ∧
      (¬ hasTwinLayout d → d.rc = false → d.oe = false → d.op = none →
        d.refusal rm s.pc = some .suffixNotInstantiated)) := by
  have hcr := crOnly_iff (d := d)
  have hfpr := any_isFpr_iff (d := d)
  have htwin := any_isTwin_iff (d := d)
  simp only [Suffix.refusal, hpc, hm, hs, ne_eq, not_true_eq_false, if_false, hcr, hfpr, htwin]
  refine ⟨fun h hw => if_pos ⟨h, hw⟩, fun h hw => ?_, fun he hw h => ?_, fun he hw => ?_⟩
  · rw [if_neg (fun c => h c.1), if_pos hw]
  · rw [if_neg (fun c => not_allCr_of_hasFpr h c.1), if_neg (not_not.mpr he), if_pos ⟨h, hw⟩]
  · have hncr : ¬ (allCr d ∧ (¬ rm.elwidth = 0 ∨ ¬ rm.elwidthSrc = 0)) := by
      rintro ⟨hcr, hne⟩
      obtain h0 | ⟨hnot, -⟩ := hw
      · simp [← he, h0] at hne
      · exact hnot hcr
    have hnfp : ¬ (hasFpr d ∧ ¬ rm.elwidth = 0) := by
      rintro ⟨hfp, hne⟩
      exact hw.elim hne fun h => h.2 hfp
    rw [if_neg hncr, if_neg (not_not.mpr he), if_neg hnfp]
    refine ⟨fun h => if_pos h, fun h hrc => ?_, fun h hrc hoe => ?_, fun h hrc hoe hop => ?_⟩ <;>
      simp [*]

end Refusals

end Sys2Proof
end

section
/-!
PROOFS. The families of SuffixTable, by their words: branches, loads and stores (43_vector_loop R213, R214) and the
CR-only instructions (40_rm_width_subvl_mode R120); and the obligations about suffixes.
-/

namespace Sys2Proof

open Reference Machine

/-! ## Which name a row has -/

/-- The instruction is a branch, or a load or store; one that moves an FPR only where `fpr` holds. -/
def isLoadStoreBranchName (fpr : Bool) : SuffixName → Bool
  | .branch | .branchConditional => true
  | .store f _ | .storeIndexed f _ | .loadIndexed f _ | .loadUpdate f _ | .storeUpdate f _
  | .loadUpdateIndexed f _ | .load f | .storeOther f => fpr || f == .gpr
  | .add | .fmadd | .isel | .madd | .rlwimi | .fpArith _ | .fpTest | .crLogical | .mcrf | .mcrxrx
  | .unVectoriseable => false

/-- The operands of the instruction are all CR fields or CR bits. -/
def isCrOnlyName : SuffixName → Bool
  | .branchConditional | .crLogical | .mcrf | .mcrxrx => true
  | .branch | .store _ _ | .storeIndexed _ _ | .loadIndexed _ _ | .loadUpdate _ _ | .storeUpdate _ _
  | .loadUpdateIndexed _ _ | .load _ | .storeOther _ | .add | .fmadd | .isel | .madd | .rlwimi | .fpArith _
  | .fpTest | .unVectoriseable => false

set_option maxRecDepth 20000 in
/-- Every primary opcode from 32 to 56 is one load or store, of an FPR from 48 to 55. -/
theorem loadStore_dRow : ∀ po ≤ 56, 32 ≤ po → ∃ r ∈ suffixRows, r = dRow (BitVec.ofNat 6 po) r.name ∧
    isLoadStoreBranchName (48 ≤ po && po ≤ 55) r.name = true := by decide

set_option maxRecDepth 20000 in
theorem loadStore_dsRow : ∀ po ∈ [58, 62], ∀ xo ≤ 2, ∃ r ∈ suffixRows,
    r = dsRow (BitVec.ofNat 6 po) (BitVec.ofNat 2 xo) r.name ∧ isLoadStoreBranchName false r.name = true := by
  decide

set_option maxRecDepth 20000 in
theorem loadStorePair_dsRow : ∀ po ∈ [57, 61], ∃ r ∈ suffixRows, r = dsRow (BitVec.ofNat 6 po) 0 r.name ∧
    isLoadStoreBranchName true r.name = true := by decide

set_option maxRecDepth 20000 in
theorem loadStore_xRow : ∀ xo ∈ indexedLoadStore, ∃ r ∈ suffixRows, r = xRow 31 (BitVec.ofNat 10 xo) r.name ∧
    isLoadStoreBranchName ([535, 567, 599, 631, 663, 695, 727, 759, 791, 855, 887, 919, 983].contains xo)
      r.name = true := by decide

set_option maxRecDepth 20000 in
/-- The conditional branches of primary opcode 19. -/
theorem branch_xRow : ∀ xo ∈ [16, 528, 560], xRow 19 (BitVec.ofNat 10 xo) .branchConditional ∈ suffixRows := by
  decide

set_option maxRecDepth 20000 in
theorem crOnly_xRow : ∀ xo ∈ [0, 16, 33, 129, 193, 225, 257, 289, 417, 449, 528, 560],
    ∃ r ∈ suffixRows, r = xRow 19 (BitVec.ofNat 10 xo) r.name ∧ isCrOnlyName r.name = true := by decide

theorem isLoadStoreBranchName_mono {a b : Bool} (hab : a = true → b = true) {name : SuffixName}
    (h : isLoadStoreBranchName a name = true) : isLoadStoreBranchName b name = true := by
  cases a with
  | true => rwa [hab rfl]
  | false => cases name <;> simp_all [isLoadStoreBranchName]

theorem dRow_matches_of_toNat {w : IWord} {po : Nat} {name : SuffixName} (hpo : w.toNat / 2 ^ 26 = po) :
    w &&& (dRow (BitVec.ofNat 6 po) name).mask = (dRow (BitVec.ofNat 6 po) name).pattern :=
  dRow_matches.mpr (opcode_eq_ofNat hpo)

theorem xRow_matches_of_toNat {w : IWord} {po xo : Nat} {name : SuffixName} (hpo : w.toNat / 2 ^ 26 = po)
    (hxo : w.toNat / 2 % 1024 = xo) :
    w &&& (xRow (BitVec.ofNat 6 po) (BitVec.ofNat 10 xo) name).mask =
      (xRow (BitVec.ofNat 6 po) (BitVec.ofNat 10 xo) name).pattern :=
  xRow_matches.mpr ⟨opcode_eq_ofNat hpo, extendedOpcode_eq_ofNat hxo⟩

theorem dsRow_matches_of_toNat {w : IWord} {po xo : Nat} {name : SuffixName} (hpo : w.toNat / 2 ^ 26 = po)
    (hxo : w.toNat % 4 = xo) : w &&& (dsRow (BitVec.ofNat 6 po) (BitVec.ofNat 2 xo) name).mask =
      (dsRow (BitVec.ofNat 6 po) (BitVec.ofNat 2 xo) name).pattern := by
  refine dsRow_matches.mpr ⟨opcode_eq_ofNat hpo, BitVec.eq_of_toNat_eq ?_⟩
  rw [field_toNat, BitVec.toNat_ofNat, ← hxo, Nat.pow_zero, Nat.div_one]
  omega

/-- Every branch, load and store of the statements has a row of that kind. -/
theorem row_of_isLoadStoreBranch {w : IWord} (h : isLoadStoreBranch w = true) :
    ∃ r ∈ suffixRows, w &&& r.mask = r.pattern ∧ isLoadStoreBranchName (movesFpr w) r.name = true := by
  simp only [isLoadStoreBranch, Bool.or_eq_true, Bool.and_eq_true, beq_iff_eq, decide_eq_true_eq,
    List.contains_eq_mem] at h
  obtain ((((((h | h) | ⟨h, hxo⟩) | ⟨hlo, hhi⟩) | ⟨h, hxo⟩) | ⟨h, hxo⟩) | ⟨h, hxo⟩) := h
  · exact ⟨dRow 16 .branchConditional, by simp [suffixRows, branchRows], dRow_matches_of_toNat h, rfl⟩
  · exact ⟨dRow 18 .branch, by simp [suffixRows, branchRows], dRow_matches_of_toNat h, rfl⟩
  · exact ⟨_, branch_xRow _ (by simpa [or_assoc] using hxo), xRow_matches_of_toNat h rfl, rfl⟩
  · obtain ⟨r, hr, hrow, hname⟩ := loadStore_dRow _ hhi hlo
    refine ⟨r, hr, hrow ▸ dRow_matches_of_toNat rfl, isLoadStoreBranchName_mono (fun hf => ?_) hname⟩
    simp only [movesFpr, hf, Bool.true_or]
  · obtain ⟨r, hr, hrow, hname⟩ := loadStore_dsRow _ (by simpa using h) _ hxo
    exact ⟨r, hr, hrow ▸ dsRow_matches_of_toNat rfl rfl, isLoadStoreBranchName_mono Bool.noConfusion hname⟩
  · obtain ⟨r, hr, hrow, hname⟩ := loadStorePair_dsRow _ (by simpa using h)
    refine ⟨r, hr, hrow ▸ dsRow_matches_of_toNat rfl hxo, isLoadStoreBranchName_mono (fun _ => ?_) hname⟩
    obtain h | h := h <;> simp only [movesFpr, h] <;> rfl
  · obtain ⟨r, hr, hrow, hname⟩ := loadStore_xRow _ hxo
    refine ⟨r, hr, hrow ▸ xRow_matches_of_toNat h rfl, isLoadStoreBranchName_mono (fun hf => ?_) hname⟩
    simp only [movesFpr, hf, h]
    rfl

/-- Every CR-only word of the statements has a row of that kind. -/
theorem row_of_isCrOnlyWord {w : IWord} (h : isCrOnlyWord w = true) :
    ∃ r ∈ suffixRows, w &&& r.mask = r.pattern ∧ isCrOnlyName r.name = true := by
  simp only [isCrOnlyWord, Bool.or_eq_true, Bool.and_eq_true, beq_iff_eq, List.contains_eq_mem,
    decide_eq_true_eq] at h
  obtain ((h | ⟨h, hxo⟩) | ⟨h, hxo⟩) := h
  · exact ⟨dRow 16 .branchConditional, by simp [suffixRows, branchRows], dRow_matches_of_toNat h, rfl⟩
  · exact ⟨xRow 31 576 .mcrxrx, by simp [suffixRows, crRows], xRow_matches_of_toNat h hxo, rfl⟩
  · obtain ⟨r, hr, hrow, hname⟩ := crOnly_xRow _ hxo
    exact ⟨r, hr, hrow ▸ xRow_matches_of_toNat h rfl, hname⟩

/-! ## What the descriptions of a family have in common -/

/-- A branch, load or store has no element operation and no sub-field of EXTRA without an operand, and no FPR
operand but one it moves. -/
theorem description_of_loadStoreBranch {name : SuffixName} {fpr : Bool}
    (h : isLoadStoreBranchName fpr name = true) (w : IWord) (rm : Rm) :
    name.entry w = .vectoriseable (name.description w) ∧ (name.description w).op = none ∧
      (name.description w).fpSingle = false ∧ (name.description w).reservedExtra rm = false ∧
      (fpr = false → ((name.description w).operands.any fun o => o.field.isFpr) = false) := by
  have gpr {f : DataFile} (h : (fpr || f == .gpr) = true) (hf : fpr = false) : f = .gpr := by simpa [hf] using h
  cases name with
  | add | fmadd | isel | madd | rlwimi | fpArith _ | fpTest | crLogical | mcrf | mcrxrx | unVectoriseable => cases h
  | branch | branchConditional => exact ⟨rfl, rfl, rfl, rfl, fun _ => rfl⟩
  | load f | storeOther f => exact ⟨rfl, rfl, rfl, rfl, fun hf => by rw [gpr h hf]; rfl⟩
  | store f wd | storeIndexed f wd | loadIndexed f wd | loadUpdate f wd | storeUpdate f wd
    | loadUpdateIndexed f wd =>
    refine ⟨rfl, rfl, rfl, reservedExtra_of_slots_used fun l hl => ?_, fun hf => by rw [gpr h hf]; rfl⟩
    cases hl
    simp [SuffixName.description, namedSuffix, Layout.slots, Layout.extra2Mode]

/-- A CR-only instruction has no element operation, no known layout, no Rc or OE, and no reserved field. -/
theorem description_of_crOnly {name : SuffixName} (h : isCrOnlyName name = true) (w : IWord) (rm : Rm) :
    name.entry w = .vectoriseable (name.description w) ∧ (name.description w).crOnly = true ∧
      (name.description w).layout = none ∧ (name.description w).rc = false ∧
      (name.description w).oe = false ∧ (name.description w).op = none ∧
      (name.description w).reserved rm = false := by
  cases name with
  | branchConditional | crLogical | mcrf | mcrxrx => exact ⟨rfl, rfl, rfl, rfl, rfl, rfl, rfl⟩
  | _ => cases h

/-! ## The obligations -/

/-- Settles O13: each sub-field's place in the table is its number in the layout's list of sub-fields. -/
theorem layoutTable : Obligations.LayoutTable := by
  unfold Obligations.LayoutTable
  refine ⟨layout_slots, fun l => ?extra3, fun l extra p hp => spec_of_layoutStart hp extra, fun l extra => ?maskSrc,
    fun l extra => ?mode⟩
  case extra3 => cases l <;> decide
  case maskSrc => cases l <;> rfl
  case mode => cases l <;> rfl

/-- Settles O32: EXT01 and every word of no row are decided before the rest of the first word is looked at. -/
theorem suffixNotInTableTraps : Obligations.SuffixNotInTableTraps := by
  unfold Obligations.SuffixNotInTableTraps
  intro rm w1 s
  have hzero : suffixTable 0 = none := by decide
  refine ⟨fun h => exec_svSuffix_of_ext01 (isExt01_iff_toNat.mpr h),
    exec_svSuffix_of_not_base hzero rfl, fun htab hpo hne hdraft => ?_, fun h => ?_,
    fun hpo hxo => suffixTable_of_reserveOrAtomic hpo hxo⟩
  · have hext : isExt01 w1 = false := Bool.eq_false_iff.mpr (mt isExt01_iff_toNat.mp hpo)
    have hbase : isBaseWord w1 = Config.baseHas w1 := by
      rw [isBaseWord, isDraftWord_eq_isDraft, hdraft, Bool.false_or, bne_iff_ne.mpr hne, Bool.true_and]
    cases hb : Config.baseHas w1 with
    | true => exact exec_svSuffix_of_base htab hext (hbase.trans hb)
    | false => exact exec_svSuffix_of_not_base htab (hbase.trans hb)
  · have hpo : w1.toNat / 2 ^ 26 = 4 := eq_of_beq (Bool.and_eq_true_iff.mp h).1
    have hext : isExt01 w1 = false := Bool.eq_false_iff.mpr (mt isExt01_iff_toNat.mp (by omega))
    rw [← isDraftWord_eq_isDraft] at h
    have htab := suffixTable_of_draft h
    have hne : w1 ≠ 0 := by rintro rfl; cases h
    refine ⟨htab, exec_svSuffix_of_base htab hext ?_⟩
    rw [isBaseWord, h, Bool.true_or, bne_iff_ne.mpr hne, Bool.true_and]

/-- Settles O33: the row is all that is read. -/
theorem unVectoriseableSuffixTraps : Obligations.UnVectoriseableSuffixTraps := by
  unfold Obligations.UnVectoriseableSuffixTraps
  exact ⟨fun rm w1 s h => exec_svSuffix_of_unVectoriseable h, by decide, by decide, by decide⟩

/-- Settles O34: `fp_single` with f16 or bf16 is a reserved field. -/
theorem fpSingleAtHalfWidthTraps : Obligations.FpSingleAtHalfWidthTraps := by
  unfold Obligations.FpSingleAtHalfWidthTraps
  intro rm w1 d s htab hsingle hw
  rw [exec_svSuffix_of_row htab]
  exact run_of_reserved (reserved_iff.mpr (.inr (.inl (reservedFpSingle_iff.mpr ⟨hsingle, hw⟩))))

/-- Settles O35: bf16 on an FP operand is a reserved field. -/
theorem bf16Traps : Obligations.Bf16Traps := by
  unfold Obligations.Bf16Traps
  intro rm w1 d o s htab ho hfpr hw
  rw [exec_svSuffix_of_row htab]
  exact run_of_reserved (reserved_iff.mpr (.inl (reservedFpWidth_iff.mpr ⟨o, ho, isFpr_iff.mpr hfpr, hw⟩)))

/-- Settles O36: the places of the table are the sub-fields the check goes through. -/
theorem unusedExtraBitsTrap : Obligations.UnusedExtraBitsTrap := by
  unfold Obligations.UnusedExtraBitsTrap
  intro rm d w0 w1 s h
  refine run_of_reserved (reserved_iff.mpr (.inr (.inr (reservedExtra_iff.mpr ?_))))
  obtain ⟨l, hl, p, hp, hunused, hne⟩ | ⟨hl, hmode, hbit⟩ := h
  · obtain ⟨k, hk, hslot, hsub⟩ := subfield_of_layoutStart hp rm.extra
    refine ⟨l, hl, .inl ⟨k, hk, by rwa [hsub], fun o ho heq => ?_⟩⟩
    exact hunused o ho (Option.some_injective _ (heq.symm.trans hslot))
  · refine ⟨_, hl, .inr ⟨congrArg some ?_, hmode⟩⟩
    apply BitVec.eq_of_toNat_eq
    rw [field_toNat, Nat.pow_zero, Nat.div_one]
    exact hbit

/-- Settles O37: the layout is refused by name, whatever comes first. -/
theorem twinPredicationRefused : Obligations.TwinPredicationRefused := by
  unfold Obligations.TwinPredicationRefused
  intro rm d w0 w1 s htwin hres
  cases hr : d.refusal rm s.pc with
  | some r => exact ⟨r, run_of_refusal hres hr⟩
  | none =>
    rw [← any_isTwin_iff] at htwin
    unfold Suffix.refusal at hr
    split_ifs at hr

/-- Settles O38: without an element operation there is nothing after the checks. -/
theorem namedSuffixNeverExecutes : Obligations.NamedSuffixNeverExecutes := by
  unfold Obligations.NamedSuffixNeverExecutes
  intro rm w1 d s htab hop
  rw [exec_svSuffix_of_row htab]
  exact ⟨run_of_reserved, fun hres => run_of_no_op hres hop⟩

/-- Settles O39: none has an element operation, and only bf16 on an FPR reserves a field of one. -/
theorem loadStoreBranchSuffixesRefused : Obligations.LoadStoreBranchSuffixesRefused := by
  unfold Obligations.LoadStoreBranchSuffixesRefused
  intro rm w1 s h
  obtain ⟨r, hr, hmatch, hname⟩ := row_of_isLoadStoreBranch h
  obtain ⟨hentry, hop, hsingle, hextra, hgpr⟩ := description_of_loadStoreBranch hname w1 rm
  have htab := (suffixTable_of_row hr hmatch).trans (congrArg some hentry)
  have hres : (r.name.description w1).reserved rm = (r.name.description w1).reservedFpWidth rm := by
    rw [Suffix.reserved, hextra, Suffix.reservedFpSingle, hsingle]
    simp
  rw [exec_svSuffix_of_row htab]
  refine ⟨fun hd hs => run_of_no_op (hres.trans (Bool.eq_false_iff.mpr ?width)) hop,
    fun hf => run_of_no_op (hres.trans (Bool.eq_false_iff.mpr ?file)) hop, ?either⟩
  case width =>
    rw [Ne, reservedFpWidth_iff]
    rintro ⟨o, -, -, hw | ⟨-, hw⟩⟩
    · exact hd hw
    · exact hs hw
  case file =>
    rw [Ne, reservedFpWidth_iff]
    rintro ⟨o, ho, hfpr, -⟩
    exact List.any_eq_false.mp (hgpr hf) o ho hfpr
  case either =>
    cases hb : (r.name.description w1).reserved rm with
    | true => exact .inl (run_of_reserved hb)
    | false => exact .inr (run_of_no_op hb hop)

/-- Settles O40: the row of `add` takes the word, and step 6 does not let Rc or OE pass. -/
theorem recordAndOverflowFormsRefused : Obligations.RecordAndOverflowFormsRefused := by
  unfold Obligations.RecordAndOverflowFormsRefused
  intro rm rt ra rb oe rc s h
  rw [exec_svSuffix_of_row (suffixTable_addWord rt ra rb oe rc)]
  have hres := addSuffix_reserved rm rt ra rb (oe == 1) (rc == 1)
  cases hr : (addSuffix rt ra rb (oe == 1) (rc == 1)).refusal rm s.pc with
  | some r => exact ⟨r, run_of_refusal hres hr⟩
  | none =>
    obtain ⟨hrc, hoe⟩ := refusal_none_rc_oe hr
    obtain rfl | rfl := h
    · cases hoe
    · cases hrc

/-- Settles O49: nothing of `sv.add` is reserved, and the placement is the first refusal. -/
theorem crossingBlockRefused : Obligations.CrossingBlockRefused := by
  unfold Obligations.CrossingBlockRefused
  exact fun rm rt ra rb s hpc => run_crosses64 (addSuffix_reserved rm rt ra rb false false) hpc

/-- Settles O50: the refusals are taken in the order of step 6; `add` and the CR-only suffixes are descriptions
like any other. -/
theorem formsRefused : Obligations.FormsRefused := by
  unfold Obligations.FormsRefused
  refine ⟨fun rm d w0 w1 s hres => ⟨run_crosses64 hres, run_mode hres, run_subvl hres, fun hpc hm hs => ?any⟩,
    fun rm rt ra rb s hpc => ?add, fun rm w1 s hcr hpc hm hs => ?crOnly⟩
  case any =>
    obtain ⟨hcr, hmixed, hfp, hrest⟩ := refusal_of_form (d := d) hpc hm hs
    refine ⟨fun h hw => run_of_refusal hres (hcr h hw), fun h hw => run_of_refusal hres (hmixed h hw),
      fun he hw h => run_of_refusal hres (hfp he hw h), fun he hw => ?_⟩
    obtain ⟨htwin, hrc, hoe, hop⟩ := hrest he hw
    exact ⟨fun h => run_of_refusal hres (htwin h), fun h h1 => run_of_refusal hres (hrc h h1),
      fun h h1 h2 => run_of_refusal hres (hoe h h1 h2), fun h h1 h2 h3 => run_of_refusal hres (hop h h1 h2 h3)⟩
  case add =>
    have hres := addSuffix_reserved rm rt ra rb false false
    refine ⟨run_mode hres hpc, run_subvl hres hpc, fun hm hs hw => run_of_refusal hres ?_⟩
    exact (refusal_of_form hpc hm hs).2.1 (not_allCr_addSuffix rt ra rb false false) hw
  case crOnly =>
    obtain ⟨r, hr, hmatch, hname⟩ := row_of_isCrOnlyWord hcr
    obtain ⟨hentry, hall, hlayout, hrc, hoe, hop, hres⟩ := description_of_crOnly hname w1 rm
    obtain ⟨hbits, -, -, hrest⟩ := refusal_of_form (d := r.name.description w1) hpc hm hs
    rw [exec_svSuffix_of_row ((suffixTable_of_row hr hmatch).trans (congrArg some hentry))]
    refine ⟨fun hw => run_of_refusal hres (hbits (crOnly_iff.mp hall) hw), fun h0 h0' => run_of_refusal hres ?_⟩
    obtain ⟨-, -, -, hnone⟩ := hrest (h0.trans h0'.symm) (.inl h0)
    exact hnone (by simp [hasTwinLayout, hlayout]) hrc hoe hop

end Sys2Proof
end

section
/-!
PROOFS. What an instruction and a step can do: traps, the program counter, the frame, and the invariant of
every step (60_exceptions R222 to R227, 10_state R42, R49).
-/

namespace Sys2Proof

open Reference Machine

/-! ## Traps -/

/-- A suffix that answers a trapped hart had a reserved field, and so traps in every state. -/
theorem run_trapped {d : Suffix} {rm : Rm} {w0 w1 : IWord} {s t : State} (h : d.run rm w0 w1 s = .next t)
    (hs : s.hart = .running) (ht : t.hart ≠ .running) (s' : State) :
    d.run rm w0 w1 s' = .next (trapped s' w0 w1) := by
  obtain ⟨hres, -⟩ | ⟨-, -, op, -, hx⟩ := run_next h
  · exact run_of_reserved hres
  · obtain ⟨s1, hsame, rfl⟩ := execute_next_sameBase hx
    exact absurd (hsame.hart.trans hs) ht

/-- Whether `sv.<suffix>` traps is decided before it reads the state. -/
theorem exec_svSuffix_trapped {rm : Rm} {w1 : IWord} {s t : State} (h : exec (.svSuffix rm w1) s = .next t)
    (hs : s.hart = .running) (ht : t.hart ≠ .running) (s' : State) :
    exec (.svSuffix rm w1) s' = .next (trapped s' rm.toWord w1) := by
  obtain htrap | href | ⟨d, hrun⟩ := exec_svSuffix_cases rm w1
  · exact htrap s'
  · rw [href s] at h
    cases h
  · rw [hrun] at h ⊢
    exact run_trapped h hs ht s'

/-- An instruction that traps in one state traps in every state, with the words of its encoding. -/
theorem exec_trapped {i : Instr} {s t : State} (h : exec i s = .next t) (hs : s.hart = .running)
    (ht : t.hart ≠ .running) :
    ∃ w0 w1, encode i = [w0, w1] ∧ ∀ s', exec i s' = .next (trapped s' w0 w1) := by
  cases i with
  | add rt ra rb => cases h; exact absurd hs ht
  | svAdd rm rt ra rb => exact ⟨_, _, rfl, run_trapped (d := addSuffix rt ra rb false false) h hs ht⟩
  | svSuffix rm w1 => exact ⟨_, _, rfl, exec_svSuffix_trapped h hs ht⟩
  | _ low w1 => exact ⟨_, _, rfl, fun _ => rfl⟩

/-- A BASE without v3.1 traps on every v3.1 cell (30_encoding R95, log 9). -/
theorem exec_v31_trapped {i : Instr} {w0 w1 : IWord}
    (h : instrCell i ∈ [some .c8LS, some .cMLS, some .c8RR, some .cMRR, some .cMMIRR])
    (he : encode i = [w0, w1]) (s : State) : exec i s = .next (trapped s w0 w1) := by
  cases i with
  | v31_8ls | v31_mls | v31_8rr | v31_mrr | v31_mmirr => cases he; rfl
  | _ => simp [instrCell] at h

/-! ## Fetch -/

/-- A read of memory gives the bytes that stand at the addresses, one by one. -/
theorem readBytes_eq_some_iff {m : Memory} {a : Word} {bs : List Byte} :
    m.readBytes a bs.length = some bs ↔
      ∀ k, (hk : k < bs.length) → m.read (a + BitVec.ofNat 64 k).toNat = some bs[k] := by
  induction bs generalizing a with
  | nil => simp [Memory.readBytes]
  | cons b bs ih =>
    have hnext (k : Nat) : a + 1 + BitVec.ofNat 64 k = a + BitVec.ofNat 64 (k + 1) := by
      rw [Nat.add_comm k, BitVec.ofNat_add, ← BitVec.add_assoc]
      rfl
    have hsplit : m.readBytes a (b :: bs).length = some (b :: bs) ↔
        m.read a.toNat = some b ∧ m.readBytes (a + 1) bs.length = some bs := by
      rw [List.length_cons, Memory.readBytes]
      cases m.read a.toNat <;> cases m.readBytes (a + 1) bs.length <;> simp
    rw [hsplit, ih]
    constructor
    · rintro ⟨h0, hs⟩ k hk
      cases k with
      | zero => rw [BitVec.add_zero]; exact h0
      | succ k => exact hnext k ▸ hs k (Nat.lt_of_succ_lt_succ hk)
    · intro h
      refine ⟨?_, fun k hk => hnext k ▸ h (k + 1) (Nat.succ_lt_succ hk)⟩
      have h0 := h 0 (Nat.succ_pos _)
      rwa [BitVec.add_zero] at h0

/-- Two words at pc, the first with EXT01, are fetched as the pair. -/
theorem fetchInstr_pair {s : State} {w0 w1 : IWord} (ha : s.pc.toNat % 4 = 0) (he : isExt01 w0 = true)
    (h0 : fetchWord Config.ifetchLE s.mem s.pc = some w0)
    (h1 : fetchWord Config.ifetchLE s.mem (s.pc + 4) = some w1) :
    fetchInstr s = .ok (.instr (decodePair w0 w1)) := by
  obtain ⟨b0, b1, b2, b3, hb, rfl⟩ := fetchWord_eq_some.mp h0
  obtain ⟨c0, c1, c2, c3, hc, rfl⟩ := fetchWord_eq_some.mp h1
  rw [fetchInstr, if_neg (not_not.mpr ha), fetchBytes, hb]
  dsimp only
  rw [if_pos he, hc]
  simp [decode, he]

/-- The plain `add` at pc is fetched as such. -/
theorem fetchInstr_add {s : State} {w : IWord} (ha : s.pc.toNat % 4 = 0) (he : isExt01 w = false)
    (hp : isPlainAdd w = true) (h : fetchWord Config.ifetchLE s.mem s.pc = some w) :
    fetchInstr s = .ok (.instr (.add (field w 6 5) (field w 11 5) (field w 16 5))) := by
  obtain ⟨b0, b1, b2, b3, hb, rfl⟩ := fetchWord_eq_some.mp h
  simp [fetchInstr, fetchBytes, ha, hb, he, hp, decode, decodeScalar]

/-- Bytes read in one piece are read in two. -/
theorem readBytes_append {m : Memory} {a : Word} {xs ys : List Byte}
    (h : m.readBytes a (xs ++ ys).length = some (xs ++ ys)) :
    m.readBytes a xs.length = some xs ∧
      m.readBytes (a + BitVec.ofNat 64 xs.length) ys.length = some ys := by
  rw [readBytes_eq_some_iff] at h
  refine ⟨readBytes_eq_some_iff.mpr fun k hk => ?_, readBytes_eq_some_iff.mpr fun k hk => ?_⟩
  · rw [h k (by rw [List.length_append]; omega), List.getElem_append_left hk]
  · rw [BitVec.add_assoc, ← BitVec.ofNat_add, h (xs.length + k) (by rw [List.length_append]; omega),
      List.getElem_append_right (by omega)]
    simp only [Nat.add_sub_cancel_left]

theorem fetchWord_of_readBytes {m : Memory} {a : Word} {w : IWord}
    (h : m.readBytes a (bytesOfWords [w]).length = some (bytesOfWords [w])) :
    fetchWord Config.ifetchLE m a = some w := by
  obtain ⟨b0, b1, b2, b3, hb, hw⟩ := wordOfBytes_bytesOfWord Config.ifetchLE w
  refine fetchWord_eq_some.mpr ⟨b0, b1, b2, b3, ?_, hw⟩
  rwa [bytesOfWords, List.flatMap_singleton, hb] at h

/-- A running hart runs the instruction it fetches. -/
theorem step_of_fetchInstr {s : State} {i : Instr} (hs : s.hart = .running)
    (h : fetchInstr s = .ok (.instr i)) : step s = exec i s := by
  rw [step, hs]
  simp only [h]

theorem step_of_fetchBase {s : State} {w : IWord} (hs : s.hart = .running)
    (h : fetchInstr s = .ok (.base w)) : step s = execBase w none s := by
  rw [step, hs]
  simp only [h]

/-! ## The trap record -/

/-- The trap of the instruction fetched at pc holds the words it was fetched from (60_exceptions R222). -/
theorem matches_of_fetchInstr {s : State} {i : Instr} {w0 w1 : IWord} (hfetch : fetchInstr s = .ok (.instr i))
    (he : encode i = [w0, w1]) : (⟨.illegalInstruction, s.pc, w0, some w1⟩ : Trap).Matches s := by
  obtain ⟨-, v0, hv0, ⟨hext, v1, hv1, hi⟩ | ⟨-, -, hi⟩ | ⟨-, -, hi⟩⟩ := fetchInstr_ok hfetch
  · cases hi
    rw [encode_decodePair v1 hext] at he
    cases he
    exact ⟨rfl, hv0, hext.symm, fun w hw => by cases hw; exact hv1⟩
  · cases hi
    cases he
  · cases hi

/-- The trap of a word of BASE's (10_state R46) holds that word. -/
theorem matches_of_fetchBase {s : State} {w : IWord} (hfetch : fetchInstr s = .ok (.base w)) :
    (⟨.illegalInstruction, s.pc, w, none⟩ : Trap).Matches s := by
  obtain ⟨-, v0, hv0, ⟨-, v1, -, hi⟩ | ⟨-, -, hi⟩ | ⟨hext, -, hi⟩⟩ := fetchInstr_ok hfetch
  · cases hi
  · cases hi
  · cases hi
    exact ⟨rfl, hv0, hext.symm, fun w hw => nomatch hw⟩

/-- A trap that matches makes the invariant hold of the state it leaves. -/
theorem inv_trap {s : State} {w0 : IWord} {w1 : Option IWord} (hwf : s.mem.wf) (halign : s.pc.toNat % 4 = 0)
    (h : (⟨.illegalInstruction, s.pc, w0, w1⟩ : Trap).Matches s) : (s.trap w0 w1).Inv := by
  refine ⟨hwf, halign, fun t ht => ?_⟩
  cases ht
  exact h

/-- A running hart has no trap record to match. -/
theorem inv_running {s : State} (hs : s.hart = .running) (hwf : s.mem.wf) (halign : s.pc.toNat % 4 = 0) :
    s.Inv :=
  ⟨hwf, halign, fun t ht => by rw [hs] at ht; cases ht⟩

/-! ## What BASE does, by the VL it writes -/

section Base

variable {w0 : IWord} {w1 : Option IWord} {s : State}

theorem execBase_of_no_vl (h : (Config.baseStep w0 w1 s.baseView).vl = none) :
    execBase w0 w1 s = .next (s.withBase (Config.baseStep w0 w1 s.baseView)) := by
  simp only [execBase, h]

theorem execBase_of_vl {v : Nat} (h : (Config.baseStep w0 w1 s.baseView).vl = some v) (hv : v < 128) :
    execBase w0 w1 s = .next ((s.setSvstate ⟨⟨v, hv⟩⟩).withBase (Config.baseStep w0 w1 s.baseView)) := by
  simp only [execBase, h]
  exact dif_pos hv

theorem execBase_of_unsupported_vl {v : Nat} (h : (Config.baseStep w0 w1 s.baseView).vl = some v)
    (hv : 128 ≤ v) : execBase w0 w1 s = .next (s.trap w0 w1) := by
  simp only [execBase, h]
  exact dif_neg (Nat.not_lt.mpr hv)

/-- BASE's result and the VL it writes are independent. -/
theorem withBase_setSvstate (s : State) (r : BaseResult) (v : Svstate) :
    (s.setSvstate v).withBase r = { s.withBase r with svstate := v } := by
  simp only [State.withBase, State.setSvstate]

/-- What BASE sees of the state it leaves depends on what it gives, and on SVSTATE, memory and the step's number
before. -/
theorem withBase_baseView {s' : State} {r : BaseResult} (hsv : s'.svstate = s.svstate) (hmem : s'.mem = s.mem)
    (hsteps : s'.steps = s.steps) : (s'.withBase r).baseView = (s.withBase r).baseView := by
  simp only [State.baseView, State.time, State.withBase_gpr, State.withBase_fpr, State.withBase_crf,
    lowPart_replaceLow, State.withBase_svstate, State.withBase_msr, State.withBase_pc, State.withBase_mem,
    State.withBase_base, State.withBase_steps, hsv, hmem, hsteps]

/-- BASE leaves the same view where it finds the same view and step number (log 14). -/
theorem execBase_baseView {s' t : State} (hview : s'.baseView = s.baseView) (hsteps : s'.steps = s.steps)
    (h : execBase w0 w1 s = .next t) : ∃ t', execBase w0 w1 s' = .next t' ∧ t'.baseView = t.baseView := by
  have hsv : s'.svstate = s.svstate := congrArg BaseView.svstate hview
  have hmem : s'.mem = s.mem := congrArg BaseView.mem hview
  cases hvl : (Config.baseStep w0 w1 s.baseView).vl with
  | none =>
    rw [execBase_of_no_vl hvl, Host.Outcome.next.injEq] at h
    subst h
    rw [← hview] at hvl ⊢
    exact ⟨_, execBase_of_no_vl hvl, withBase_baseView hsv hmem hsteps⟩
  | some v =>
    by_cases hv : v < 128
    · rw [execBase_of_vl hvl hv, Host.Outcome.next.injEq] at h
      subst h
      rw [← hview] at hvl ⊢
      exact ⟨_, execBase_of_vl hvl hv, withBase_baseView rfl hmem hsteps⟩
    · rw [execBase_of_unsupported_vl hvl (Nat.not_lt.mp hv)] at h
      cases h
      rw [← hview] at hvl
      exact ⟨_, execBase_of_unsupported_vl hvl (Nat.not_lt.mp hv), hview⟩

end Base

/-! ## The obligations -/

/-- Settles O43: with BASE's v3.1 the cell is handed on; without it, it is decoded and traps as an empty one. -/
theorem v31CellsTrapWithoutBase : Obligations.V31CellsTrapWithoutBase := by
  unfold Obligations.V31CellsTrapWithoutBase
  refine ⟨fun i w0 w1 s he => ?base, fun w0 w1 s hext hcell => ?cell, fun a c w1 s => ?each⟩
  case base =>
    rw [v31Cell, if_pos rfl, he]
    rfl
  case cell =>
    have h := isExt01_iff_toNat.mpr hext
    exact exec_v31_trapped (instrCell_decodePair w1 h ▸ hcell) (encode_decodePair w1 h) s
  case each =>
    and_intros
    all_goals
      refine exec_v31_trapped (by simp [instrCell]) ?_ s
      exact congrArg (· :: [w1]) (append_eq_add _ _ rfl)

/-- Settles O44: the trap sets the hart's condition and nothing else. -/
theorem trapIsPrecise : Obligations.TrapIsPrecise := by
  unfold Obligations.TrapIsPrecise
  intro i s t hs h ht
  obtain ⟨w0, w1, he, htrap⟩ := exec_trapped h hs ht
  exact ⟨w0, w1, he, Host.Outcome.next.inj (h.symm.trans (htrap s))⟩

/-- Settles O45: the checks that trap read the words alone. -/
theorem trapDependsOnWordsAlone : Obligations.TrapDependsOnWordsAlone := by
  unfold Obligations.TrapDependsOnWordsAlone
  intro i s s' t hs _ h ht
  obtain ⟨w0, w1, he, htrap⟩ := exec_trapped h hs ht
  exact ⟨w0, w1, he, htrap s'⟩

/-- Settles O60: the trap changed the hart's condition alone, which resuming undoes. -/
theorem emulatorResumesPastBothWords : Obligations.EmulatorResumesPastBothWords := by
  unfold Obligations.EmulatorResumesPastBothWords
  intro i s t hs h ht
  obtain ⟨w0, w1, -, htrap⟩ := exec_trapped h hs ht
  obtain rfl : t = trapped s w0 w1 := Host.Outcome.next.inj (h.symm.trans (htrap s))
  exact State.ext_fields rfl rfl rfl rfl rfl rfl rfl hs.symm rfl rfl

/-- Settles O46: what completes is an SVP64 instruction of two words or the `add` of one. -/
theorem pcAdvancesByLength : Obligations.PcAdvancesByLength := by
  unfold Obligations.PcAdvancesByLength
  intro i s t h ht
  have hpc (n : Nat) : (s.pc + BitVec.ofNat 64 n).toNat = (s.pc.toNat + n) % 2 ^ 64 := by
    rw [BitVec.toNat_add, BitVec.toNat_ofNat, Nat.add_mod_mod]
  obtain ⟨w0, w1, -, rfl⟩ | ⟨⟨rm, hi⟩, f, rfl⟩ | ⟨rt, ra, rb, rfl, rfl⟩ := exec_next h
  · cases ht
  · have hlen : (encode i).length = 2 := by obtain ⟨w1, rfl⟩ | ⟨rt, ra, rb, rfl⟩ := hi <;> rfl
    exact ⟨by rw [hlen]; exact hpc 8, State.advance_time _ 8⟩
  · exact ⟨hpc 4, State.advance_time _ 4⟩

/-- Settles O47: an instruction writes GPRs, pc and the hart's condition only. -/
theorem onlyGprsPcAndHartChange : Obligations.OnlyGprsPcAndHartChange := by
  unfold Obligations.OnlyGprsPcAndHartChange
  refine ⟨fun i s t h => exec_next_frame h, fun s t h hbase => ?_⟩
  obtain ⟨-, ⟨i, -, hi⟩ | ⟨w, hw, -⟩⟩ := step_next h
  · exact exec_next_frame hi
  · exact absurd hw (hbase w)

/-- Settles O51: the bytes decode by the words fetch finds, and to the same instruction. -/
theorem stepRunsDecodedInstruction : Obligations.StepRunsDecodedInstruction := by
  unfold Obligations.StepRunsDecodedInstruction
  intro s bytes i rest hs ha hread hdec
  have hread := readBytes_eq_some_iff.mpr hread
  obtain ⟨w0, w1, hext, rfl, rfl⟩ | ⟨w, hext, hadd, rfl, rfl⟩ := decode_ok hdec
  · rw [bytesOfWords_pair, List.append_assoc] at hread
    obtain ⟨h0, hrest⟩ := readBytes_append hread
    obtain ⟨h1, -⟩ := readBytes_append hrest
    exact step_of_fetchInstr hs
      (fetchInstr_pair ha hext (fetchWord_of_readBytes h0) (fetchWord_of_readBytes h1))
  · obtain ⟨h0, -⟩ := readBytes_append hread
    exact step_of_fetchInstr hs (fetchInstr_add ha hext hadd (fetchWord_of_readBytes h0))

/-- Settles O52: the word is fetched as BASE's, and BASE always answers; the cases are those of the VL it
writes. -/
theorem unprefixedBaseWordRunsBase : Obligations.UnprefixedBaseWordRunsBase := by
  unfold Obligations.UnprefixedBaseWordRunsBase
  intro s w hs ha hf he hp
  have hstep := step_of_fetchBase hs (fetchInstr_base ha hf he hp)
  have view (t : State) (h : execBase w none s = .next t) (s' : State) (hs' : s'.hart = .running)
      (hview : s'.baseView = s.baseView) (hsteps : s'.steps = s.steps) :
      ∃ t', step s' = .next t' ∧ t'.baseView = t.baseView := by
    have hpc : s'.pc = s.pc := congrArg BaseView.pc hview
    have hmem : s'.mem = s.mem := congrArg BaseView.mem hview
    rw [step_of_fetchBase hs' (fetchInstr_base (hpc ▸ ha) (hpc ▸ hmem ▸ hf) he hp)]
    exact execBase_baseView hview hsteps h
  cases hvl : (Config.baseStep w none s.baseView).vl with
  | none =>
    have hx := execBase_of_no_vl hvl
    obtain ⟨hreg, hcr⟩ := withBase_frame s (Config.baseStep w none s.baseView)
    exact ⟨_, hstep.trans hx, fun _ => rfl, nofun, fun r hr => hreg r r.isLt hr, fun r hr => hcr r r.isLt hr,
      withBase_pc_aligned _ _, view _ hx⟩
  | some v =>
    by_cases hv : v < 128
    · have hx := execBase_of_vl hvl hv
      obtain ⟨hreg, hcr⟩ := withBase_frame (s.setSvstate ⟨⟨v, hv⟩⟩) (Config.baseStep w none s.baseView)
      refine ⟨_, hstep.trans hx, nofun, fun v' hv' => ?_, fun r hr => hreg r r.isLt hr,
        fun r hr => hcr r r.isLt hr, withBase_pc_aligned _ _, view _ hx⟩
      cases hv'
      exact ⟨fun _ => withBase_setSvstate s _ _, fun h => absurd hv (Nat.not_lt.mpr h)⟩
    · have hx := execBase_of_unsupported_vl hvl (Nat.not_lt.mp hv)
      refine ⟨_, hstep.trans hx, nofun, fun v' hv' => ?_, fun r _ => ⟨rfl, rfl⟩, fun r _ => rfl, ha, view _ hx⟩
      cases hv'
      exact ⟨fun h => absurd h hv, fun _ => rfl⟩

/-- Settles O53: the hart's condition is the first thing a step looks at. -/
theorem trappedHartStays : Obligations.TrappedHartStays := by
  unfold Obligations.TrappedHartStays
  intro s t h
  rw [step, h]

/-- Settles O54: a trap records the words fetched at pc, which it leaves there; whatever else completes leaves pc
aligned, and only BASE stores, in canonical form. -/
theorem stepKeepsInv : Obligations.StepKeepsInv := by
  unfold Obligations.StepKeepsInv
  rintro s t ⟨hwf, halign, -⟩ h
  obtain ⟨hs, ⟨i, hfetch, hexec⟩ | ⟨w, hfetch, hbase⟩⟩ := step_next h
  · obtain ⟨w0, w1, he, rfl⟩ | ⟨-, f, rfl⟩ | ⟨rt, ra, rb, -, rfl⟩ := exec_next hexec
    · exact inv_trap hwf halign (matches_of_fetchInstr hfetch he)
    · exact inv_running hs hwf (advance_aligned halign 8 (.inr rfl))
    · exact inv_running hs hwf (advance_aligned halign 4 (.inl rfl))
  · obtain ⟨v, hv⟩ | htrap := execBase_cases w none s
    · obtain rfl : t = _ := Host.Outcome.next.inj (hbase.symm.trans hv)
      exact inv_running ((State.withBase_hart _ _).trans hs) (withBase_mem_wf hwf) (withBase_pc_aligned _ _)
    · obtain rfl : t = _ := Host.Outcome.next.inj (hbase.symm.trans htrap)
      exact inv_trap hwf halign (matches_of_fetchBase hfetch)

end Sys2Proof
end

section
/-!
PROOFS. MSR.LE and the register operations: every operation of a prefixed instruction commutes with a change of
MSR (10_state R38).
-/

namespace Sys2Proof

open Reference Machine

/-! ## Elements and the loop -/

section Loop

variable (s : State) (m : Msr) (l : Loc) (w d : Width) (es ed : BitVec 2) (i : Nat)

theorem writeLoc_setMsr (v : Word) :
    (s.setMsr m).writeLoc l w i v = (s.writeLoc l w i v).map (·.setMsr m) := by
  cases hl : l.place with
  | gpr n | fpr n => simp only [State.writeLoc, hl, Option.map_map]; rfl
  | crField n | crBit n =>
    simp only [State.writeLoc, hl, apply_dite (Option.map _)]
    rfl

theorem readLocs_setMsr (ls : List Loc) : (s.setMsr m).readLocs ls d es i = s.readLocs ls d es i := by
  induction ls with
  | nil => rfl
  | cons l ls ih => rw [State.readLocs, ih]; rfl

theorem writeLocs_setMsr (ls : List Loc) (vs : List Word) :
    (s.setMsr m).writeLocs ls d ed i vs = (s.writeLocs ls d ed i vs).map (·.setMsr m) := by
  induction ls generalizing s vs with
  | nil => rfl
  | cons l ls ih =>
    cases vs with
    | nil => rfl
    | cons v vs =>
      rw [State.writeLocs, State.writeLocs, writeLoc_setMsr]
      cases s.writeLoc l (l.width d ed) i v with
      | none => rfl
      | some s' => exact ih s' vs

theorem elementOp_setMsr (op : ElementOp) (srcs dsts : List Loc) :
    elementOp op srcs dsts d es ed i (s.setMsr m) = (elementOp op srcs dsts d es ed i s).map (·.setMsr m) := by
  rw [elementOp, elementOp, readLocs_setMsr]
  cases s.readLocs srcs d es i with
  | none => rfl
  | some vs => exact writeLocs_setMsr s m d ed i dsts _

theorem elementLoop_setMsr (op : ElementOp) (srcs dsts : List Loc) (dm : List Bool) :
    elementLoop op srcs dsts d es ed dm i (s.setMsr m) =
      (elementLoop op srcs dsts d es ed dm i s).map (·.setMsr m) := by
  induction dm generalizing s i with
  | nil => rfl
  | cons b dm ih =>
    cases b with
    | false => exact ih s (i + 1)
    | true =>
      rw [elementLoop, elementLoop, elementOp_setMsr]
      cases elementOp op srcs dsts d es ed i s with
      | none => rfl
      | some s' =>
        dsimp only [Option.map_some]
        rw [apply_ite (Option.map _), ← ih s' (i + 1)]
        rfl

end Loop

/-! ## Instructions -/

/-- The outcome with MSR replaced in the next state, if there is one. -/
def outWithMsr (m : Msr) : Out → Out
  | .next t => .next (t.setMsr m)
  | .fault f => .fault f
  | .refused r => .refused r

theorem execute_setMsr (d : Suffix) (op : ElementOp) (rm : Rm) (s : State) (m : Msr) :
    d.execute op rm (s.setMsr m) = outWithMsr m (d.execute op rm s) := by
  have hvl : (s.setMsr m).readVl = s.readVl := rfl
  have hpred : predVector rm.maskmode rm.mask s.readVl (s.setMsr m) = predVector rm.maskmode rm.mask s.readVl s := rfl
  simp only [Suffix.execute, hvl, hpred, elementLoop_setMsr]
  split
  · rfl
  · split
    · rfl
    · cases elementLoop op _ _ _ _ _ _ _ _ with
      | none => rfl
      | some s' =>
        dsimp only [Option.map_some]
        split <;> rfl

theorem run_setMsr (d : Suffix) (rm : Rm) (w0 w1 : IWord) (s : State) (m : Msr) :
    d.run rm w0 w1 (s.setMsr m) = outWithMsr m (d.run rm w0 w1 s) := by
  rw [Suffix.run, Suffix.run, State.setMsr_pc]
  split
  · rfl
  · cases d.refusal rm s.pc with
    | some r => rfl
    | none =>
      cases d.op with
      | none => rfl
      | some op => exact execute_setMsr d op rm s m

theorem exec_setMsr (i : Instr) (s : State) (m : Msr) : exec i (s.setMsr m) = outWithMsr m (exec i s) := by
  cases i with
  | svAdd rm rt ra rb => exact run_setMsr _ _ _ _ _ _
  | svSuffix rm w1 =>
    obtain htrap | href | ⟨d, hrun⟩ := exec_svSuffix_cases rm w1
    · rw [htrap, htrap]
      rfl
    · rw [href, href]
      rfl
    · rw [hrun, hrun]
      exact run_setMsr d _ _ _ _ _
  | _ => rfl

/-- Settles O48: no meaning reads MSR, and none writes it. -/
theorem msrLeDoesNotTouchRegisters : Obligations.MsrLeDoesNotTouchRegisters := by
  unfold Obligations.MsrLeDoesNotTouchRegisters
  intro i s m
  refine (exec_setMsr i s m).trans ?_
  cases exec i s <;> rfl

end Sys2Proof
end

section
/-!
PROOFS. The state after reset, writing VL, instruction words and data in memory (10_state R46, R51,
20_memory R60 to R62).
-/

namespace Sys2Proof

open Reference Machine

/-! ## Bytes of a number -/

theorem bytesOfNat_length (n v : Nat) : (bytesOfNat n v).length = n := by
  induction n generalizing v with
  | zero => rfl
  | succ n ih => rw [bytesOfNat, List.length_cons, ih]

theorem bytesOfNat_getElem {n v k : Nat} (hk : k < (bytesOfNat n v).length) :
    (bytesOfNat n v)[k] = BitVec.ofNat 8 (v / 256 ^ k) := by
  induction n generalizing v k with
  | zero => cases hk
  | succ n ih =>
    cases k with
    | zero => simp [bytesOfNat]
    | succ k => simp only [bytesOfNat, List.getElem_cons_succ, ih, Nat.div_div_eq_div_mul, ← Nat.pow_succ']

theorem natOfBytes_bytesOfNat (n v : Nat) : natOfBytes (bytesOfNat n v) = v % 256 ^ n := by
  induction n generalizing v with
  | zero => exact (Nat.mod_one v).symm
  | succ n ih =>
    rw [bytesOfNat, natOfBytes, ih, BitVec.toNat_ofNat, Nat.pow_succ' (m := 256), Nat.mod_mul]

/-! ## Data in memory -/

/-- The bytes of `v` in the order in which MSR.LE lays them (20_memory R61). -/
def dataBytes (le : Bool) (n v : Nat) : List Byte := if le then bytesOfNat n v else (bytesOfNat n v).reverse

theorem dataBytes_length (le : Bool) (n v : Nat) : (dataBytes le n v).length = n := by
  cases le <;> simp [dataBytes, bytesOfNat_length]

theorem dataBytes_getElem {le : Bool} {n v k : Nat} (hk : k < (dataBytes le n v).length) :
    (dataBytes le n v)[k] = BitVec.ofNat 8 (v / 256 ^ (if le then k else n - 1 - k)) := by
  cases le <;> simp [dataBytes, bytesOfNat_getElem, bytesOfNat_length]

theorem memWrite_mem (s : State) (a : Word) (n v : Nat) :
    (s.memWrite a n v).mem = s.mem.writeBytes a (dataBytes s.msr.le n v) := rfl

/-- The bytes just written stand at their addresses. -/
theorem memWrite_readBytes (s : State) (a : Word) {n : Nat} (v : Nat) (hn : n ≤ 2 ^ 64) :
    (s.memWrite a n v).mem.readBytes a (dataBytes s.msr.le n v).length = some (dataBytes s.msr.le n v) :=
  Memory.readBytes_writeBytes ((dataBytes_length s.msr.le n v).trans_le hn)

/-- Reading in the order of writing gives the number back. -/
theorem memRead_memWrite (s : State) (a : Word) {n : Nat} (v : Nat) (hn : n ≤ 2 ^ 64) :
    (s.memWrite a n v).memRead a n = some (v % 256 ^ n) := by
  have hread := memWrite_readBytes s a v hn
  rw [dataBytes_length] at hread
  rw [State.memRead, hread, State.memWrite_msr, Option.map_some, dataBytes, ← natOfBytes_bytesOfNat]
  cases s.msr.le <;> simp

/-! ## Instruction words in memory -/

/-- The word of four bytes, as a number, in either byte order (20_memory R62). -/
theorem wordOfBytes_toNat (b0 b1 b2 b3 : Byte) :
    (wordOfBytes true b0 b1 b2 b3).toNat =
      b0.toNat + 2 ^ 8 * b1.toNat + 2 ^ 16 * b2.toNat + 2 ^ 24 * b3.toNat ∧
    (wordOfBytes false b0 b1 b2 b3).toNat =
      b3.toNat + 2 ^ 8 * b2.toNat + 2 ^ 16 * b1.toNat + 2 ^ 24 * b0.toNat := by
  have happ (x0 x1 x2 x3 : Byte) : (x3 ++ x2 ++ x1 ++ x0).toNat =
      x0.toNat + 2 ^ 8 * x1.toNat + 2 ^ 16 * x2.toNat + 2 ^ 24 * x3.toNat := by
    rw [append_toNat, append_toNat, append_toNat]
    omega
  exact ⟨happ b0 b1 b2 b3, happ b3 b2 b1 b0⟩

/-! ## The obligations -/

/-- Settles O55: nothing is listed in memory, pc is 0 and the hart runs. -/
theorem resetMeetsInv : Obligations.ResetMeetsInv := by
  unfold Obligations.ResetMeetsInv
  exact inv_running rfl reset_mem_wf rfl

/-- Settles O56: each value is read off the state after reset. -/
theorem resetValues : Obligations.ResetValues := by
  unfold Obligations.ResetValues
  refine ⟨fun r => ?_, rfl, rfl, rfl, fun _ => rfl, rfl, rfl⟩
  simp [State.reset]

/-- Settles O57: the four bytes are read at consecutive addresses, modulo 2^64. -/
theorem fetchWordByteOrder : Obligations.FetchWordByteOrder := by
  unfold Obligations.FetchWordByteOrder
  refine ⟨rfl, fun m a b0 b1 b2 b3 h0 h1 h2 h3 => ?_⟩
  have hread : m.readBytes a 4 = some [b0, b1, b2, b3] := by
    refine (readBytes_eq_some_iff (bs := [b0, b1, b2, b3])).mpr fun k hk => ?_
    have hk4 : k < 4 := hk
    interval_cases k
    · simpa using h0
    · exact h1
    · exact h2
    · exact h3
  obtain ⟨hle, hbe⟩ := wordOfBytes_toNat b0 b1 b2 b3
  exact ⟨⟨_, fetchWord_eq_some.mpr ⟨_, _, _, _, hread, rfl⟩, hle⟩,
    ⟨_, fetchWord_eq_some.mpr ⟨_, _, _, _, hread, rfl⟩, hbe⟩⟩

/-- Settles O58: a write lays down the bytes in the order of MSR.LE, and a read takes them in the same order. -/
theorem dataByteOrderIsMsrLe : Obligations.DataByteOrderIsMsrLe := by
  unfold Obligations.DataByteOrderIsMsrLe
  intro s a n v hn
  refine ⟨memRead_memWrite s a v hn, fun k hk => ?place, fun x hx => ?other, memWrite_wf⟩
  case place =>
    have hlen := dataBytes_length s.msr.le n v
    rw [readBytes_eq_some_iff.mp (memWrite_readBytes s a v hn) k (hlen.symm ▸ hk), dataBytes_getElem]
  case other =>
    rw [memWrite_mem]
    exact Memory.read_writeBytes_other (by rwa [dataBytes_length])

/-- Settles O59: a supported VL is stored before the rest is done; any other is the trap of the writer's words. -/
theorem writeVlSupportsUpTo127 : Obligations.WriteVlSupportsUpTo127 := by
  unfold Obligations.WriteVlSupportsUpTo127
  intro s w0 w1 v rest
  constructor
  · intro hv
    exact ⟨s.setSvstate ⟨⟨v, Nat.lt_succ_of_le hv⟩⟩, dif_pos (Nat.lt_succ_of_le hv), rfl, rfl,
      ⟨rfl, rfl, rfl, rfl, rfl, rfl⟩, rfl, rfl, rfl⟩
  · intro hv
    exact dif_neg (Nat.not_lt.mpr hv)

end Sys2Proof
end

section
/-!
PROOFS. Register files as bytes: an element is the little-endian sum of its bytes, and a write changes those bytes
alone (10_state R36, R37, R40).
-/

namespace Sys2Proof

open Reference Machine

/-! ## Numbers as sums of bytes -/

/-- The number whose `n` digits to base 256, least significant first, are `d 0`, `d 1`, … -/
def byteSum (d : Nat → Nat) (n : Nat) : Nat := ((List.range n).map fun k => d k * 256 ^ k).sum

theorem byteSum_succ (d : Nat → Nat) (n : Nat) : byteSum d (n + 1) = byteSum d n + d n * 256 ^ n := by
  simp [byteSum, List.range_succ]

theorem byteSum_congr {d d' : Nat → Nat} {n : Nat} (h : ∀ k < n, d k = d' k) : byteSum d n = byteSum d' n := by
  refine congrArg List.sum (List.map_congr_left fun k hk => ?_)
  rw [h k (List.mem_range.mp hk)]

theorem byteSum_lt {d : Nat → Nat} {n : Nat} (hd : ∀ k, d k < 256) : byteSum d n < 256 ^ n := by
  induction n with
  | zero => exact Nat.one_pos
  | succ n ih =>
    have hmul : d n * 256 ^ n ≤ 255 * 256 ^ n := Nat.mul_le_mul_right _ (Nat.le_of_lt_succ (hd n))
    rw [byteSum_succ, Nat.pow_succ]
    omega

theorem byteSum_digit {d : Nat → Nat} {n j : Nat} (hd : ∀ k, d k < 256) (hj : j < n) :
    byteSum d n / 256 ^ j % 256 = d j := by
  induction n with
  | zero => cases hj
  | succ n ih =>
    rw [byteSum_succ]
    obtain hlt | rfl := Nat.lt_succ_iff_lt_or_eq.mp hj
    · obtain ⟨m, rfl⟩ := Nat.exists_eq_add_of_lt hlt
      rw [← ih hlt, show d (j + m + 1) * 256 ^ (j + m + 1) = 256 ^ j * (256 * (d (j + m + 1) * 256 ^ m)) by ring,
        Nat.add_mul_div_left _ _ (by positivity), Nat.add_mul_mod_self_left]
    · rw [Nat.add_mul_div_right _ _ (by positivity), Nat.div_eq_of_lt (byteSum_lt hd), Nat.zero_add,
        Nat.mod_eq_of_lt (hd j)]

/-- A number is the sum of its own bytes. -/
theorem byteSum_bytes (v n : Nat) : byteSum (fun k => v / 256 ^ k % 256) n = v % 256 ^ n := by
  induction n with
  | zero => exact (Nat.mod_one v).symm
  | succ n ih => rw [byteSum_succ, ih, Nat.mod_pow_succ, Nat.mul_comm (256 ^ n)]

/-- Registers with equal bytes are equal. -/
theorem word_eq_of_bytes {x y : Word} (h : ∀ k < 8, x.toNat / 256 ^ k % 256 = y.toNat / 256 ^ k % 256) : x = y := by
  apply BitVec.eq_of_toNat_eq
  have hx : x.toNat % 256 ^ 8 = x.toNat := Nat.mod_eq_of_lt x.isLt
  have hy : y.toNat % 256 ^ 8 = y.toNat := Nat.mod_eq_of_lt y.isLt
  rw [← hx, ← hy, ← byteSum_bytes, ← byteSum_bytes]
  exact byteSum_congr h

/-! ## The bytes of a file -/

theorem fileByte_lt (f : RegFile) (n : Nat) : fileByte f n < 256 := Nat.mod_lt _ (by decide)

theorem fileByte_register (f : RegFile) {r k : Nat} (hr : r < 128) (hk : k < 8) :
    fileByte f (8 * r + k) = f[r].toNat / 256 ^ k % 256 := by
  have hdiv : (8 * r + k) / 8 = r := by omega
  have hmod : (8 * r + k) % 8 = k := by omega
  rw [fileByte, hdiv, hmod, Vector.getElem?_eq_getElem hr, Option.getD_some]

/-- Files with equal bytes are equal. -/
theorem file_eq_of_bytes {f f' : RegFile} (h : ∀ n < 1024, fileByte f n = fileByte f' n) : f = f' := by
  refine Vector.ext fun r hr => word_eq_of_bytes fun k hk => ?_
  rw [← fileByte_register f hr hk, ← fileByte_register f' hr hk]
  exact h _ (by omega)

/-! ## The place of an element -/

/-- An element lies inside one register, `e mod per` elements from its low end. -/
theorem elemOffset_eq (g e : Nat) (w : Width) :
    elemOffset g e w = 8 * (g + e / w.per) + e % w.per * (w.bits / 8) ∧
      e % w.per * (w.bits / 8) + w.bits / 8 ≤ 8 := by
  cases w <;> simp only [elemOffset, Width.per, Width.bits] <;> omega

theorem inFile_iff {g e : Nat} {w : Width} : inFile g e w ↔ g + e / w.per < 128 := by
  obtain ⟨hoff, hle⟩ := elemOffset_eq g e w
  have hpos : 0 < w.bits / 8 := by cases w <;> decide
  rw [inFile, hoff]
  omega

theorem two_pow_bits (w : Width) (k : Nat) : 2 ^ (w.bits * k) = 256 ^ (k * (w.bits / 8)) := by
  have h : w.bits * k = 8 * (k * (w.bits / 8)) := by cases w <;> simp only [Width.bits] <;> omega
  rw [h, Nat.pow_mul]

theorem two_pow_width (w : Width) : 2 ^ w.bits = 256 ^ (w.bits / 8) := by
  simpa using two_pow_bits w 1

/-! ## Reading -/

theorem refElem_eq_byteSum (f : RegFile) (g e : Nat) (w : Width) :
    refElem f g e w = byteSum (fun k => fileByte f (elemOffset g e w + k)) (w.bits / 8) := rfl

theorem refElem_lt (f : RegFile) (g e : Nat) (w : Width) : refElem f g e w < 2 ^ w.bits := by
  rw [two_pow_width]
  exact byteSum_lt fun _ => fileByte_lt f _

/-- Elements with equal bytes are equal. -/
theorem refElem_congr {f f' : RegFile} {g e : Nat} {w : Width}
    (h : ∀ k < w.bits / 8, fileByte f (elemOffset g e w + k) = fileByte f' (elemOffset g e w + k)) :
    refElem f g e w = refElem f' g e w := byteSum_congr h

theorem extractElem_toNat (r : Word) (k : Nat) (w : Width) :
    (extractElem r k w).toNat = r.toNat / 256 ^ (k * (w.bits / 8)) % 2 ^ w.bits := by
  rw [extractElem, Width.wrap_toNat, BitVec.toNat_ushiftRight, Nat.shiftRight_eq_div_pow, two_pow_bits]

/-- The bytes of an element are consecutive ones of its register. -/
theorem refElem_eq_extractElem {f : RegFile} {g e : Nat} {w : Width} (h : g + e / w.per < 128) :
    refElem f g e w = (extractElem f[g + e / w.per] (e % w.per) w).toNat := by
  obtain ⟨hoff, hle⟩ := elemOffset_eq g e w
  rw [extractElem_toNat, two_pow_width, ← byteSum_bytes, refElem_eq_byteSum]
  refine byteSum_congr fun k hk => ?_
  rw [hoff, Nat.add_assoc, fileByte_register f h (by omega), Nat.pow_add, Nat.div_div_eq_div_mul]

theorem elemGet_eq_refElem {f : RegFile} {g e : Nat} {w : Width} (h : inFile g e w) :
    elemGet f g e w = some (BitVec.ofNat 64 (refElem f g e w)) := by
  have hr := inFile_iff.mp h
  rw [elemGet, dif_pos hr, refElem_eq_extractElem hr, BitVec.ofNat_toNat, BitVec.setWidth_eq]

theorem elemGet_eq_none {f : RegFile} {g e : Nat} {w : Width} (h : ¬ inFile g e w) : elemGet f g e w = none :=
  dif_neg (mt inFile_iff.mpr h)

/-! ## Writing -/

/-- Byte `n` of the file after the `len` low bytes of `v` have been stored from `off` upwards. -/
def byteAfterWrite (f : RegFile) (off len v n : Nat) : Nat :=
  if off ≤ n ∧ n < off + len then v / 256 ^ (n - off) % 256 else fileByte f n

theorem byteAfterWrite_lt (f : RegFile) (off len v n : Nat) : byteAfterWrite f off len v n < 256 := by
  unfold byteAfterWrite
  split
  · exact Nat.mod_lt _ (by decide)
  · exact fileByte_lt f n

theorem refSetElem_getElem (f : RegFile) (g e : Nat) (w : Width) (v : Nat) {r : Nat} (hr : r < 128) :
    (refSetElem f g e w v)[r] =
      BitVec.ofNat 64 (byteSum (fun k => byteAfterWrite f (elemOffset g e w) (w.bits / 8) v (8 * r + k)) 8) := by
  rw [refSetElem, Vector.getElem_ofFn]
  rfl

/-- A write leaves every byte but those of its element (10_state R37). -/
theorem fileByte_refSetElem (f : RegFile) (g e : Nat) (w : Width) (v : Nat) {n : Nat} (hn : n < 1024) :
    fileByte (refSetElem f g e w v) n = byteAfterWrite f (elemOffset g e w) (w.bits / 8) v n := by
  obtain ⟨r, k, hk, rfl⟩ : ∃ r k, k < 8 ∧ n = 8 * r + k := ⟨n / 8, n % 8, by omega, by omega⟩
  have hlt : byteSum _ 8 < 2 ^ 64 :=
    byteSum_lt fun k => byteAfterWrite_lt f (elemOffset g e w) (w.bits / 8) v (8 * r + k)
  rw [fileByte_register _ (by omega) hk, refSetElem_getElem _ _ _ _ _ (by omega), BitVec.toNat_ofNat,
    Nat.mod_eq_of_lt hlt, byteSum_digit (fun _ => byteAfterWrite_lt f _ _ v _) hk]

theorem fileByte_refSetElem_other {f : RegFile} {g e : Nat} {w : Width} {v n : Nat} (hn : n < 1024)
    (h : n < elemOffset g e w ∨ elemOffset g e w + w.bits / 8 ≤ n) :
    fileByte (refSetElem f g e w v) n = fileByte f n := by
  rw [fileByte_refSetElem f g e w v hn, byteAfterWrite, if_neg (by omega)]

/-- The element just written reads back as the value modulo `2^w`. -/
theorem refElem_refSetElem_same {f : RegFile} {g e : Nat} {w : Width} (v : Nat) (h : inFile g e w) :
    refElem (refSetElem f g e w v) g e w = v % 2 ^ w.bits := by
  rw [two_pow_width, ← byteSum_bytes, refElem_eq_byteSum]
  refine byteSum_congr fun k hk => ?_
  rw [fileByte_refSetElem f g e w v (by omega), byteAfterWrite, if_pos (by omega), Nat.add_sub_cancel_left]

/-- An element that shares no byte with the one written is as before. -/
theorem refElem_refSetElem_other {f : RegFile} {g e g' e' : Nat} {w : Width} {v : Nat} (h : inFile g' e' w)
    (hd : elemOffset g' e' w + w.bits / 8 ≤ elemOffset g e w ∨
      elemOffset g e w + w.bits / 8 ≤ elemOffset g' e' w) :
    refElem (refSetElem f g e w v) g' e' w = refElem f g' e' w :=
  refElem_congr fun k hk => fileByte_refSetElem_other (by omega) (by omega)

/-- A byte of a register, as eight of its bits. -/
theorem extractLsb'_byte_toNat (x : Word) (k : Nat) : (x.extractLsb' (8 * k) 8).toNat = x.toNat / 256 ^ k % 256 := by
  rw [BitVec.extractLsb'_toNat, Nat.shiftRight_eq_div_pow, Nat.pow_mul]

/-- The bytes of a register in which one element has been replaced. -/
theorem insertElem_byte (r : Word) (m : Nat) (w : Width) (v : Word) {k : Nat} (hk : k < 8) :
    (insertElem r m w v).toNat / 256 ^ k % 256 =
      if m * (w.bits / 8) ≤ k ∧ k < m * (w.bits / 8) + w.bits / 8 then
        v.toNat / 256 ^ (k - m * (w.bits / 8)) % 256 else r.toNat / 256 ^ k % 256 := by
  have hbits : w.bits = 8 * (w.bits / 8) := by cases w <;> rfl
  have hpos : w.bits * m = 8 * (m * (w.bits / 8)) := by rw [Nat.mul_comm m, ← Nat.mul_assoc, ← hbits]
  rw [← extractLsb'_byte_toNat, ← extractLsb'_byte_toNat, ← extractLsb'_byte_toNat, ← apply_ite BitVec.toNat]
  refine congrArg BitVec.toNat (BitVec.eq_of_getLsbD_eq fun j hj => ?_)
  rw [BitVec.getLsbD_extractLsb', insertElem_getLsbD _ _ _ _ _ (by omega), hpos]
  generalize m * (w.bits / 8) = p at *
  split_ifs with h1 h2 h2
  · rw [BitVec.getLsbD_extractLsb', show 8 * (k - p) + j = 8 * k + j - 8 * p by omega]
  · omega
  · omega
  · rw [BitVec.getLsbD_extractLsb']

theorem elemSet_eq_refSetElem {f : RegFile} {g e : Nat} {w : Width} {v : Word} (h : inFile g e w) :
    elemSet f g e w v = some (refSetElem f g e w v.toNat) := by
  have hr := inFile_iff.mp h
  obtain ⟨hoff, hle⟩ := elemOffset_eq g e w
  rw [elemSet, dif_pos hr]
  refine congrArg some (file_eq_of_bytes fun n hn => ?_)
  obtain ⟨r, k, hk, rfl⟩ : ∃ r k, k < 8 ∧ n = 8 * r + k := ⟨n / 8, n % 8, by omega, by omega⟩
  rw [fileByte_refSetElem f g e w v.toNat hn, byteAfterWrite, hoff, fileByte_register _ (by omega) hk,
    fileByte_register _ (by omega) hk]
  by_cases hreg : g + e / w.per = r
  · subst hreg
    rw [Vector.getElem_set_self, insertElem_byte _ _ _ _ hk]
    simp only [Nat.add_assoc, Nat.add_le_add_iff_left, Nat.add_lt_add_iff_left, Nat.add_sub_add_left]
  · rw [Vector.getElem_set_ne _ _ hreg, if_neg (by omega)]

theorem elemSet_eq_none {f : RegFile} {g e : Nat} {w : Width} {v : Word} (h : ¬ inFile g e w) :
    elemSet f g e w v = none :=
  dif_neg (mt inFile_iff.mpr h)

/-! ## Elements of 64 bits -/

theorem inFile_w64 {g e : Nat} : inFile g e .w64 ↔ g + e < 128 := by
  rw [inFile_iff, Width.per, Nat.div_one]

theorem refElem_w64 {f : RegFile} {g e : Nat} (h : g + e < 128) : refElem f g e .w64 = f[g + e].toNat := by
  have hget := (elemGet_eq_refElem (f := f) (inFile_w64.mpr h)).symm.trans (elemGet_w64 f g e h)
  rw [← Option.some_injective _ hget, BitVec.toNat_ofNat]
  exact (Nat.mod_eq_of_lt (refElem_lt f g e .w64)).symm

theorem refSetElem_w64 {f : RegFile} {g e : Nat} (v : Word) (h : g + e < 128) :
    refSetElem f g e .w64 v.toNat = f.set (g + e) v :=
  Option.some_injective _ ((elemSet_eq_refSetElem (inFile_w64.mpr h)).symm.trans (elemSet_w64 f g e v h))

/-! ## CR fields as operands -/

/-- A whole CR field as a value: LT is the most significant of its four bits (log 18). -/
theorem crField_toWord (c : CrField) :
    c.toWord = BitVec.ofNat 64 ((crBits c).foldl (fun a b => 2 * a + b.toNat) 0) := by
  obtain ⟨lt, gt, eq, fu⟩ := c
  revert lt gt eq fu
  decide

theorem crBits_ofWord (x : Word) : crBits (CrField.ofWord x) =
    [x.toNat / 8 % 2 == 1, x.toNat / 4 % 2 == 1, x.toNat / 2 % 2 == 1, x.toNat % 2 == 1] := by
  simp only [crBits, CrField.ofWord, BitVec.getLsbD, Nat.testBit_eq_decide_div_mod_eq, Nat.pow_zero, Nat.div_one]
  rfl

/-- The bit that a number selects (log 18). -/
theorem crField_bit (c : CrField) (k : BitVec 2) : c.bit k = (crBits c)[k.toNat]?.getD false := by
  obtain ⟨lt, gt, eq, fu⟩ := c
  revert lt gt eq fu k
  decide

theorem crBits_setBit (c : CrField) (k : BitVec 2) (b : Bool) : crBits (c.setBit k b) = (crBits c).set k.toNat b := by
  obtain ⟨lt, gt, eq, fu⟩ := c
  revert lt gt eq fu k b
  decide

/-- The bit of its field that a CR bit number names (42_extra_registers R170). -/
theorem crBit_low_toNat (n : BitVec 9) : (field n 7 2).toNat = n.toNat % 4 := by
  rw [field_toNat, Nat.pow_zero, Nat.div_one]
  rfl

/-- A CR bit as a value. -/
theorem ofBool_setWidth (b : Bool) : (BitVec.ofBool b).setWidth 64 = BitVec.ofNat 64 b.toNat := by
  cases b <;> rfl

section CrAccess

variable (s : State) (v : Bool) (w : Width) (i : Nat) (x : Word)

theorem readLoc_crField {n : BitVec 7} (h : n.toNat + idx (0, v) i < 128) :
    s.readLoc ⟨.crField n, v⟩ w i = some s.crf[n.toNat + idx (0, v) i].toWord := by
  change (s.crf[n.toNat + idx (0, v) i]?).map _ = _
  rw [Vector.getElem?_eq_getElem h, Option.map_some]

theorem readLoc_crBit {n : BitVec 9} (h : n.toNat / 4 + idx (0, v) i < 128) :
    s.readLoc ⟨.crBit n, v⟩ w i =
      some ((BitVec.ofBool (s.crf[n.toNat / 4 + idx (0, v) i].bit (field n 7 2))).setWidth 64) := by
  change (s.crf[n.toNat / 4 + idx (0, v) i]?).map _ = _
  rw [Vector.getElem?_eq_getElem h, Option.map_some]

theorem readLoc_crField_none {n : BitVec 7} (h : 128 ≤ n.toNat + idx (0, v) i) :
    s.readLoc ⟨.crField n, v⟩ w i = none := by
  change (s.crf[n.toNat + idx (0, v) i]?).map _ = _
  rw [Vector.getElem?_eq_none h, Option.map_none]

theorem readLoc_crBit_none {n : BitVec 9} (h : 128 ≤ n.toNat / 4 + idx (0, v) i) :
    s.readLoc ⟨.crBit n, v⟩ w i = none := by
  change (s.crf[n.toNat / 4 + idx (0, v) i]?).map _ = _
  rw [Vector.getElem?_eq_none h, Option.map_none]

end CrAccess

/-! ## The obligations -/

/-- Settles O8: the bytes of an element are consecutive bytes of one register. -/
theorem elementReadIsSumOfBytes : Obligations.ElementReadIsSumOfBytes := by
  unfold Obligations.ElementReadIsSumOfBytes
  exact fun f g e w => ⟨fun h => ⟨elemGet_eq_refElem h, refElem_lt f g e w⟩, elemGet_eq_none⟩

/-- Settles O9: the model's write is the one by bytes. -/
theorem elementWriteChangesItsBytesOnly : Obligations.ElementWriteChangesItsBytesOnly := by
  unfold Obligations.ElementWriteChangesItsBytesOnly
  refine fun f g e w v h => ⟨_, elemSet_eq_refSetElem h, fun k hk => ?_,
    fun n hn hout => fileByte_refSetElem_other hn hout⟩
  rw [fileByte_refSetElem f g e w v.toNat (by omega), byteAfterWrite, if_pos (by omega), Nat.add_sub_cancel_left]

/-- Settles O10: an FPR operand is an element of its file, and a CR operand one field or one bit of it. -/
theorem fprAndCrOperandAccess : Obligations.FprAndCrOperandAccess := by
  unfold Obligations.FprAndCrOperandAccess
  refine ⟨fun f spec => ⟨rfl, rfl, rfl⟩, fun f spec => rfl, fun s v i w x => ⟨fun n => ?fpr, fun n => ?field,
    fun b => ?bit⟩⟩
  case fpr =>
    refine ⟨fun h => ⟨elemGet_eq_refElem h, ?_⟩, fun h => ⟨elemGet_eq_none h, ?_⟩⟩
    · exact congrArg (Option.map s.setFpr) (elemSet_eq_refSetElem h)
    · exact congrArg (Option.map s.setFpr) (elemSet_eq_none h)
  case field =>
    refine ⟨fun h => ⟨CrField.ofWord x, ?_, crBits_ofWord x, dif_pos h⟩,
      fun h => ⟨readLoc_crField_none s v w i h, dif_neg (Nat.not_lt.mpr h)⟩⟩
    rw [readLoc_crField s v w i h, crField_toWord]
  case bit =>
    refine ⟨fun h => ⟨s.crf[b.toNat / 4 + idx (0, v) i].setBit (field b 7 2) (x.getLsbD 0), ?_, ?_, dif_pos h⟩,
      fun h => ⟨readLoc_crBit_none s v w i h, dif_neg (Nat.not_lt.mpr h)⟩⟩
    · rw [readLoc_crBit s v w i h, ofBool_setWidth, crField_bit, crBit_low_toNat]
    · rw [crBits_setBit, crBit_low_toNat, BitVec.getLsbD, Nat.testBit_zero]
      rfl

end Sys2Proof
end

section
/-!
PROOFS. Masks: which elements each value of MASK enables (41_predication R133, R138), and when a mask reaches past
its source (R136, R142).
-/

namespace Sys2Proof

open Reference Machine

/-! ## One element -/

/-- Bit `i` of a mask register, set or clear, as a number. -/
theorem getLsbD_eq_decide (x : Word) (i : Nat) : x.getLsbD i = decide (x.toNat / 2 ^ i % 2 = 1) := by
  rw [BitVec.getLsbD, Nat.testBit_eq_decide_div_mod_eq]

theorem not_getLsbD_eq_decide (x : Word) (i : Nat) : (!x.getLsbD i) = decide (x.toNat / 2 ^ i % 2 = 0) := by
  rw [getLsbD_eq_decide, ← decide_not, decide_eq_decide]
  omega

/-- The CR field of element `i`, as far as CR127. -/
theorem crPred_eq_any {crf : CrFile} {m : BitVec 3} {i : Nat} (h : i < 96) :
    crPred crf m i = (crf[32 + i]?).any fun c =>
      if field m 2 1 = 0 then c.bit (field m 0 2) else !c.bit (field m 0 2) := by
  have hi : 32 + i < 128 := by omega
  rw [Vector.getElem?_eq_getElem hi, Option.any_some, crPred, dif_pos hi]

theorem mask_cases : ∀ m : BitVec 3, m = 0 ∨ m = 1 ∨ m = 2 ∨ m = 3 ∨ m = 4 ∨ m = 5 ∨ m = 6 ∨ m = 7 := by
  decide

/-- The rows of R133. -/
theorem predicate_int {rm : Rm} (hmode : rm.maskmode = .int) (s : State) (i : Nat) :
    predicate .int rm.mask s i = enabled rm s i := by
  obtain hm | hm | hm | hm | hm | hm | hm | hm := mask_cases rm.mask <;>
    simp only [predicate, enabled, hmode, hm]
  · rfl
  · rfl
  · exact getLsbD_eq_decide s.gpr[3] i
  · exact not_getLsbD_eq_decide s.gpr[3] i
  · exact getLsbD_eq_decide s.gpr[10] i
  · exact not_getLsbD_eq_decide s.gpr[10] i
  · exact getLsbD_eq_decide s.gpr[30] i
  · exact not_getLsbD_eq_decide s.gpr[30] i

/-- The rows of R138, as far as CR127. -/
theorem predicate_cr {rm : Rm} (hmode : rm.maskmode = .cr) (s : State) {i : Nat} (hi : i < 96) :
    predicate .cr rm.mask s i = enabled rm s i := by
  obtain hm | hm | hm | hm | hm | hm | hm | hm := mask_cases rm.mask <;>
    (simp only [predicate, enabled, hmode, hm, crPred_eq_any hi]; rfl)

theorem predicate_eq_enabled {rm : Rm} {i : Nat} (s : State) (h : rm.maskmode = .cr → i < 96) :
    predicate rm.maskmode rm.mask s i = enabled rm s i := by
  cases hmode : rm.maskmode with
  | int => exact predicate_int hmode s i
  | cr => exact predicate_cr hmode s (h hmode)

/-! ## The whole mask -/

/-- A mask within its source is refused by no rule. -/
theorem maskRefusal_of_fits {rm : Rm} {s : State} (h : maskFits rm s) :
    maskRefusal rm.maskmode rm.mask s.readVl = none := by
  obtain ⟨hint, hcr⟩ := h
  cases hmode : rm.maskmode with
  | int => exact if_neg fun hc => absurd (hint hmode hc.1) (Nat.not_le.mpr hc.2)
  | cr => exact if_neg (Nat.not_lt.mpr (hcr hmode))

/-- A mask past its source is refused by the name of its kind. -/
theorem maskRefusal_of_not_fits {rm : Rm} {s : State} (h : ¬ maskFits rm s) :
    rm.maskmode = .int ∧ maskRefusal rm.maskmode rm.mask s.readVl = some .intPredicateBeyondBit63 ∨
    rm.maskmode = .cr ∧ maskRefusal rm.maskmode rm.mask s.readVl = some .crPredicateBeyondCr127 := by
  cases hmode : rm.maskmode with
  | int =>
    refine .inl ⟨rfl, if_pos ?_⟩
    by_contra hc
    exact h ⟨fun _ h2 => Nat.not_lt.mp fun hlt => hc ⟨h2, hlt⟩, fun hcr => by simp [hmode] at hcr⟩
  | cr =>
    refine .inr ⟨rfl, if_pos ?_⟩
    by_contra hc
    exact h ⟨fun hint => (by simp [hmode] at hint), fun _ => Nat.not_lt.mp hc⟩

/-- The snapshot of a mask within its source, element by element. -/
theorem predVector_eq_enabled {rm : Rm} {s : State} (h : maskFits rm s) :
    predVector rm.maskmode rm.mask s.readVl s = (List.range s.readVl).map (enabled rm s) := by
  refine List.map_congr_left fun i hi => predicate_eq_enabled s fun hmode => ?_
  have := h.2 hmode
  have := List.mem_range.mp hi
  omega

/-- Settles O15: the selected register or CR field bit, inverted where the mask is odd. -/
theorem predicateTables : Obligations.PredicateTables := by
  unfold Obligations.PredicateTables
  exact fun rm s i h => predicate_eq_enabled s h

end Sys2Proof
end

section
/-!
PROOFS. `sv.add` is the loop of its pseudocode (43_vector_loop R208): the model's element loop over the GPR file
and the reference's, iteration by iteration.
-/

namespace Sys2Proof

open Reference Machine

/-! ## Registers and widths of `sv.add` -/

theorem svRt_eq (rm : Rm) (rt : BitVec 5) : ((svAddRt rm rt).1.toNat, (svAddRt rm rt).2) = svRt rm rt :=
  decodeReg_eq_refReg rt _

theorem svRa_eq (rm : Rm) (ra : BitVec 5) : ((svAddRa rm ra).1.toNat, (svAddRa rm ra).2) = svRa rm ra :=
  decodeReg_eq_refReg ra _

theorem svRb_eq (rm : Rm) (rb : BitVec 5) : ((svAddRb rm rb).1.toNat, (svAddRb rm rb).2) = svRb rm rb :=
  decodeReg_eq_refReg rb _

theorem intWidth_eq_svWidth (rm : Rm) : intWidth .w64 rm.elwidth = svWidth rm := by
  have hcases : ∀ ew : BitVec 2, ew = 0 ∨ ew = 1 ∨ ew = 2 ∨ ew = 3 := by decide
  obtain h | h | h | h := hcases rm.elwidth <;> simp only [svWidth, h] <;> rfl

/-! ## One iteration -/

/-- The three elements of iteration `i` lie in the file. -/
abbrev addFits (w : Width) (t a b : Nat × Bool) (i : Nat) : Prop :=
  inFile a.1 (idx a i) w ∧ inFile b.1 (idx b i) w ∧ inFile t.1 (idx t i) w

/-- The file after the sum of iteration `i` has been written (43_vector_loop R208). -/
def addElem (w : Width) (t a b : Nat × Bool) (i : Nat) (f : RegFile) : RegFile :=
  refSetElem f t.1 (idx t i) w ((refElem f a.1 (idx a i) w + refElem f b.1 (idx b i) w) % 2 ^ w.bits)

section Loop

variable {en : Nat → Bool} {w : Width} {t a b : Nat × Bool}

theorem refLoop_zero (i : Nat) (f : RegFile) : refLoop en w t a b 0 i f = some f := rfl

theorem refLoop_disabled {i : Nat} (h : en i = false) (n : Nat) (f : RegFile) :
    refLoop en w t a b (n + 1) i f = refLoop en w t a b n (i + 1) f := by
  rw [refLoop, h]
  rfl

theorem refLoop_enabled_vector {i : Nat} (h : en i = true) (hfit : addFits w t a b i) (ht : t.2 = true) (n : Nat)
    (f : RegFile) :
    refLoop en w t a b (n + 1) i f = refLoop en w t a b n (i + 1) (addElem w t a b i f) := by
  rw [refLoop, if_pos h, if_pos hfit, if_pos ht]
  rfl

theorem refLoop_enabled_scalar {i : Nat} (h : en i = true) (hfit : addFits w t a b i) (ht : t.2 = false) (n : Nat)
    (f : RegFile) : refLoop en w t a b (n + 1) i f = some (addElem w t a b i f) := by
  rw [refLoop, if_pos h, if_pos hfit, ht]
  rfl

theorem refLoop_enabled_past_end {i : Nat} (h : en i = true) (hfit : ¬ addFits w t a b i) (n : Nat)
    (f : RegFile) : refLoop en w t a b (n + 1) i f = none := by
  rw [refLoop, if_pos h, if_neg hfit]

end Loop

/-! ## The model's loop -/

/-- The wrapped sum of two elements, as a number (43_vector_loop R211). -/
theorem wrap_add_toNat (w : Width) (x y : Nat) :
    (w.wrap (BitVec.ofNat 64 x + BitVec.ofNat 64 y)).toNat = (x + y) % 2 ^ w.bits := by
  have hdvd : 2 ^ w.bits ∣ 2 ^ 64 := Nat.pow_dvd_pow 2 (by cases w <;> decide)
  rw [Width.wrap_toNat, ← BitVec.ofNat_add, BitVec.toNat_ofNat, Nat.mod_mod_of_dvd _ hdvd]

section Model

variable {w : Width} {es ed : BitVec 2} {pt pa pb : BitVec 7 × Bool} {t a b : Nat × Bool}

/-- One element operation is one iteration of the pseudocode. -/
theorem elementOp_add (hs : intWidth .w64 es = w) (hd : intWidth .w64 ed = w) (ht : (pt.1.toNat, pt.2) = t)
    (ha : (pa.1.toNat, pa.2) = a) (hb : (pb.1.toNat, pb.2) = b) (i : Nat) (s : State) :
    elementOp .add [⟨.gpr pa.1, pa.2⟩, ⟨.gpr pb.1, pb.2⟩] [⟨.gpr pt.1, pt.2⟩] .w64 es ed i s =
      if addFits w t a b i then some (s.setGpr (addElem w t a b i s.gpr)) else none := by
  subst ht ha hb
  rw [add_elementOp, hs, hd]
  change ((elemGet s.gpr _ (idx (pa.1.toNat, pa.2) i) w).bind fun x =>
    (elemGet s.gpr _ (idx (pb.1.toNat, pb.2) i) w).bind fun y =>
    (elemSet s.gpr _ (idx (pt.1.toNat, pt.2) i) w _).map s.setGpr) = _
  split_ifs with hfit
  · obtain ⟨hfa, hfb, hft⟩ := hfit
    rw [elemGet_eq_refElem hfa, elemGet_eq_refElem hfb, Option.bind_some, Option.bind_some,
      elemSet_eq_refSetElem hft, wrap_add_toNat]
    rfl
  · by_cases hfa : inFile pa.1.toNat (idx (pa.1.toNat, pa.2) i) w
    · by_cases hfb : inFile pb.1.toNat (idx (pb.1.toNat, pb.2) i) w
      · have hft : ¬ inFile pt.1.toNat (idx (pt.1.toNat, pt.2) i) w := fun hft => hfit ⟨hfa, hfb, hft⟩
        rw [elemGet_eq_refElem hfa, elemGet_eq_refElem hfb, Option.bind_some, Option.bind_some,
          elemSet_eq_none hft, Option.map_none]
      · rw [elemGet_eq_refElem hfa, elemGet_eq_none hfb, Option.bind_some, Option.bind_none]
    · rw [elemGet_eq_none hfa, Option.bind_none]

theorem setGpr_setGpr (s : State) (f : RegFile) : (s.setGpr f).setGpr = s.setGpr := rfl

/-- The element loop over a mask is the loop of the pseudocode. -/
theorem elementLoop_add (hs : intWidth .w64 es = w) (hd : intWidth .w64 ed = w) (ht : (pt.1.toNat, pt.2) = t)
    (ha : (pa.1.toNat, pa.2) = a) (hb : (pb.1.toNat, pb.2) = b) (en : Nat → Bool) (n i : Nat) (s : State) :
    elementLoop .add [⟨.gpr pa.1, pa.2⟩, ⟨.gpr pb.1, pb.2⟩] [⟨.gpr pt.1, pt.2⟩] .w64 es ed
        ((List.range' i n).map en) i s = (refLoop en w t a b n i s.gpr).map s.setGpr := by
  induction n generalizing i s with
  | zero => rfl
  | succ n ih =>
    rw [List.range'_succ, List.map_cons]
    have hvec : [(⟨.gpr pt.1, pt.2⟩ : Loc)].any Loc.isVec = t.2 := by rw [← ht]; exact Bool.or_false _
    cases hen : en i with
    | false => rw [elementLoop_disabled, refLoop_disabled hen, ih]
    | true =>
      have hop := elementOp_add hs hd ht ha hb i s
      by_cases hfit : addFits w t a b i
      · rw [if_pos hfit] at hop
        cases hv : t.2 with
        | true =>
          rw [elementLoop_enabled (hvec.trans hv), hop, Option.bind_some, ih, refLoop_enabled_vector hen hfit hv,
            State.setGpr_gpr, setGpr_setGpr]
        | false =>
          rw [elementLoop_enabled_scalar (hvec.trans hv), hop, refLoop_enabled_scalar hen hfit hv]
          rfl
      · rw [if_neg hfit] at hop
        rw [elementLoop, hop, refLoop_enabled_past_end hen hfit]
        rfl

end Model

/-! ## The instruction -/

section SvAdd

variable {rm : Rm} {rt ra rb : BitVec 5} {s : State}

/-- The loop of the pseudocode on the operands and the mask of `sv.add`. -/
def svAddLoop (rm : Rm) (rt ra rb : BitVec 5) (s : State) : Option RegFile :=
  refLoop (enabled rm s) (svWidth rm) (svRt rm rt) (svRa rm ra) (svRb rm rb) s.readVl 0 s.gpr

theorem exec_svAdd_of_form (h : svForm rm s) :
    exec (.svAdd rm rt ra rb) s = (addSuffix rt ra rb false false).execute .add rm s :=
  svAdd_run h.1 h.2.1 h.2.2.1 h.2.2.2

theorem exec_svAdd_of_zero_vl (h : svForm rm s) (hvl : s.readVl = 0) :
    exec (.svAdd rm rt ra rb) s = .next (skipped s) :=
  (exec_svAdd_of_form h).trans (svAdd_execute_zero hvl)

/-- With an executed form and a mask within its source, `sv.add` is its loop and completes or is refused with it;
with VL = 0 the loop has no iteration. -/
theorem exec_svAdd_of_maskFits (h : svForm rm s) (hmask : maskFits rm s) :
    exec (.svAdd rm rt ra rb) s = match svAddLoop rm rt ra rb s with
      | some f => .next { skipped s with gpr := f }
      | none => .refused .elementPastEnd := by
  by_cases hvl : s.readVl = 0
  · rw [exec_svAdd_of_zero_vl h hvl, svAddLoop, hvl]
    rfl
  · have hsrc : intWidth .w64 rm.elwidthSrc = svWidth rm := h.2.2.2 ▸ intWidth_eq_svWidth rm
    rw [exec_svAdd_of_form h, svAdd_execute hvl (maskRefusal_of_fits hmask), predVector_eq_enabled hmask,
      List.range_eq_range', elementLoop_add hsrc (intWidth_eq_svWidth rm) (svRt_eq rm rt) (svRa_eq rm ra)
        (svRb_eq rm rb), ← svAddLoop]
    cases svAddLoop rm rt ra rb s <;> rfl

end SvAdd

end Sys2Proof
end

section
/-!
PROOFS. The loop of the pseudocode: what it writes and leaves, element by element (43_vector_loop R199 to R201,
R209, 10_state R39, R40).
-/

namespace Sys2Proof

open Reference Machine

section Loop

variable {en : Nat → Bool} {w : Width} {t a b : Nat × Bool}

/-! ## Parts of the loop -/

/-- With a vector destination the loop is its first `n` iterations and then the others. -/
theorem refLoop_append (ht : t.2 = true) (n m i : Nat) (f : RegFile) :
    refLoop en w t a b (n + m) i f = (refLoop en w t a b n i f).bind (refLoop en w t a b m (i + n)) := by
  induction n generalizing i f with
  | zero => rw [Nat.zero_add, refLoop_zero, Option.bind_some, Nat.add_zero]
  | succ n ih =>
    rw [Nat.add_right_comm, show i + (n + 1) = i + 1 + n by omega]
    cases hen : en i with
    | false => rw [refLoop_disabled hen, refLoop_disabled hen, ih]
    | true =>
      by_cases hfit : addFits w t a b i
      · rw [refLoop_enabled_vector hen hfit ht, refLoop_enabled_vector hen hfit ht, ih]
      · rw [refLoop_enabled_past_end hen hfit, refLoop_enabled_past_end hen hfit, Option.bind_none]

/-- Disabled elements do nothing (43_vector_loop R200). -/
theorem refLoop_skip {k i : Nat} (h : ∀ j < k, en (i + j) = false) (n : Nat) (f : RegFile) :
    refLoop en w t a b (k + n) i f = refLoop en w t a b n (i + k) f := by
  induction k generalizing i with
  | zero => rw [Nat.zero_add, Nat.add_zero]
  | succ k ih =>
    have hrest : ∀ j < k, en (i + 1 + j) = false := fun j hj => by
      rw [Nat.add_assoc, Nat.add_comm 1]
      exact h (j + 1) (Nat.succ_lt_succ hj)
    have hfirst : en i = false := h 0 k.succ_pos
    rw [Nat.add_right_comm, refLoop_disabled hfirst, ih hrest, show i + (k + 1) = i + 1 + k by omega]

/-- A loop whose enabled elements lie in the file completes. -/
theorem refLoop_completes {n i : Nat} (f : RegFile) (h : ∀ j, i ≤ j → j < i + n → addFits w t a b j) :
    ∃ f', refLoop en w t a b n i f = some f' := by
  induction n generalizing i f with
  | zero => exact ⟨f, rfl⟩
  | succ n ih =>
    have hrest (f) := ih (i := i + 1) f fun j hlo hhi => h j (by omega) (by omega)
    have hfit := h i (Nat.le_refl i) (by omega)
    cases hen : en i with
    | false => rw [refLoop_disabled hen]; exact hrest f
    | true =>
      cases ht : t.2 with
      | true => rw [refLoop_enabled_vector hen hfit ht]; exact hrest _
      | false => exact ⟨_, refLoop_enabled_scalar hen hfit ht n f⟩

/-- With a vector destination one enabled element past the end refuses the whole loop (10_state R40). -/
theorem refLoop_eq_none (ht : t.2 = true) {n j : Nat} (hj : j < n) (hen : en j = true)
    (hfit : ¬ addFits w t a b j) (f : RegFile) : refLoop en w t a b n 0 f = none := by
  obtain ⟨m, rfl⟩ := Nat.exists_eq_add_of_lt hj
  have hlast (f' : RegFile) : refLoop en w t a b (m + 1) (0 + j) f' = none := by
    rw [Nat.zero_add]
    exact refLoop_enabled_past_end hen hfit m f'
  rw [Nat.add_assoc, refLoop_append ht, Option.bind_eq_none_iff]
  exact fun f' _ => hlast f'

/-! ## What the loop leaves -/

/-- The loop writes no byte outside the destination's enabled elements. -/
theorem refLoop_frame {n i m : Nat} {f f' : RegFile} (h : refLoop en w t a b n i f = some f') (hm : m < 1024)
    (hout : ∀ j, i ≤ j → j < i + n → en j = true →
      m < elemOffset t.1 (idx t j) w ∨ elemOffset t.1 (idx t j) w + w.bits / 8 ≤ m) :
    fileByte f' m = fileByte f m := by
  induction n generalizing i f with
  | zero => cases h; rfl
  | succ n ih =>
    have hrest : ∀ j, i + 1 ≤ j → j < i + 1 + n → en j = true → _ := fun j hlo hhi =>
      hout j (by omega) (by omega)
    cases hen : en i with
    | false =>
      rw [refLoop_disabled hen] at h
      exact ih h hrest
    | true =>
      have hother := fileByte_refSetElem_other (f := f)
        (v := (refElem f a.1 (idx a i) w + refElem f b.1 (idx b i) w) % 2 ^ w.bits) hm
        (hout i (Nat.le_refl i) (by omega) hen)
      by_cases hfit : addFits w t a b i
      · cases ht : t.2 with
        | true =>
          rw [refLoop_enabled_vector hen hfit ht] at h
          exact (ih h hrest).trans hother
        | false =>
          rw [refLoop_enabled_scalar hen hfit ht] at h
          exact Option.some.inj h ▸ hother
      · rw [refLoop_enabled_past_end hen hfit] at h
        cases h

/-! ## What the loop writes -/

theorem elemOffset_succ_le {g e e' : Nat} {w : Width} (h : e < e') :
    elemOffset g e w + w.bits / 8 ≤ elemOffset g e' w := by
  cases w <;> simp only [elemOffset, Width.bits] <;> omega

theorem idx_vector {p : Nat × Bool} (h : p.2 = true) (i : Nat) : idx p i = i := if_pos h

theorem idx_scalar {p : Nat × Bool} (h : p.2 = false) (i : Nat) : idx p i = 0 := by rw [idx, h]; rfl

/-- No earlier iteration of a vector destination `t` has written a byte of the operand's element `i`. -/
abbrev ReadsOriginal (w : Width) (t p : Nat × Bool) (i : Nat) : Prop :=
  elemOffset p.1 (idx p i) w + w.bits / 8 ≤ elemOffset t.1 0 w ∨
    elemOffset t.1 i w ≤ elemOffset p.1 (idx p i) w

/-- What the first `n` iterations leave in file `f'`, where no source has been written before it is read. -/
structure LoopResult (en : Nat → Bool) (w : Width) (t a b : Nat × Bool) (n : Nat) (f f' : RegFile) : Prop where
  enabled : ∀ i < n, en i = true → refElem f' t.1 i w =
    (refElem f a.1 (idx a i) w + refElem f b.1 (idx b i) w) % 2 ^ w.bits
  disabled : ∀ i < n, en i = false → refElem f' t.1 i w = refElem f t.1 i w
  other : ∀ m < 1024, m < elemOffset t.1 0 w ∨ elemOffset t.1 n w ≤ m → fileByte f' m = fileByte f m

/-- One more iteration, whose element is disabled. -/
theorem LoopResult.snoc_disabled {n : Nat} {f f' : RegFile} (h : LoopResult en w t a b n f f')
    (hen : en n = false) (hfit : inFile t.1 n w) : LoopResult en w t a b (n + 1) f f' where
  enabled i hi he := by
    obtain hlt | rfl := Nat.lt_succ_iff_lt_or_eq.mp hi
    · exact h.enabled i hlt he
    · rw [hen] at he; cases he
  disabled i hi he := by
    obtain hlt | rfl := Nat.lt_succ_iff_lt_or_eq.mp hi
    · exact h.disabled i hlt he
    · exact refElem_congr fun k hk => h.other _ (by omega) (.inr (by omega))
  other m hm hout := h.other m hm (by
    have := elemOffset_succ_le (g := t.1) (w := w) (Nat.lt_add_one n)
    omega)

/-- One more iteration, whose element is enabled. -/
theorem LoopResult.snoc_enabled {n : Nat} {f f' : RegFile} (h : LoopResult en w t a b n f f') (ht : t.2 = true)
    (hen : en n = true) (hfit : addFits w t a b n) (hdests : ∀ i < n, inFile t.1 i w)
    (ha : ReadsOriginal w t a n) (hb : ReadsOriginal w t b n) :
    LoopResult en w t a b (n + 1) f (addElem w t a b n f') := by
  obtain ⟨hfa, hfb, hft⟩ := hfit
  rw [idx_vector ht] at hft
  have hsa : refElem f' a.1 (idx a n) w = refElem f a.1 (idx a n) w :=
    refElem_congr fun k hk => h.other _ (by omega) (by omega)
  have hsb : refElem f' b.1 (idx b n) w = refElem f b.1 (idx b n) w :=
    refElem_congr fun k hk => h.other _ (by omega) (by omega)
  have before {i : Nat} (hi : i < n) : refElem (addElem w t a b n f') t.1 i w = refElem f' t.1 i w := by
    rw [addElem, idx_vector ht]
    exact refElem_refSetElem_other (hdests i hi) (.inl (elemOffset_succ_le hi))
  refine ⟨fun i hi he => ?_, fun i hi he => ?_, fun m hm hout => ?_⟩
  · obtain hlt | rfl := Nat.lt_succ_iff_lt_or_eq.mp hi
    · rw [before hlt, h.enabled i hlt he]
    · rw [addElem, idx_vector ht, refElem_refSetElem_same _ hft, hsa, hsb, Nat.mod_mod]
  · obtain hlt | rfl := Nat.lt_succ_iff_lt_or_eq.mp hi
    · rw [before hlt, h.disabled i hlt he]
    · rw [hen] at he; cases he
  · have hstart := elemOffset_succ_le (g := t.1) (w := w) (Nat.lt_add_one n)
    have hzero : elemOffset t.1 0 w ≤ elemOffset t.1 n w := by
      simp only [elemOffset, Nat.zero_mul]
      omega
    rw [addElem, idx_vector ht, fileByte_refSetElem_other hm (by omega), h.other m hm (by omega)]

/-- The loop on a vector destination, where no source is written before it is read: enabled elements are sums of
the elements before the loop, the others are kept. -/
theorem refLoop_result (ht : t.2 = true) {n : Nat} (f : RegFile) (hfit : ∀ i < n, addFits w t a b i)
    (ha : ∀ i < n, ReadsOriginal w t a i) (hb : ∀ i < n, ReadsOriginal w t b i) :
    ∃ f', refLoop en w t a b n 0 f = some f' ∧ LoopResult en w t a b n f f' := by
  induction n with
  | zero => exact ⟨f, rfl, ⟨nofun, nofun, fun _ _ _ => rfl⟩⟩
  | succ n ih =>
    have lower {P : Nat → Prop} (h : ∀ i < n + 1, P i) : ∀ i < n, P i := fun i hi => h i (Nat.lt_succ_of_lt hi)
    obtain ⟨f', hloop, hres⟩ := ih (lower hfit) (lower ha) (lower hb)
    have hdest (i : Nat) (hi : i < n + 1) : inFile t.1 i w := idx_vector ht i ▸ (hfit i hi).2.2
    have hlast : refLoop en w t a b (n + 1) 0 f = refLoop en w t a b 1 n f' := by
      rw [refLoop_append ht, hloop, Option.bind_some, Nat.zero_add]
    rw [hlast]
    cases hen : en n with
    | false =>
      exact ⟨f', by rw [refLoop_disabled hen, refLoop_zero], hres.snoc_disabled hen (hdest n n.lt_add_one)⟩
    | true =>
      have hfitn := hfit n n.lt_add_one
      exact ⟨_, by rw [refLoop_enabled_vector hen hfitn ht, refLoop_zero],
        hres.snoc_enabled ht hen hfitn (lower hdest) (ha n n.lt_add_one) (hb n n.lt_add_one)⟩

/-- At 64 bits an iteration is one register sum. -/
theorem addElem_w64 {i : Nat} {f : RegFile} (ht : t.1 + idx t i < 128) (ha : a.1 + idx a i < 128)
    (hb : b.1 + idx b i < 128) :
    addElem .w64 t a b i f = f.set (t.1 + idx t i) (f[a.1 + idx a i] + f[b.1 + idx b i]) := by
  rw [addElem, refElem_w64 ha, refElem_w64 hb, show Width.w64.bits = 64 from rfl, ← BitVec.toNat_add,
    refSetElem_w64 _ ht]

/-- A destination one register above its source: each iteration doubles what the one before has written (R209). -/
theorem refLoop_doubles (hen : ∀ i, en i = true) {g : Nat} (f : RegFile) {n : Nat} (h : g + n < 128) :
    ∃ f', refLoop en .w64 (g + 1, true) (g, true) (g, true) n 0 f = some f' ∧
      ∀ k, (hk : k ≤ n) → f'[g + k].toNat = 2 ^ k * f[g].toNat % 2 ^ 64 := by
  induction n with
  | zero =>
    refine ⟨f, rfl, fun k hk => ?_⟩
    obtain rfl := Nat.le_zero.mp hk
    rw [Nat.pow_zero, Nat.one_mul, Nat.mod_eq_of_lt f[g].isLt]
    rfl
  | succ n ih =>
    obtain ⟨f', hloop, hk⟩ := ih (by omega)
    have hdest : g + 1 + n < 128 := by omega
    have hsrc : g + n < 128 := by omega
    have hfit : addFits .w64 (g + 1, true) (g, true) (g, true) n :=
      ⟨inFile_w64.mpr hsrc, inFile_w64.mpr hsrc, inFile_w64.mpr hdest⟩
    refine ⟨f'.set (g + 1 + n) (f'[g + n] + f'[g + n]), ?_, fun k hk' => ?_⟩
    · rw [refLoop_append rfl, hloop, Option.bind_some, Nat.zero_add, refLoop_enabled_vector (hen n) hfit rfl,
        refLoop_zero]
      exact congrArg some (addElem_w64 hdest hsrc hsrc)
    · rw [Vector.getElem_set]
      split_ifs with hlast
      · obtain rfl : k = n + 1 := by omega
        rw [BitVec.toNat_add, hk n n.le_refl, ← Nat.add_mod, ← Nat.two_mul, ← Nat.mul_assoc, ← Nat.pow_succ']
      · exact hk k (by omega)

end Loop

end Sys2Proof
end

section
/-!
PROOFS. The obligations about `add` and `sv.add` (43_vector_loop R193, R194, R199 to R201, R208 to R210), from the
loop of the pseudocode.
-/

namespace Sys2Proof

open Reference Machine

/-! ## What `sv.add` answers -/

section SvAdd

variable {rm : Rm} {rt ra rb : BitVec 5} {s : State}

/-- A mask with VL above its source is refused by name before the loop. -/
theorem exec_svAdd_of_maskRefusal {r : Refusal} (h : svForm rm s) (hvl : s.readVl ≠ 0)
    (hr : maskRefusal rm.maskmode rm.mask s.readVl = some r) : exec (.svAdd rm rt ra rb) s = .refused r := by
  rw [exec_svAdd_of_form h, Suffix.execute]
  simp only [hvl, if_false, hr]

/-- A mask that reaches past its source has elements to reach with. -/
theorem vl_ne_zero_of_not_maskFits (h : ¬ maskFits rm s) : s.readVl ≠ 0 := fun h0 =>
  h ⟨fun _ _ => by rw [h0]; exact Nat.zero_le _, fun _ => by rw [h0]; exact Nat.zero_le _⟩

theorem exec_svAdd_of_loop {f : RegFile} (h : svForm rm s) (hmask : maskFits rm s)
    (hloop : svAddLoop rm rt ra rb s = some f) :
    exec (.svAdd rm rt ra rb) s = .next { skipped s with gpr := f } := by
  rw [exec_svAdd_of_maskFits h hmask, hloop]

/-- All that `sv.add` can answer: a refusal, or its loop's file with pc past both words. -/
theorem exec_svAdd_cases (rm : Rm) (rt ra rb : BitVec 5) (s : State) :
    (∃ r, exec (.svAdd rm rt ra rb) s = .refused r) ∨
    ∃ f, svAddLoop rm rt ra rb s = some f ∧ exec (.svAdd rm rt ra rb) s = .next { skipped s with gpr := f } := by
  by_cases hform : svForm rm s
  · by_cases hmask : maskFits rm s
    · cases hloop : svAddLoop rm rt ra rb s with
      | none => exact .inl ⟨_, by rw [exec_svAdd_of_maskFits hform hmask, hloop]⟩
      | some f => exact .inr ⟨f, rfl, exec_svAdd_of_loop hform hmask hloop⟩
    · obtain ⟨-, hr⟩ | ⟨-, hr⟩ := maskRefusal_of_not_fits hmask
      · exact .inl ⟨_, exec_svAdd_of_maskRefusal hform (vl_ne_zero_of_not_maskFits hmask) hr⟩
      · exact .inl ⟨_, exec_svAdd_of_maskRefusal hform (vl_ne_zero_of_not_maskFits hmask) hr⟩
  · exact .inl (svAdd_refused hform)

/-- `sv.add` whose operands lie in the file completes (43_vector_loop R208). -/
theorem exec_svAdd_completes (h : svForm rm s) (hmask : maskFits rm s) (ht : operandFits (svRt rm rt) rm s)
    (ha : operandFits (svRa rm ra) rm s) (hb : operandFits (svRb rm rb) rm s) :
    ∃ t, exec (.svAdd rm rt ra rb) s = .next t ∧ t.pc = s.pc + 8 ∧ t.hart = s.hart := by
  have hfit (j : Nat) (hj : j < s.readVl) : addFits (svWidth rm) (svRt rm rt) (svRa rm ra) (svRb rm rb) j :=
    ⟨ha j hj, hb j hj, ht j hj⟩
  obtain ⟨f, hloop⟩ := refLoop_completes (en := enabled rm s) (n := s.readVl) (i := 0) s.gpr
    fun j _ hj => hfit j (by omega)
  exact ⟨_, exec_svAdd_of_loop h hmask hloop, rfl, rfl⟩

/-! ## Masks and registers -/

theorem maskFits_of_short_mask (hmode : rm.maskmode = .int) (hm : rm.mask.toNat < 2) : maskFits rm s :=
  ⟨fun _ h => absurd h (Nat.not_le.mpr hm), fun h => by rw [hmode] at h; cases h⟩

/-- The mask 0b000 enables every element (R133). -/
theorem enabled_of_zero_mask (hmode : rm.maskmode = .int) (hm : rm.mask = 0) (i : Nat) : enabled rm s i = true := by
  rw [← predicate_int hmode, hm]
  rfl

/-- The mask 0b001 enables the element that r3 numbers (R133, R135). -/
theorem enabled_of_one_hot (hmode : rm.maskmode = .int) (hm : rm.mask = 1) (i : Nat) :
    enabled rm s i = (i == s.gpr[3].toNat) := by
  rw [← predicate_int hmode, hm]
  rfl

/-- A register number of `sv.add` is one of the file's. -/
theorem refReg_lt (f : BitVec 5) (e : BitVec 3) : (refReg f e).1 < 128 := by
  rw [← decodeReg_eq_refReg]
  exact (decodeReg f e).1.isLt

/-- An `RM` of zeros leaves the operands the registers of their fields (R194). -/
theorem refReg_zero (f : BitVec 5) : refReg f 0 = (f.toNat, false) := by simp [refReg]

theorem svRt_zero (rt : BitVec 5) : svRt (Rm.ofBits 0) rt = (rt.toNat, false) := refReg_zero rt

theorem svRa_zero (ra : BitVec 5) : svRa (Rm.ofBits 0) ra = (ra.toNat, false) := refReg_zero ra

theorem svRb_zero (rb : BitVec 5) : svRb (Rm.ofBits 0) rb = (rb.toNat, false) := refReg_zero rb

/-- A scalar operand lies in the file, whatever the width. -/
theorem inFile_of_scalar {g : Nat} (h : g < 128) (w : Width) : inFile g 0 w := by
  rw [inFile_iff, Nat.zero_div, Nat.add_zero]
  exact h

/-- A vector source that does not start below the destination it overlaps is read before it is written. -/
theorem readsOriginal_of_vector {t p : Nat × Bool} (hp : p.2 = true) (h : noFeedForward t p rm s) {i : Nat}
    (hi : i < s.readVl) : ReadsOriginal (svWidth rm) t p i := by
  have hle := Nat.mul_le_mul_right ((svWidth rm).bits / 8) (Nat.succ_le_of_lt hi)
  rw [Nat.succ_mul] at hle
  simp only [ReadsOriginal, idx_vector hp, elemOffset]
  omega

/-- A scalar source outside the destination is never written. -/
theorem readsOriginal_of_scalar {t p : Nat × Bool} (hp : p.2 = false)
    (h : p.1 < t.1 ∨ 8 * t.1 + s.readVl * ((svWidth rm).bits / 8) ≤ 8 * p.1) {i : Nat} (hi : i < s.readVl) :
    ReadsOriginal (svWidth rm) t p i := by
  have hle := Nat.mul_le_mul_right ((svWidth rm).bits / 8) (Nat.le_of_lt hi)
  have hbytes : (svWidth rm).bits / 8 ≤ 8 := by cases svWidth rm <;> decide
  simp only [ReadsOriginal, idx_scalar hp, elemOffset]
  omega

end SvAdd

/-! ## The registers after `add` -/

/-- The state the unprefixed `add` leaves (43_vector_loop R210). -/
def addState (rt ra rb : BitVec 5) (s : State) : State := (s.setGpr5 rt (s.gpr5 ra + s.gpr5 rb)).advance 4

theorem exec_add (rt ra rb : BitVec 5) (s : State) : exec (.add rt ra rb) s = .next (addState rt ra rb s) := rfl

theorem addState_gpr (rt ra rb : BitVec 5) (s : State) {r : Nat} (hr : r < 128) :
    (addState rt ra rb s).gpr[r] = if r = rt.toNat then s.gpr[ra.toNat] + s.gpr[rb.toNat] else s.gpr[r] := by
  change (s.gpr.set rt.toNat _)[r] = _
  rw [Vector.getElem_set]
  simp only [eq_comm (a := rt.toNat)]
  rfl

/-! ## The obligations about `add` -/

/-- Settles O17: the sum replaces one register, and the instruction advances by 4. -/
theorem addResult : Obligations.AddResult := by
  unfold Obligations.AddResult
  intro rt ra rb s
  refine ⟨_, exec_add rt ra rb s, fun r => ?_, rfl, ⟨rfl, rfl, rfl, rfl, rfl, rfl⟩, rfl, State.advance_time _ 4⟩
  have hsum (x y : Word) : x + y = BitVec.ofNat 64 ((x.toNat + y.toNat) % 2 ^ 64) := by
    rw [← BitVec.toNat_add, BitVec.ofNat_toNat, BitVec.setWidth_eq]
  exact (addState_gpr rt ra rb s r.isLt).trans (by rw [hsum]; rfl)

/-- Settles O18: all three registers are below r32. -/
theorem addUsesLowRegistersOnly : Obligations.AddUsesLowRegistersOnly := by
  unfold Obligations.AddUsesLowRegistersOnly
  rintro rt ra rb s s' t t' hlow hpc ⟨⟩ ⟨⟩
  have low (r : Nat) (hr : r < 32) : s'.gpr[r] = s.gpr[r] := hlow ⟨r, hr⟩
  refine ⟨fun r => ?low, ?pc, fun r hr => ⟨?high, ?high'⟩⟩
  case low =>
    refine (addState_gpr rt ra rb s' (by omega)).trans (.trans ?_ (addState_gpr rt ra rb s (by omega)).symm)
    rw [low _ ra.isLt, low _ rb.isLt, low _ r.isLt]
  case pc => exact congrArg (· + 4) hpc
  case high => exact (addState_gpr rt ra rb s r.isLt).trans (if_neg (by omega))
  case high' => exact (addState_gpr rt ra rb s' r.isLt).trans (if_neg (by omega))

/-! ## The obligations about `sv.add` -/

/-- Settles O16: step 6 lets the form pass, and the mask is looked at next. -/
theorem maskPastItsSourceRefused : Obligations.MaskPastItsSourceRefused := by
  unfold Obligations.MaskPastItsSourceRefused
  intro rm rt ra rb s h hmask
  have hvl := vl_ne_zero_of_not_maskFits hmask
  obtain ⟨hmode, hr⟩ | ⟨hmode, hr⟩ := maskRefusal_of_not_fits hmask
  · exact .inl ⟨exec_svAdd_of_maskRefusal h hvl hr, hmode⟩
  · exact .inr ⟨exec_svAdd_of_maskRefusal h hvl hr, hmode⟩

/-- Settles O19: the model's loop is the pseudocode's, and the checks before it are in the same order. -/
theorem svAddIsItsPseudocode : Obligations.SvAddIsItsPseudocode := by
  unfold Obligations.SvAddIsItsPseudocode
  intro rm rt ra rb s
  unfold refSvAdd
  by_cases hform : svForm rm s
  · rw [if_pos hform]
    by_cases hvl : s.readVl = 0
    · rw [if_pos hvl]
      exact ⟨nofun, fun t ht => Option.some.inj ht ▸ exec_svAdd_of_zero_vl hform hvl⟩
    · rw [if_neg hvl]
      by_cases hmask : maskFits rm s
      · rw [if_pos hmask, ← svAddLoop, exec_svAdd_of_maskFits hform hmask]
        cases svAddLoop rm rt ra rb s with
        | none => exact ⟨fun _ => ⟨_, rfl⟩, nofun⟩
        | some f => exact ⟨nofun, fun t ht => congrArg _ (Option.some.inj ht)⟩
      · rw [if_neg hmask]
        obtain ⟨-, hr⟩ | ⟨-, hr⟩ := maskRefusal_of_not_fits hmask <;>
          exact ⟨fun _ => ⟨_, exec_svAdd_of_maskRefusal hform hvl hr⟩, nofun⟩
  · rw [if_neg hform]
    exact ⟨fun _ => svAdd_refused hform, nofun⟩

/-- Settles O20: no iteration meets an element past the end. -/
theorem svAddCompletes : Obligations.SvAddCompletes := by
  unfold Obligations.SvAddCompletes
  exact fun rm rt ra rb s => exec_svAdd_completes

/-- Settles O21: the one iteration at 64 bits is the sum of two whole registers below r32. -/
theorem scalarIdentity : Obligations.ScalarIdentity := by
  unfold Obligations.ScalarIdentity
  intro rt ra rb s hvl hpc
  have hform : svForm (Rm.ofBits 0) s := ⟨hpc, rfl, rfl, rfl⟩
  have hlow (f : BitVec 5) : f.toNat + idx (f.toNat, false) 0 < 128 := by
    rw [idx_scalar rfl]
    omega
  have hloop : svAddLoop (Rm.ofBits 0) rt ra rb s =
      some (addElem .w64 (rt.toNat, false) (ra.toNat, false) (rb.toNat, false) 0 s.gpr) := by
    have hfit : addFits .w64 (rt.toNat, false) (ra.toNat, false) (rb.toNat, false) 0 :=
      ⟨inFile_w64.mpr (hlow ra), inFile_w64.mpr (hlow rb), inFile_w64.mpr (hlow rt)⟩
    have hen := enabled_of_zero_mask (s := s) (rm := Rm.ofBits 0) rfl rfl 0
    rw [svAddLoop, hvl, svRt_zero, svRa_zero, svRb_zero]
    exact refLoop_enabled_scalar hen hfit rfl 0 s.gpr
  rw [addElem_w64 (hlow rt) (hlow ra) (hlow rb)] at hloop
  exact ⟨_, exec_add rt ra rb s, exec_svAdd_of_loop hform (maskFits_of_short_mask rfl (by decide)) hloop⟩

/-- Settles O22: with VL = 0 the loop is not entered. -/
theorem zeroVlIsNoop : Obligations.ZeroVlIsNoop := by
  unfold Obligations.ZeroVlIsNoop
  exact fun rm rt ra rb s => exec_svAdd_of_zero_vl

/-- Settles O23: with equal tags element `i` is read before a later iteration can write it. -/
theorem allVectorAdd : Obligations.AllVectorAdd := by
  unfold Obligations.AllVectorAdd
  intro rm rt ra rb s hform hmode hm ht ha hb hft hfa hfb hna hnb
  obtain ⟨f, hloop, hres⟩ := refLoop_result (en := enabled rm s) ht s.gpr
    (fun i hi => ⟨hfa i hi, hfb i hi, hft i hi⟩) (fun i hi => readsOriginal_of_vector ha hna hi)
    (fun i hi => readsOriginal_of_vector hb hnb hi)
  refine ⟨_, exec_svAdd_of_loop hform (maskFits_of_short_mask hmode (by rw [hm]; decide)) hloop, fun i hi => ?_⟩
  have hsum := hres.enabled i hi (enabled_of_zero_mask hmode hm i)
  rwa [idx_vector ha, idx_vector hb] at hsum

/-- Settles O24: the loop's frame, and an update of pc and the GPR file. -/
theorem svAddFrame : Obligations.SvAddFrame := by
  unfold Obligations.SvAddFrame
  intro rm rt ra rb s t h
  obtain ⟨r, hr⟩ | ⟨f, hloop, hnext⟩ := exec_svAdd_cases rm rt ra rb s
  · rw [hr] at h
    cases h
  · obtain rfl : _ = t := Host.Outcome.next.inj (hnext.symm.trans h)
    refine ⟨fun n hn hout => ?_, ⟨rfl, rfl, rfl, rfl, rfl, rfl⟩, rfl, rfl, rfl⟩
    exact refLoop_frame hloop hn fun j _ hj hen => hout j (Nat.zero_add s.readVl ▸ hj) hen

/-- Settles O25: the sources are outside the destination, and the mask is that of the state before. -/
theorem maskIsReadBeforeTheLoop : Obligations.MaskIsReadBeforeTheLoop := by
  unfold Obligations.MaskIsReadBeforeTheLoop
  intro rm rt ra rb s hform hmask ht ha hb hft hna hnb
  have hfit (p : Nat × Bool) (hp : p.2 = false) (hlt : p.1 < 128) (i : Nat) : inFile p.1 (idx p i) (svWidth rm) :=
    idx_scalar hp i ▸ inFile_of_scalar hlt (svWidth rm)
  obtain ⟨f, hloop, hres⟩ := refLoop_result (en := enabled rm s) ht s.gpr
    (fun i hi => ⟨hfit _ ha (refReg_lt ra _) i, hfit _ hb (refReg_lt rb _) i, hft i hi⟩)
    (fun i hi => readsOriginal_of_scalar ha hna hi) (fun i hi => readsOriginal_of_scalar hb hnb hi)
  refine ⟨_, exec_svAdd_of_loop hform hmask hloop, fun i hi => ⟨fun hen => ?_, hres.disabled i hi⟩⟩
  have hsum := hres.enabled i hi hen
  rwa [idx_scalar ha, idx_scalar hb] at hsum

/-- Settles O26: the disabled elements are skipped, and the first enabled one ends the loop. -/
theorem scalarDestinationTakesFirstEnabled : Obligations.ScalarDestinationTakesFirstEnabled := by
  unfold Obligations.ScalarDestinationTakesFirstEnabled
  intro rm rt ra rb s k hform hmask ht hk hen hdis hfa hfb
  have hft : inFile (svRt rm rt).1 0 (svWidth rm) := inFile_of_scalar (refReg_lt rt _) _
  obtain ⟨m, hvl⟩ := Nat.exists_eq_add_of_lt hk
  have hloop : svAddLoop rm rt ra rb s =
      some (addElem (svWidth rm) (svRt rm rt) (svRa rm ra) (svRb rm rb) k s.gpr) := by
    rw [svAddLoop, hvl, Nat.add_assoc, refLoop_skip (fun j hj => (Nat.zero_add j).symm ▸ hdis j hj), Nat.zero_add]
    exact refLoop_enabled_scalar hen ⟨hfa, hfb, (idx_scalar ht k).symm ▸ hft⟩ ht m s.gpr
  refine ⟨_, exec_svAdd_of_loop hform hmask hloop, ?_⟩
  rw [addElem, idx_scalar ht, refElem_refSetElem_same _ hft, Nat.mod_mod]

/-- Settles O27: the one element the mask enables is none of the loop's. -/
theorem oneHotBeyondVlChangesNothing : Obligations.OneHotBeyondVlChangesNothing := by
  unfold Obligations.OneHotBeyondVlChangesNothing
  intro rm rt ra rb s hform hmode hm hr3
  have hloop : svAddLoop rm rt ra rb s = some s.gpr := by
    refine refLoop_skip (n := 0) (fun j hj => ?_) s.gpr
    have hj : j < s.readVl := hj
    rw [Nat.zero_add, enabled_of_one_hot hmode hm, beq_eq_false_iff_ne]
    omega
  exact exec_svAdd_of_loop hform (maskFits_of_short_mask hmode (by rw [hm]; decide)) hloop

/-- Settles O28: each iteration doubles the register the one before has written. -/
theorem overlapFeedsForward : Obligations.OverlapFeedsForward := by
  unfold Obligations.OverlapFeedsForward
  intro rm rt ra rb s g hform hmode hm hw ht ha hb h
  obtain ⟨f, hloop, hdouble⟩ := refLoop_doubles (enabled_of_zero_mask (s := s) hmode hm) s.gpr h
  have hwidth : svWidth rm = .w64 := by rw [svWidth, hw]; rfl
  have hloop : svAddLoop rm rt ra rb s = some f := by rw [svAddLoop, hwidth, ht, ha, hb, hloop]
  exact ⟨_, exec_svAdd_of_loop hform (maskFits_of_short_mask hmode (by rw [hm]; decide)) hloop, hdouble⟩

/-- Settles O29: a vector destination lets the loop come to every enabled element. -/
theorem elementPastEndRefused : Obligations.ElementPastEndRefused := by
  unfold Obligations.ElementPastEndRefused
  intro rm rt ra rb s i hform hmask ht hi hen hout
  have hloop : svAddLoop rm rt ra rb s = none := by
    refine refLoop_eq_none ht hi hen (fun ⟨hfa, hfb, hft⟩ => ?_) s.gpr
    rw [idx_vector ht] at hft
    tauto
  rw [exec_svAdd_of_maskFits hform hmask, hloop]

/-- Settles O30: no answer of `sv.add` is a fault, and the hart's condition is not written. -/
theorem svAddNeverTraps : Obligations.SvAddNeverTraps := by
  unfold Obligations.SvAddNeverTraps
  intro rm rt ra rb s
  obtain ⟨r, hr⟩ | ⟨f, -, hnext⟩ := exec_svAdd_cases rm rt ra rb s
  · rw [hr]
    exact ⟨nofun, nofun⟩
  · rw [hnext]
    exact ⟨fun t ht => Host.Outcome.next.inj ht ▸ rfl, nofun⟩

/-- Settles O31: the row of `add` describes the word of `sv.add`. -/
theorem suffixAddIsSvAdd : Obligations.SuffixAddIsSvAdd := by
  unfold Obligations.SuffixAddIsSvAdd
  intro rm rt ra rb s
  have heq : exec (.svSuffix rm (addWord rt ra rb 0#1 0#1)) s = exec (.svAdd rm rt ra rb) s :=
    exec_svSuffix_of_row (suffixTable_addWord rt ra rb 0#1 0#1)
  exact ⟨heq, fun hform hmask ht ha hb => heq ▸ exec_svAdd_completes hform hmask ht ha hb⟩

end Sys2Proof
end

section
/-!
PROOFS. A CR predicate is never overwritten by its own loop (41_predication R145): what the loop writes of the CR
file, when it completes, and which answer comes first (60_exceptions R226).
-/

namespace Sys2Proof

open Reference Machine

/-! ## Whether an operand lies in its file does not depend on the state -/

/-- The element of an operand at iteration `i` lies in its file (10_state R40). -/
def locInFile (l : Loc) (w : Width) (i : Nat) : Bool :=
  match l.place with
  | .gpr n | .fpr n => n.toNat + l.index i / w.per < 128
  | .crField n => n.toNat + l.index i < 128
  | .crBit n => n.toNat / 4 + l.index i < 128

theorem readLoc_isSome (s : State) (l : Loc) (w : Width) (i : Nat) :
    (s.readLoc l w i).isSome = locInFile l w i := by
  rw [Bool.eq_iff_iff]
  cases h : l.place with
  | gpr n | fpr n => simp [State.readLoc, locInFile, h, elemGet_isSome]
  | crField n | crBit n => simp [State.readLoc, locInFile, h]

theorem writeLoc_isSome (s : State) (l : Loc) (w : Width) (i : Nat) (v : Word) :
    (s.writeLoc l w i v).isSome = locInFile l w i := by
  rw [Bool.eq_iff_iff]
  cases h : l.place with
  | gpr n | fpr n => simp [State.writeLoc, locInFile, h, elemSet_isSome]
  | crField n | crBit n =>
    simp only [State.writeLoc, locInFile, h]
    split <;> simp [*]

section Locs

variable {ls : List Loc} {d : Width} {ew : BitVec 2} {i : Nat}

theorem readLocs_isSome (s : State) :
    (s.readLocs ls d ew i).isSome = true ↔ ∀ l ∈ ls, locInFile l (l.width d ew) i = true := by
  induction ls with
  | nil => simp [State.readLocs]
  | cons l ls ih =>
    rw [List.forall_mem_cons, ← ih, ← readLoc_isSome s, State.readLocs]
    cases s.readLoc l (l.width d ew) i <;> cases s.readLocs ls d ew i <;> simp

theorem writeLocs_isSome (s : State) (vs : List Word) (h : ∀ l ∈ ls, locInFile l (l.width d ew) i = true) :
    (s.writeLocs ls d ew i vs).isSome = true := by
  induction ls generalizing s vs with
  | nil => rfl
  | cons l ls ih =>
    cases vs with
    | nil => rfl
    | cons v vs =>
      obtain ⟨hl, hls⟩ := List.forall_mem_cons.mp h
      obtain ⟨s', hs'⟩ := Option.isSome_iff_exists.mp ((writeLoc_isSome s l _ i v).trans hl)
      rw [State.writeLocs, hs']
      exact ih s' vs hls

end Locs

/-! ## The loop -/

section Loop

variable {op : ElementOp} {srcs dsts : List Loc} {d : Width} {es ed : BitVec 2}

theorem elementOp_isSome {i : Nat} (s : State) (hsrc : ∀ l ∈ srcs, locInFile l (l.width d es) i = true)
    (hdst : ∀ l ∈ dsts, locInFile l (l.width d ed) i = true) :
    (elementOp op srcs dsts d es ed i s).isSome = true := by
  obtain ⟨vs, hvs⟩ := Option.isSome_iff_exists.mp ((readLocs_isSome s).mpr hsrc)
  rw [elementOp, hvs]
  exact writeLocs_isSome s _ hdst

/-- A source past the end of its file leaves the element operation without a result. -/
theorem elementOp_eq_none {i : Nat} (s : State) (hsrc : ¬ ∀ l ∈ srcs, locInFile l (l.width d es) i = true) :
    elementOp op srcs dsts d es ed i s = none := by
  rw [← readLocs_isSome s, Bool.not_eq_true, Option.isSome_eq_false_iff, Option.isNone_iff_eq_none] at hsrc
  rw [elementOp, hsrc]

/-- A loop whose enabled elements lie in their files completes. -/
theorem elementLoop_isSome {dm : List Bool} {i : Nat} (s : State)
    (h : ∀ k, dm[k]? = some true → (∀ l ∈ srcs, locInFile l (l.width d es) (i + k) = true) ∧
      ∀ l ∈ dsts, locInFile l (l.width d ed) (i + k) = true) :
    (elementLoop op srcs dsts d es ed dm i s).isSome = true := by
  induction dm generalizing i s with
  | nil => rfl
  | cons b dm ih =>
    have hrest : ∀ k, dm[k]? = some true → (∀ l ∈ srcs, locInFile l (l.width d es) (i + 1 + k) = true) ∧
        ∀ l ∈ dsts, locInFile l (l.width d ed) (i + 1 + k) = true := fun k hk => by
      rw [Nat.add_right_comm]
      exact h (k + 1) hk
    cases b with
    | false => exact ih s hrest
    | true =>
      obtain ⟨hsrc, hdst⟩ := h 0 rfl
      obtain ⟨s', hs'⟩ := Option.isSome_iff_exists.mp (elementOp_isSome (op := op) s hsrc hdst)
      rw [Nat.add_zero] at hs'
      rw [elementLoop, hs']
      dsimp only
      split
      · exact ih s' hrest
      · rfl

/-- The loop ends without a result at a first enabled element that has none. -/
theorem elementLoop_eq_none {dm : List Bool} {k i : Nat} {s : State} (hk : dm[k]? = some true)
    (hdis : ∀ j < k, dm[j]? = some false) (hop : elementOp op srcs dsts d es ed (i + k) s = none) :
    elementLoop op srcs dsts d es ed dm i s = none := by
  induction k generalizing dm i with
  | zero =>
    obtain ⟨dm', rfl⟩ : ∃ dm', dm = true :: dm' := by
      cases dm with
      | nil => cases hk
      | cons b dm' => exact ⟨dm', by simpa using hk⟩
    rw [elementLoop, ← Nat.add_zero i, hop]
  | succ k ih =>
    obtain ⟨dm', rfl⟩ : ∃ dm', dm = false :: dm' := by
      cases dm with
      | nil => cases hk
      | cons b dm' => exact ⟨dm', by simpa using hdis 0 k.succ_pos⟩
    rw [elementLoop_disabled]
    refine ih (by simpa using hk) (fun j hj => by simpa using hdis (j + 1) (by omega)) ?_
    rwa [Nat.add_right_comm]

/-- An enabled element writes a CR field of the mask's own (R145). -/
theorem writesPredicate_iff {dm : List Bool} : writesPredicate dsts dm = true ↔
    ∃ i, dm[i]? = some true ∧ ∃ l ∈ dsts, ∃ c, l.crIndex i = some c ∧ 32 ≤ c ∧ c < 32 + dm.length := by
  simp only [writesPredicate, List.any_eq_true, List.mem_range, Bool.and_eq_true, beq_iff_eq]
  constructor
  · rintro ⟨i, -, hi, l, hl, hw⟩
    cases hc : l.crIndex i with
    | none => simp [hc] at hw
    | some c => exact ⟨i, hi, l, hl, c, hc, by simpa [hc] using hw⟩
  · rintro ⟨i, hi, l, hl, c, hc, hlo, hhi⟩
    exact ⟨i, (List.getElem?_eq_some_iff.mp hi).1, hi, l, hl, by simp [hc, hlo, hhi]⟩

/-- Writing one operand leaves every CR field but the operand's. -/
theorem writeLoc_crf {s t : State} {l : Loc} {w : Width} {i k : Nat} {v : Word}
    (h : s.writeLoc l w i v = some t) (hk : l.crIndex i ≠ some k) : t.crf[k]? = s.crf[k]? := by
  obtain ⟨n, f, -, -, rfl⟩ | ⟨n, f, -, -, rfl⟩ | ⟨c, x, hc, hlt, rfl⟩ := writeLoc_cases h
  · rfl
  · rfl
  · have hne : c ≠ k := fun e => hk (e ▸ hc)
    rw [State.setCrf_crf, Vector.getElem?_set_ne hlt hne]

/-- A loop that overwrites no field of its predicate leaves them all (R145). -/
theorem elementLoop_keeps_predicate {dm : List Bool} {s t : State} (hw : writesPredicate dsts dm = false)
    (h : elementLoop op srcs dsts d es ed dm 0 s = some t) {k : Nat} (hk : k < dm.length) :
    t.crf[32 + k]? = s.crf[32 + k]? := by
  refine elementLoop_induct (P := fun u => u.crf[32 + k]? = s.crf[32 + k]?) (fun i hi u v hu hop => ?_) rfl h
  rw [Nat.zero_add] at hop
  unfold elementOp at hop
  split at hop
  · refine writeLocs_induct (P := fun u => u.crf[32 + k]? = s.crf[32 + k]?) (fun l hl x u v hu hx => ?_) hu hop
    refine (writeLoc_crf hx fun hidx => ?_).trans hu
    rw [Bool.eq_false_iff, Ne, writesPredicate_iff] at hw
    exact hw ⟨i, hi, l, hl, _, hidx, by omega, by omega⟩
  · cases hop

end Loop

/-! ## The prefixed instruction under a CR mask -/

section Execute

variable {d : Suffix} {op : ElementOp} {rm : Rm} {s : State}

theorem predVector_length (mode : MaskMode) (m : BitVec 3) (vl : Nat) (s : State) :
    (predVector mode m vl s).length = vl := by
  rw [predVector, List.length_map, List.length_range]

/-- The snapshot of a mask within its source holds `b` at the elements below VL of which `enabled` is `b`. -/
theorem predVector_getElem? (hmask : maskFits rm s) {i : Nat} {b : Bool} :
    (predVector rm.maskmode rm.mask s.readVl s)[i]? = some b ↔ i < s.readVl ∧ enabled rm s i = b := by
  rw [predVector_eq_enabled hmask, List.getElem?_map]
  by_cases hi : i < s.readVl
  · rw [List.getElem?_range hi, Option.map_some, Option.some_inj]
    exact (and_iff_right hi).symm
  · have hlen : (List.range s.readVl).length ≤ i := by rw [List.length_range]; omega
    rw [List.getElem?_eq_none hlen]
    exact ⟨nofun, fun h => absurd h.1 hi⟩

/-- The loop of a suffix, over the snapshot of its mask. -/
def suffixLoop (d : Suffix) (op : ElementOp) (rm : Rm) (s : State) : Option State :=
  elementLoop op (d.locs rm .src) (d.locs rm .dest) d.defaultWidth rm.elwidthSrc rm.elwidth
    (predVector rm.maskmode rm.mask s.readVl s) 0 s

/-- With VL at least 1 and a mask within its source, a loop without a result is refused. -/
theorem execute_of_loop_none (hvl : s.readVl ≠ 0) (hmask : maskFits rm s) (h : suffixLoop d op rm s = none) :
    d.execute op rm s = .refused .elementPastEnd := by
  rw [suffixLoop] at h
  simp only [Suffix.execute, hvl, if_false, maskRefusal_of_fits hmask, h]

/-- A loop with a result that has written its own CR predicate is the fault. -/
theorem execute_of_writesPredicate {t : State} (hvl : s.readVl ≠ 0) (hmask : maskFits rm s)
    (hmode : rm.maskmode = .cr) (h : suffixLoop d op rm s = some t)
    (hw : writesPredicate (d.locs rm .dest) (predVector rm.maskmode rm.mask s.readVl s) = true) :
    d.execute op rm s = .fault .crPredicateOverwritten := by
  rw [suffixLoop] at h
  simp only [Suffix.execute, hvl, if_false, maskRefusal_of_fits hmask, h]
  exact if_pos ⟨hmode, hw⟩

theorem sourcesFit_iff {i : Nat} : sourcesFit d rm s i ↔
    ∀ l ∈ d.locs rm .src, locInFile l (l.width d.defaultWidth rm.elwidthSrc) i = true := by
  simp only [sourcesFit, readLoc_isSome]

theorem destsFit_iff {i : Nat} : destsFit d rm s i ↔
    ∀ l ∈ d.locs rm .dest, locInFile l (l.width d.defaultWidth rm.elwidth) i = true := by
  simp only [destsFit, readLoc_isSome]

end Execute

/-- Settles O41: a next state comes of a loop that has written no field of the mask; where one is written the loop
completes, and is the fault, or it does not, and is refused. -/
theorem crPredicateNeverOverwritten : Obligations.CrPredicateNeverOverwritten := by
  unfold Obligations.CrPredicateNeverOverwritten
  intro rm d op s hmode
  refine ⟨fun t ht k hk => ?kept, fun l hl i hi c hmask hen hidx hlo hhi => ?written,
    fun k hk hmask hen hdis hsrc => ?refused⟩
  case kept =>
    obtain ⟨h0, -⟩ | ⟨-, -, hw, s', hloop, rfl⟩ := execute_next ht
    · omega
    · have hw : writesPredicate _ _ = false := Bool.eq_false_iff.mpr fun h => hw ⟨hmode, h⟩
      exact elementLoop_keeps_predicate hw hloop ((predVector_length ..).symm ▸ hk)
  case written =>
    have hvl : s.readVl ≠ 0 := Nat.ne_zero_of_lt hi
    have hw : writesPredicate (d.locs rm .dest) (predVector rm.maskmode rm.mask s.readVl s) = true :=
      writesPredicate_iff.mpr ⟨i, (predVector_getElem? hmask).mpr ⟨hi, hen⟩, l, hl, c, hidx, hlo,
        by rwa [predVector_length]⟩
    refine ⟨fun hfit => ?_, ?_⟩
    · obtain ⟨t, ht⟩ := Option.isSome_iff_exists.mp (elementLoop_isSome (op := op) s fun j hj => by
        obtain ⟨hjlt, hjen⟩ := (predVector_getElem? hmask).mp hj
        obtain ⟨hjs, hjd⟩ := hfit j hjlt hjen
        rw [Nat.zero_add]
        exact ⟨sourcesFit_iff.mp hjs, destsFit_iff.mp hjd⟩)
      exact execute_of_writesPredicate hvl hmask hmode ht hw
    · cases hloop : suffixLoop d op rm s with
      | none => exact .inr (execute_of_loop_none hvl hmask hloop)
      | some t => exact .inl (execute_of_writesPredicate hvl hmask hmode hloop hw)
  case refused =>
    refine execute_of_loop_none (Nat.ne_zero_of_lt hk) hmask ?_
    refine elementLoop_eq_none ((predVector_getElem? hmask).mpr ⟨hk, hen⟩)
      (fun j hj => (predVector_getElem? hmask).mpr ⟨by omega, hdis j hj⟩) ?_
    exact elementOp_eq_none s ((Nat.zero_add k).symm ▸ mt sourcesFit_iff.mpr hsrc)

end Sys2Proof
end
